-- ==== Sys2Proof/Config.lean ====
section
/-! DEFINITION. What is fixed for this machine: the five sizes of 00_scope.md R6 and the two values that a memory
cell nothing has written reads as. Nothing of the spec leaves a result open (93_implementation_defined.md, U1 to U12),
so there is no free value here. -/

namespace Sys2Proof.Config

/-- Registers in each of the seven register files (00_scope.md R6). -/
abbrev NREG : Nat := 8

/-- Width of a `K` register in bits (00_scope.md R6). -/
abbrev KBITS : Nat := 3072

/-- The same width in bytes, the longest `K.LD` (00_scope.md R6). -/
abbrev KBYTES : Nat := 384

/-- Words of the command memory (00_scope.md R6). -/
abbrev IMEM_WORDS : Nat := 1024

/-- Bytes of the data buffer (00_scope.md R6). -/
abbrev DMEM_BYTES : Nat := 4096

/-- Most pairs in one `PCHK` (00_scope.md R6). -/
abbrev NPAIR_MAX : Nat := 8

/-- DESIGN CHOICE (log 2, unsafe): what a DMEM byte that nothing has written reads as. The spec leaves it open
(93_implementation_defined.md U4). -/
abbrev dmemFill : BitVec 8 := 0

/-- DESIGN CHOICE (log 3, unsafe): what an IMEM word that nothing has written reads as. The spec leaves it open
(93_implementation_defined.md U1). -/
abbrev imemFill : BitVec 32 := 0

end Sys2Proof.Config
end

