-- ==== Sys2Proof/Word.lean ====
section
/-! DEFINITION. The word types and the value types of 00_scope.md R8. Only shapes stand here; the arithmetic on them is
in Machine/Fp.lean, Fp2.lean, Fp6.lean, Fp12.lean, G1.lean, G2.lean and Pairing.lean. -/

namespace Sys2Proof

/-- A command word (30_encoding.md R80). -/
abbrev Word := BitVec 32

/-- A byte of DMEM (10_state.md R40). -/
abbrev Byte := BitVec 8

/-- The index of a register in its file, 0 to 7 (30_encoding.md R84). -/
abbrev RegIdx := Fin Config.NREG

/-- An absolute DMEM byte address as a command names it (30_encoding.md R83). -/
abbrev Addr := BitVec 12

/-- The prime modulus `p` of 00_scope.md R5. -/
def primeP : Nat := 0x30644e72e131a029b85045b68181585d97816a916871ca8d3c208c16d87cfd47

theorem primeP_pos : 0 < primeP := by decide

/-- `Fp`: an integer in [0, p), the canonical representative (00_scope.md R8, 10_state.md R21). The type itself keeps
every stored component canonical (10_state.md R43). -/
abbrev Fp := Fin primeP

/-- `Fp2`: (a, b) stands for a + b·u, u² = −1 (00_scope.md R8, 42_fp2.md R140). -/
structure Fp2 where
  a : Fp
  b : Fp
  deriving DecidableEq, Repr

/-- `Fp6`: (c0, c1, c2) stands for c0 + c1·v + c2·v², v³ = 9 + u (00_scope.md R8, 43_fp6.md R160). -/
structure Fp6 where
  c0 : Fp2
  c1 : Fp2
  c2 : Fp2
  deriving DecidableEq, Repr

/-- `Fp12`: (c0, c1) stands for c0 + c1·w, w² = v (00_scope.md R8, 44_fp12.md R180). -/
structure Fp12 where
  c0 : Fp6
  c1 : Fp6
  deriving DecidableEq, Repr

/-- `G1pt`: affine coordinates over Fp; (0, 0) is infinity (00_scope.md R8, 45_g1.md R200). -/
structure G1pt where
  X : Fp
  Y : Fp
  deriving DecidableEq, Repr

/-- `G2pt`: affine coordinates over Fp2; ((0,0), (0,0)) is infinity (00_scope.md R8, 46_g2.md R220). -/
structure G2pt where
  X : Fp2
  Y : Fp2
  deriving DecidableEq, Repr

/-- `Int` of 00_scope.md R8: an unsigned integer of 3072 bits (10_state.md R28). -/
abbrev KInt := BitVec Config.KBITS

end Sys2Proof
end

