-- ==== Sys2Proof/Syntax.lean ====
section
/-! DEFINITION. The 96 commands of the instruction set BN128C-1 (30_encoding.md R87), one constructor per row of
spec/opcode_table.json. Operands are what the fields of formats R, I and M mean (R81 to R83, R86): a register index, a
16-bit target, immediate or pair count, a selector, a DMEM byte address, a byte length. A register index is at most 7 by
its type (R84); the other bounds are WellFormed's. -/

namespace Sys2Proof

/-- A command. Each constructor's comment gives the assembler form of 30_encoding.md R87 and the rule of its meaning. -/
inductive Instr where
  -- control and integer registers
  /-- `NOP` (R101) -/
  | nop
  /-- `HALT` (R102) -/
  | halt
  /-- `JMP target` (R103) -/
  | jmp (target : BitVec 16)
  /-- `BT target` (R104) -/
  | bt (target : BitVec 16)
  /-- `BF target` (R105) -/
  | bf (target : BitVec 16)
  /-- `K.LI Kd, imm` (R106) -/
  | kLi (rd : RegIdx) (imm : BitVec 16)
  /-- `K.MOV Kd, Ka` (R107) -/
  | kMov (rd ra : RegIdx)
  -- Fp
  /-- `F.ADD Fd, Fa, Fb` (R121) -/
  | fAdd (rd ra rb : RegIdx)
  /-- `F.SUB Fd, Fa, Fb` (R122) -/
  | fSub (rd ra rb : RegIdx)
  /-- `F.MUL Fd, Fa, Fb` (R123) -/
  | fMul (rd ra rb : RegIdx)
  /-- `F.SQR Fd, Fa` (R124) -/
  | fSqr (rd ra : RegIdx)
  /-- `F.NEG Fd, Fa` (R125) -/
  | fNeg (rd ra : RegIdx)
  /-- `F.INV Fd, Fa` (R126) -/
  | fInv (rd ra : RegIdx)
  /-- `F.EQ Fa, Fb` (R127) -/
  | fEq (ra rb : RegIdx)
  /-- `F.ISZ Fa` (R128) -/
  | fIsZ (ra : RegIdx)
  /-- `F.MOV Fd, Fa` (R129) -/
  | fMov (rd ra : RegIdx)
  /-- `F.LI Fd, imm` (R130) -/
  | fLi (rd : RegIdx) (imm : BitVec 16)
  -- Fp2
  /-- `Q.ADD Qd, Qa, Qb` (R141) -/
  | qAdd (rd ra rb : RegIdx)
  /-- `Q.SUB Qd, Qa, Qb` (R142) -/
  | qSub (rd ra rb : RegIdx)
  /-- `Q.MUL Qd, Qa, Qb` (R143) -/
  | qMul (rd ra rb : RegIdx)
  /-- `Q.SQR Qd, Qa` (R144) -/
  | qSqr (rd ra : RegIdx)
  /-- `Q.NEG Qd, Qa` (R145) -/
  | qNeg (rd ra : RegIdx)
  /-- `Q.INV Qd, Qa` (R146) -/
  | qInv (rd ra : RegIdx)
  /-- `Q.EQ Qa, Qb` (R147) -/
  | qEq (ra rb : RegIdx)
  /-- `Q.ISZ Qa` (R148) -/
  | qIsZ (ra : RegIdx)
  /-- `Q.MOV Qd, Qa` (R149) -/
  | qMov (rd ra : RegIdx)
  /-- `Q.MNR Qd, Qa` (R150) -/
  | qMnr (rd ra : RegIdx)
  /-- `Q.PACK Qd, Fa, Fb` (R151) -/
  | qPack (rd ra rb : RegIdx)
  /-- `Q.GET Fd, Qa, sel` (R152) -/
  | qGet (rd ra : RegIdx) (sel : BitVec 6)
  -- Fp6
  /-- `S.ADD Sd, Sa, Sb` (R161) -/
  | sAdd (rd ra rb : RegIdx)
  /-- `S.SUB Sd, Sa, Sb` (R162) -/
  | sSub (rd ra rb : RegIdx)
  /-- `S.MUL Sd, Sa, Sb` (R163) -/
  | sMul (rd ra rb : RegIdx)
  /-- `S.SQR Sd, Sa` (R164) -/
  | sSqr (rd ra : RegIdx)
  /-- `S.NEG Sd, Sa` (R165) -/
  | sNeg (rd ra : RegIdx)
  /-- `S.INV Sd, Sa` (R166) -/
  | sInv (rd ra : RegIdx)
  /-- `S.EQ Sa, Sb` (R167) -/
  | sEq (ra rb : RegIdx)
  /-- `S.ISZ Sa` (R168) -/
  | sIsZ (ra : RegIdx)
  /-- `S.MOV Sd, Sa` (R169) -/
  | sMov (rd ra : RegIdx)
  /-- `S.MULV Sd, Sa` (R170) -/
  | sMulV (rd ra : RegIdx)
  /-- `S.PACK Sd, Qa, Qb, Qc` (R171) -/
  | sPack (rd ra rb rc : RegIdx)
  /-- `S.GET Qd, Sa, sel` (R172) -/
  | sGet (rd ra : RegIdx) (sel : BitVec 6)
  -- Fp12 and GT
  /-- `D.ADD Dd, Da, Db` (R181) -/
  | dAdd (rd ra rb : RegIdx)
  /-- `D.SUB Dd, Da, Db` (R182) -/
  | dSub (rd ra rb : RegIdx)
  /-- `D.MUL Dd, Da, Db` (R183) -/
  | dMul (rd ra rb : RegIdx)
  /-- `D.SQR Dd, Da` (R184) -/
  | dSqr (rd ra : RegIdx)
  /-- `D.NEG Dd, Da` (R185) -/
  | dNeg (rd ra : RegIdx)
  /-- `D.INV Dd, Da` (R186) -/
  | dInv (rd ra : RegIdx)
  /-- `D.EQ Da, Db` (R187) -/
  | dEq (ra rb : RegIdx)
  /-- `D.ISZ Da` (R188) -/
  | dIsZ (ra : RegIdx)
  /-- `D.MOV Dd, Da` (R189) -/
  | dMov (rd ra : RegIdx)
  /-- `D.CONJ Dd, Da` (R190) -/
  | dConj (rd ra : RegIdx)
  /-- `D.PACK Dd, Sa, Sb` (R191) -/
  | dPack (rd ra rb : RegIdx)
  /-- `D.GET Sd, Da, sel` (R192) -/
  | dGet (rd ra : RegIdx) (sel : BitVec 6)
  /-- `D.ONE Dd` (R193) -/
  | dOne (rd : RegIdx)
  /-- `D.ISONE Da` (R194) -/
  | dIsOne (ra : RegIdx)
  /-- `D.EXP Dd, Da, Kb` (R195) -/
  | dExp (rd ra rb : RegIdx)
  -- G1
  /-- `G1.NEW Pd, Fa, Fb` (R201) -/
  | g1New (rd ra rb : RegIdx)
  /-- `G1.INF Pd` (R202) -/
  | g1Inf (rd : RegIdx)
  /-- `G1.GEN Pd` (R203) -/
  | g1Gen (rd : RegIdx)
  /-- `G1.ADD Pd, Pa, Pb` (R204) -/
  | g1Add (rd ra rb : RegIdx)
  /-- `G1.DBL Pd, Pa` (R205) -/
  | g1Dbl (rd ra : RegIdx)
  /-- `G1.NEG Pd, Pa` (R206) -/
  | g1Neg (rd ra : RegIdx)
  /-- `G1.SMUL Pd, Pa, Kb` (R207) -/
  | g1Smul (rd ra rb : RegIdx)
  /-- `G1.EQ Pa, Pb` (R208) -/
  | g1Eq (ra rb : RegIdx)
  /-- `G1.ISINF Pa` (R209) -/
  | g1IsInf (ra : RegIdx)
  /-- `G1.MOV Pd, Pa` (R210) -/
  | g1Mov (rd ra : RegIdx)
  /-- `G1.GETX Fd, Pa` (R211) -/
  | g1GetX (rd ra : RegIdx)
  /-- `G1.GETY Fd, Pa` (R212) -/
  | g1GetY (rd ra : RegIdx)
  -- G2
  /-- `G2.NEW Wd, Qa, Qb` (R221) -/
  | g2New (rd ra rb : RegIdx)
  /-- `G2.INF Wd` (R222) -/
  | g2Inf (rd : RegIdx)
  /-- `G2.GEN Wd` (R223) -/
  | g2Gen (rd : RegIdx)
  /-- `G2.ADD Wd, Wa, Wb` (R224) -/
  | g2Add (rd ra rb : RegIdx)
  /-- `G2.DBL Wd, Wa` (R225) -/
  | g2Dbl (rd ra : RegIdx)
  /-- `G2.NEG Wd, Wa` (R226) -/
  | g2Neg (rd ra : RegIdx)
  /-- `G2.SMUL Wd, Wa, Kb` (R227) -/
  | g2Smul (rd ra rb : RegIdx)
  /-- `G2.EQ Wa, Wb` (R228) -/
  | g2Eq (ra rb : RegIdx)
  /-- `G2.ISINF Wa` (R229) -/
  | g2IsInf (ra : RegIdx)
  /-- `G2.MOV Wd, Wa` (R230) -/
  | g2Mov (rd ra : RegIdx)
  /-- `G2.GETX Qd, Wa` (R231) -/
  | g2GetX (rd ra : RegIdx)
  /-- `G2.GETY Qd, Wa` (R232) -/
  | g2GetY (rd ra : RegIdx)
  -- pairing
  /-- `LINE.DBL Dd, Wa, Pb` (R241) -/
  | lineDbl (rd ra rb : RegIdx)
  /-- `LINE.ADD Dd, Wa, Wb, Pc` (R242) -/
  | lineAdd (rd ra rb rc : RegIdx)
  /-- `MLOOP Dd, Pa, Wb` (R243) -/
  | mloop (rd ra rb : RegIdx)
  /-- `FEXP Dd, Da` (R244) -/
  | fexp (rd ra : RegIdx)
  /-- `PAIR Dd, Pa, Wb` (R245) -/
  | pair (rd ra rb : RegIdx)
  /-- `PCHK n` (R246) -/
  | pchk (n : BitVec 16)
  /-- `PCHKE n` (R247) -/
  | pchke (n : BitVec 16)
  -- codec and memory
  /-- `G1.ENC [addr], Ps` (R261) -/
  | g1Enc (r : RegIdx) (addr : Addr)
  /-- `G1.DEC Pd, [addr], len` (R262) -/
  | g1Dec (r : RegIdx) (addr : Addr) (len : BitVec 9)
  /-- `G2.ENC [addr], Ws` (R263) -/
  | g2Enc (r : RegIdx) (addr : Addr)
  /-- `G2.DEC Wd, [addr], len` (R264) -/
  | g2Dec (r : RegIdx) (addr : Addr) (len : BitVec 9)
  /-- `GT.ENC [addr], Ds` (R265) -/
  | gtEnc (r : RegIdx) (addr : Addr)
  /-- `GT.DEC Dd, [addr], len` (R266) -/
  | gtDec (r : RegIdx) (addr : Addr) (len : BitVec 9)
  /-- `F.LD Fd, [addr]` (R267) -/
  | fLd (r : RegIdx) (addr : Addr)
  /-- `F.ST [addr], Fs` (R268) -/
  | fSt (r : RegIdx) (addr : Addr)
  /-- `K.LD Kd, [addr], len` (R269) -/
  | kLd (r : RegIdx) (addr : Addr) (len : BitVec 9)
  deriving DecidableEq, Repr

end Sys2Proof
end

