-- ==== Sys2Proof/WellFormed.lean ====
section
/-! DEFINITION. The bounds on operands that the operand types do not give (30_encoding.md R86, R87 "extra condition"): a
selector names an existing component, a pair count is at most NPAIR_MAX, a `K.LD` length is at most KBYTES. A command that
breaks one has no legal word (R88). -/

namespace Sys2Proof

/-- The check of R86, one arm for every command. -/
def Instr.wellFormed : Instr → Bool
  | .qGet _ _ sel => decide (sel.toNat < 2)
  | .sGet _ _ sel => decide (sel.toNat < 3)
  | .dGet _ _ sel => decide (sel.toNat < 2)
  | .pchk n => decide (n.toNat ≤ Config.NPAIR_MAX)
  | .pchke n => decide (n.toNat ≤ Config.NPAIR_MAX)
  | .kLd _ _ len => decide (len.toNat ≤ Config.KBYTES)
  | .nop | .halt | .jmp _ | .bt _ | .bf _ | .kLi _ _ | .kMov _ _ | .fAdd _ _ _ | .fSub _ _ _ | .fMul _ _ _
  | .fSqr _ _ | .fNeg _ _ | .fInv _ _ | .fEq _ _ | .fIsZ _ | .fMov _ _ | .fLi _ _ | .qAdd _ _ _ | .qSub _ _ _
  | .qMul _ _ _ | .qSqr _ _ | .qNeg _ _ | .qInv _ _ | .qEq _ _ | .qIsZ _ | .qMov _ _ | .qMnr _ _
  | .qPack _ _ _ | .sAdd _ _ _ | .sSub _ _ _ | .sMul _ _ _ | .sSqr _ _ | .sNeg _ _ | .sInv _ _ | .sEq _ _
  | .sIsZ _ | .sMov _ _ | .sMulV _ _ | .sPack _ _ _ _ | .dAdd _ _ _ | .dSub _ _ _ | .dMul _ _ _ | .dSqr _ _
  | .dNeg _ _ | .dInv _ _ | .dEq _ _ | .dIsZ _ | .dMov _ _ | .dConj _ _ | .dPack _ _ _ | .dOne _ | .dIsOne _
  | .dExp _ _ _ | .g1New _ _ _ | .g1Inf _ | .g1Gen _ | .g1Add _ _ _ | .g1Dbl _ _ | .g1Neg _ _ | .g1Smul _ _ _
  | .g1Eq _ _ | .g1IsInf _ | .g1Mov _ _ | .g1GetX _ _ | .g1GetY _ _ | .g2New _ _ _ | .g2Inf _ | .g2Gen _
  | .g2Add _ _ _ | .g2Dbl _ _ | .g2Neg _ _ | .g2Smul _ _ _ | .g2Eq _ _ | .g2IsInf _ | .g2Mov _ _
  | .g2GetX _ _ | .g2GetY _ _ | .lineDbl _ _ _ | .lineAdd _ _ _ _ | .mloop _ _ _ | .fexp _ _ | .pair _ _ _
  | .g1Enc _ _ | .g1Dec _ _ _ | .g2Enc _ _ | .g2Dec _ _ _ | .gtEnc _ _ | .gtDec _ _ _ | .fLd _ _ | .fSt _ _ => true

/-- A well-formed command. -/
abbrev WellFormed (i : Instr) : Prop := i.wellFormed = true

end Sys2Proof
end

