-- ==== Sys2Proof/Decode.lean ====
section
/-! DEFINITION. The decoder of 30_encoding.md: total on every 32-bit word, rejecting by name, and after it the encoder,
written from the same rules (R81 to R88). A command is one 32-bit word with no byte order inside the core (R80, R72), so the
decoder reads a word, not bytes. -/

namespace Sys2Proof

/-- Why a word is no command (R88). Every one of these is `IllegalInstruction` to the machine (60_exceptions.md R284). -/
inductive Reject where
  /-- the opcode byte is not in the table -/
  | unknownOpcode
  /-- a used register field is 8 or more (R84) -/
  | registerOutOfRange
  /-- a field the command does not use is not 0 (R85) -/
  | unusedFieldNotZero
  /-- a selector names no component (R86) -/
  | selectorOutOfRange
  /-- a pair count above NPAIR_MAX (R86) -/
  | pairCountOutOfRange
  /-- a `K.LD` length above KBYTES (R86) -/
  | lengthOutOfRange
  deriving DecidableEq, Repr

/-! ### Fields of a word (R80 to R83) -/

/-- `op`, bits 31:24, in every format (R80). -/
def opField (w : Word) : BitVec 8 := w.extractLsb' 24 8
/-- `rd`, bits 23:18, formats R and I (R81, R82). -/
def rdField (w : Word) : BitVec 6 := w.extractLsb' 18 6
/-- `ra`, bits 17:12, format R (R81). -/
def raField (w : Word) : BitVec 6 := w.extractLsb' 12 6
/-- `rb`, bits 11:6, format R (R81); also the selector. -/
def rbField (w : Word) : BitVec 6 := w.extractLsb' 6 6
/-- `rc`, bits 5:0, format R (R81). -/
def rcField (w : Word) : BitVec 6 := w.extractLsb' 0 6
/-- bits 17:16 of format I, which must be 0 (R82). -/
def zeroField (w : Word) : BitVec 2 := w.extractLsb' 16 2
/-- `imm16`, bits 15:0, format I (R82). -/
def immField (w : Word) : BitVec 16 := w.extractLsb' 0 16
/-- `r`, bits 23:21, format M (R83). -/
def rField (w : Word) : BitVec 3 := w.extractLsb' 21 3
/-- `addr`, bits 20:9, format M (R83). -/
def addrField (w : Word) : Addr := w.extractLsb' 9 12
/-- `len`, bits 8:0, format M (R83). -/
def lenField (w : Word) : BitVec 9 := w.extractLsb' 0 9

/-- How the fields of a row are used: one layout per operand list of R87. -/
inductive Layout where
  /-- format R, no operand -/
  | none (i : Instr)
  /-- format R: `rd` -/
  | rd (mk : RegIdx → Instr)
  /-- format R: `ra` -/
  | ra (mk : RegIdx → Instr)
  /-- format R: `rd`, `ra` -/
  | rdRa (mk : RegIdx → RegIdx → Instr)
  /-- format R: `ra`, `rb` -/
  | raRb (mk : RegIdx → RegIdx → Instr)
  /-- format R: `rd`, `ra`, `rb` -/
  | rdRaRb (mk : RegIdx → RegIdx → RegIdx → Instr)
  /-- format R: `rd`, `ra`, `rb`, `rc` -/
  | rdRaRbRc (mk : RegIdx → RegIdx → RegIdx → RegIdx → Instr)
  /-- format R: `rd`, `ra` and a selector below `count` in `rb` -/
  | rdRaSel (count : Nat) (mk : RegIdx → RegIdx → BitVec 6 → Instr)
  /-- format I: a branch target -/
  | target (mk : BitVec 16 → Instr)
  /-- format I: `rd` and an immediate -/
  | rdImm (mk : RegIdx → BitVec 16 → Instr)
  /-- format I: a pair count, at most NPAIR_MAX -/
  | count (mk : BitVec 16 → Instr)
  /-- format M with `len` = 0 -/
  | mem (mk : RegIdx → Addr → Instr)
  /-- format M with a length of at most `most` bytes -/
  | memLen (most : Nat) (mk : RegIdx → Addr → BitVec 9 → Instr)

/-- A used 6-bit register field: an index below 8 (R84). -/
def regOf (x : BitVec 6) : Except Reject RegIdx :=
  if h : x.toNat < Config.NREG then .ok ⟨x.toNat, h⟩ else .error .registerOutOfRange

/-- The 3-bit register field of format M: every value is legal (R84). -/
def regOf3 (x : BitVec 3) : RegIdx := ⟨x.toNat, x.isLt⟩

/-- An unused field must be 0 (R85). -/
def unused {n : Nat} (x : BitVec n) (i : Except Reject Instr) : Except Reject Instr :=
  if x = 0 then i else .error .unusedFieldNotZero

/-- Continue with the register a field names. -/
def withIdx (x : BitVec 6) (k : RegIdx → Except Reject Instr) : Except Reject Instr :=
  match regOf x with
  | .ok i => k i
  | .error e => .error e

/-- Read a word by the layout of its row. -/
def readLayout (w : Word) : Layout → Except Reject Instr
  | .none i =>
    unused (rdField w) <| unused (raField w) <| unused (rbField w) <| unused (rcField w) <| .ok i
  | .rd mk =>
    withIdx (rdField w) fun d => unused (raField w) <| unused (rbField w) <| unused (rcField w) <| .ok (mk d)
  | .ra mk =>
    unused (rdField w) <| withIdx (raField w) fun a => unused (rbField w) <| unused (rcField w) <| .ok (mk a)
  | .rdRa mk =>
    withIdx (rdField w) fun d => withIdx (raField w) fun a =>
      unused (rbField w) <| unused (rcField w) <| .ok (mk d a)
  | .raRb mk =>
    unused (rdField w) <| withIdx (raField w) fun a => withIdx (rbField w) fun b =>
      unused (rcField w) <| .ok (mk a b)
  | .rdRaRb mk =>
    withIdx (rdField w) fun d => withIdx (raField w) fun a => withIdx (rbField w) fun b =>
      unused (rcField w) <| .ok (mk d a b)
  | .rdRaRbRc mk =>
    withIdx (rdField w) fun d => withIdx (raField w) fun a => withIdx (rbField w) fun b =>
      withIdx (rcField w) fun c => .ok (mk d a b c)
  | .rdRaSel count mk =>
    withIdx (rdField w) fun d => withIdx (raField w) fun a =>
      if (rbField w).toNat < count then unused (rcField w) <| .ok (mk d a (rbField w))
      else .error .selectorOutOfRange
  | .target mk => unused (rdField w) <| unused (zeroField w) <| .ok (mk (immField w))
  | .rdImm mk => withIdx (rdField w) fun d => unused (zeroField w) <| .ok (mk d (immField w))
  | .count mk =>
    unused (rdField w) <| unused (zeroField w) <|
      if (immField w).toNat ≤ Config.NPAIR_MAX then .ok (mk (immField w)) else .error .pairCountOutOfRange
  | .mem mk => unused (lenField w) <| .ok (mk (regOf3 (rField w)) (addrField w))
  | .memLen most mk =>
    if (lenField w).toNat ≤ most then .ok (mk (regOf3 (rField w)) (addrField w) (lenField w))
    else .error .lengthOutOfRange

/-! ### The opcode map (R87) -/

/-- Opcode family 0: control and integer registers. -/
def opsControl : List (BitVec 8 × Layout) :=
  [(0x00, .none .nop), (0x01, .none .halt), (0x02, .target .jmp), (0x03, .target .bt), (0x04, .target .bf),
   (0x08, .rdImm .kLi), (0x09, .rdRa .kMov)]

/-- Opcode family 1: Fp. -/
def opsFp : List (BitVec 8 × Layout) :=
  [(0x10, .rdRaRb .fAdd), (0x11, .rdRaRb .fSub), (0x12, .rdRaRb .fMul), (0x13, .rdRa .fSqr),
   (0x14, .rdRa .fNeg), (0x15, .rdRa .fInv), (0x16, .raRb .fEq), (0x17, .ra .fIsZ), (0x18, .rdRa .fMov),
   (0x19, .rdImm .fLi)]

/-- Opcode family 2: Fp2. -/
def opsFp2 : List (BitVec 8 × Layout) :=
  [(0x20, .rdRaRb .qAdd), (0x21, .rdRaRb .qSub), (0x22, .rdRaRb .qMul), (0x23, .rdRa .qSqr),
   (0x24, .rdRa .qNeg), (0x25, .rdRa .qInv), (0x26, .raRb .qEq), (0x27, .ra .qIsZ), (0x28, .rdRa .qMov),
   (0x29, .rdRa .qMnr), (0x2A, .rdRaRb .qPack), (0x2B, .rdRaSel 2 .qGet)]

/-- Opcode family 3: Fp6. -/
def opsFp6 : List (BitVec 8 × Layout) :=
  [(0x30, .rdRaRb .sAdd), (0x31, .rdRaRb .sSub), (0x32, .rdRaRb .sMul), (0x33, .rdRa .sSqr),
   (0x34, .rdRa .sNeg), (0x35, .rdRa .sInv), (0x36, .raRb .sEq), (0x37, .ra .sIsZ), (0x38, .rdRa .sMov),
   (0x39, .rdRa .sMulV), (0x3A, .rdRaRbRc .sPack), (0x3B, .rdRaSel 3 .sGet)]

/-- Opcode family 4: Fp12 and GT. -/
def opsFp12 : List (BitVec 8 × Layout) :=
  [(0x40, .rdRaRb .dAdd), (0x41, .rdRaRb .dSub), (0x42, .rdRaRb .dMul), (0x43, .rdRa .dSqr),
   (0x44, .rdRa .dNeg), (0x45, .rdRa .dInv), (0x46, .raRb .dEq), (0x47, .ra .dIsZ), (0x48, .rdRa .dMov),
   (0x49, .rdRa .dConj), (0x4A, .rdRaRb .dPack), (0x4B, .rdRaSel 2 .dGet), (0x4C, .rd .dOne),
   (0x4D, .ra .dIsOne), (0x4E, .rdRaRb .dExp)]

/-- Opcode family 5: G1. -/
def opsG1 : List (BitVec 8 × Layout) :=
  [(0x50, .rdRaRb .g1New), (0x51, .rd .g1Inf), (0x52, .rd .g1Gen), (0x53, .rdRaRb .g1Add),
   (0x54, .rdRa .g1Dbl), (0x55, .rdRa .g1Neg), (0x56, .rdRaRb .g1Smul), (0x57, .raRb .g1Eq),
   (0x58, .ra .g1IsInf), (0x59, .rdRa .g1Mov), (0x5A, .rdRa .g1GetX), (0x5B, .rdRa .g1GetY)]

/-- Opcode family 6: G2. -/
def opsG2 : List (BitVec 8 × Layout) :=
  [(0x60, .rdRaRb .g2New), (0x61, .rd .g2Inf), (0x62, .rd .g2Gen), (0x63, .rdRaRb .g2Add),
   (0x64, .rdRa .g2Dbl), (0x65, .rdRa .g2Neg), (0x66, .rdRaRb .g2Smul), (0x67, .raRb .g2Eq),
   (0x68, .ra .g2IsInf), (0x69, .rdRa .g2Mov), (0x6A, .rdRa .g2GetX), (0x6B, .rdRa .g2GetY)]

/-- Opcode family 7: pairing. -/
def opsPairing : List (BitVec 8 × Layout) :=
  [(0x70, .rdRaRb .lineDbl), (0x71, .rdRaRbRc .lineAdd), (0x72, .rdRaRb .mloop), (0x73, .rdRa .fexp),
   (0x74, .rdRaRb .pair), (0x75, .count .pchk), (0x76, .count .pchke)]

/-- Opcode family 8: codec and memory. -/
def opsCodec : List (BitVec 8 × Layout) :=
  [(0x80, .mem .g1Enc), (0x81, .memLen 511 .g1Dec), (0x82, .mem .g2Enc), (0x83, .memLen 511 .g2Dec),
   (0x84, .mem .gtEnc), (0x85, .memLen 511 .gtDec), (0x86, .mem .fLd), (0x87, .mem .fSt),
   (0x88, .memLen Config.KBYTES .kLd)]

/-- The 96 rows of R87, by opcode byte. -/
def opcodeTable : List (BitVec 8 × Layout) :=
  opsControl ++ opsFp ++ opsFp2 ++ opsFp6 ++ opsFp12 ++ opsG1 ++ opsG2 ++ opsPairing ++ opsCodec

/-- The row of an opcode byte, if it has one. -/
def findRow (op : BitVec 8) : List (BitVec 8 × Layout) → Option Layout
  | [] => none
  | (o, l) :: rows => if o = op then some l else findRow op rows

/-- The decoder: R100 step (3), R87, R88. -/
def decode (w : Word) : Except Reject Instr :=
  match findRow (opField w) opcodeTable with
  | some l => readLayout w l
  | none => .error .unknownOpcode

/-- The instruction the decoder reads from a row of spec/opcode_table.json filled with the bits `w`: one word, bits above
`nbits` zero. -/
def decodeTableWord (nbits w : Nat) : Option Instr :=
  match decode (BitVec.ofNat 32 (w % 2 ^ nbits)) with
  | .ok i => some i
  | .error _ => none

/-! ### The encoder (R81 to R83, R87) -/

/-- Format R (R81). -/
def wordR (op : BitVec 8) (rd ra rb rc : BitVec 6) : Word := op ++ rd ++ ra ++ rb ++ rc
/-- Format I (R82). -/
def wordI (op : BitVec 8) (rd : BitVec 6) (imm : BitVec 16) : Word := op ++ rd ++ (0 : BitVec 2) ++ imm
/-- Format M (R83). -/
def wordM (op : BitVec 8) (r : BitVec 3) (addr : Addr) (len : BitVec 9) : Word := op ++ r ++ addr ++ len

/-- A register index in the 6-bit field of formats R and I. -/
def idx6 (i : RegIdx) : BitVec 6 := BitVec.ofNat 6 i.val
/-- A register index in the 3-bit field of format M. -/
def idx3 (i : RegIdx) : BitVec 3 := BitVec.ofNat 3 i.val

/-- The word of a command: legal exactly when the command is well-formed. -/
def encode : Instr → Word
  | .nop => wordR 0x00 0 0 0 0
  | .halt => wordR 0x01 0 0 0 0
  | .jmp target => wordI 0x02 0 target
  | .bt target => wordI 0x03 0 target
  | .bf target => wordI 0x04 0 target
  | .kLi rd imm => wordI 0x08 (idx6 rd) imm
  | .kMov rd ra => wordR 0x09 (idx6 rd) (idx6 ra) 0 0
  | .fAdd rd ra rb => wordR 0x10 (idx6 rd) (idx6 ra) (idx6 rb) 0
  | .fSub rd ra rb => wordR 0x11 (idx6 rd) (idx6 ra) (idx6 rb) 0
  | .fMul rd ra rb => wordR 0x12 (idx6 rd) (idx6 ra) (idx6 rb) 0
  | .fSqr rd ra => wordR 0x13 (idx6 rd) (idx6 ra) 0 0
  | .fNeg rd ra => wordR 0x14 (idx6 rd) (idx6 ra) 0 0
  | .fInv rd ra => wordR 0x15 (idx6 rd) (idx6 ra) 0 0
  | .fEq ra rb => wordR 0x16 0 (idx6 ra) (idx6 rb) 0
  | .fIsZ ra => wordR 0x17 0 (idx6 ra) 0 0
  | .fMov rd ra => wordR 0x18 (idx6 rd) (idx6 ra) 0 0
  | .fLi rd imm => wordI 0x19 (idx6 rd) imm
  | .qAdd rd ra rb => wordR 0x20 (idx6 rd) (idx6 ra) (idx6 rb) 0
  | .qSub rd ra rb => wordR 0x21 (idx6 rd) (idx6 ra) (idx6 rb) 0
  | .qMul rd ra rb => wordR 0x22 (idx6 rd) (idx6 ra) (idx6 rb) 0
  | .qSqr rd ra => wordR 0x23 (idx6 rd) (idx6 ra) 0 0
  | .qNeg rd ra => wordR 0x24 (idx6 rd) (idx6 ra) 0 0
  | .qInv rd ra => wordR 0x25 (idx6 rd) (idx6 ra) 0 0
  | .qEq ra rb => wordR 0x26 0 (idx6 ra) (idx6 rb) 0
  | .qIsZ ra => wordR 0x27 0 (idx6 ra) 0 0
  | .qMov rd ra => wordR 0x28 (idx6 rd) (idx6 ra) 0 0
  | .qMnr rd ra => wordR 0x29 (idx6 rd) (idx6 ra) 0 0
  | .qPack rd ra rb => wordR 0x2A (idx6 rd) (idx6 ra) (idx6 rb) 0
  | .qGet rd ra sel => wordR 0x2B (idx6 rd) (idx6 ra) sel 0
  | .sAdd rd ra rb => wordR 0x30 (idx6 rd) (idx6 ra) (idx6 rb) 0
  | .sSub rd ra rb => wordR 0x31 (idx6 rd) (idx6 ra) (idx6 rb) 0
  | .sMul rd ra rb => wordR 0x32 (idx6 rd) (idx6 ra) (idx6 rb) 0
  | .sSqr rd ra => wordR 0x33 (idx6 rd) (idx6 ra) 0 0
  | .sNeg rd ra => wordR 0x34 (idx6 rd) (idx6 ra) 0 0
  | .sInv rd ra => wordR 0x35 (idx6 rd) (idx6 ra) 0 0
  | .sEq ra rb => wordR 0x36 0 (idx6 ra) (idx6 rb) 0
  | .sIsZ ra => wordR 0x37 0 (idx6 ra) 0 0
  | .sMov rd ra => wordR 0x38 (idx6 rd) (idx6 ra) 0 0
  | .sMulV rd ra => wordR 0x39 (idx6 rd) (idx6 ra) 0 0
  | .sPack rd ra rb rc => wordR 0x3A (idx6 rd) (idx6 ra) (idx6 rb) (idx6 rc)
  | .sGet rd ra sel => wordR 0x3B (idx6 rd) (idx6 ra) sel 0
  | .dAdd rd ra rb => wordR 0x40 (idx6 rd) (idx6 ra) (idx6 rb) 0
  | .dSub rd ra rb => wordR 0x41 (idx6 rd) (idx6 ra) (idx6 rb) 0
  | .dMul rd ra rb => wordR 0x42 (idx6 rd) (idx6 ra) (idx6 rb) 0
  | .dSqr rd ra => wordR 0x43 (idx6 rd) (idx6 ra) 0 0
  | .dNeg rd ra => wordR 0x44 (idx6 rd) (idx6 ra) 0 0
  | .dInv rd ra => wordR 0x45 (idx6 rd) (idx6 ra) 0 0
  | .dEq ra rb => wordR 0x46 0 (idx6 ra) (idx6 rb) 0
  | .dIsZ ra => wordR 0x47 0 (idx6 ra) 0 0
  | .dMov rd ra => wordR 0x48 (idx6 rd) (idx6 ra) 0 0
  | .dConj rd ra => wordR 0x49 (idx6 rd) (idx6 ra) 0 0
  | .dPack rd ra rb => wordR 0x4A (idx6 rd) (idx6 ra) (idx6 rb) 0
  | .dGet rd ra sel => wordR 0x4B (idx6 rd) (idx6 ra) sel 0
  | .dOne rd => wordR 0x4C (idx6 rd) 0 0 0
  | .dIsOne ra => wordR 0x4D 0 (idx6 ra) 0 0
  | .dExp rd ra rb => wordR 0x4E (idx6 rd) (idx6 ra) (idx6 rb) 0
  | .g1New rd ra rb => wordR 0x50 (idx6 rd) (idx6 ra) (idx6 rb) 0
  | .g1Inf rd => wordR 0x51 (idx6 rd) 0 0 0
  | .g1Gen rd => wordR 0x52 (idx6 rd) 0 0 0
  | .g1Add rd ra rb => wordR 0x53 (idx6 rd) (idx6 ra) (idx6 rb) 0
  | .g1Dbl rd ra => wordR 0x54 (idx6 rd) (idx6 ra) 0 0
  | .g1Neg rd ra => wordR 0x55 (idx6 rd) (idx6 ra) 0 0
  | .g1Smul rd ra rb => wordR 0x56 (idx6 rd) (idx6 ra) (idx6 rb) 0
  | .g1Eq ra rb => wordR 0x57 0 (idx6 ra) (idx6 rb) 0
  | .g1IsInf ra => wordR 0x58 0 (idx6 ra) 0 0
  | .g1Mov rd ra => wordR 0x59 (idx6 rd) (idx6 ra) 0 0
  | .g1GetX rd ra => wordR 0x5A (idx6 rd) (idx6 ra) 0 0
  | .g1GetY rd ra => wordR 0x5B (idx6 rd) (idx6 ra) 0 0
  | .g2New rd ra rb => wordR 0x60 (idx6 rd) (idx6 ra) (idx6 rb) 0
  | .g2Inf rd => wordR 0x61 (idx6 rd) 0 0 0
  | .g2Gen rd => wordR 0x62 (idx6 rd) 0 0 0
  | .g2Add rd ra rb => wordR 0x63 (idx6 rd) (idx6 ra) (idx6 rb) 0
  | .g2Dbl rd ra => wordR 0x64 (idx6 rd) (idx6 ra) 0 0
  | .g2Neg rd ra => wordR 0x65 (idx6 rd) (idx6 ra) 0 0
  | .g2Smul rd ra rb => wordR 0x66 (idx6 rd) (idx6 ra) (idx6 rb) 0
  | .g2Eq ra rb => wordR 0x67 0 (idx6 ra) (idx6 rb) 0
  | .g2IsInf ra => wordR 0x68 0 (idx6 ra) 0 0
  | .g2Mov rd ra => wordR 0x69 (idx6 rd) (idx6 ra) 0 0
  | .g2GetX rd ra => wordR 0x6A (idx6 rd) (idx6 ra) 0 0
  | .g2GetY rd ra => wordR 0x6B (idx6 rd) (idx6 ra) 0 0
  | .lineDbl rd ra rb => wordR 0x70 (idx6 rd) (idx6 ra) (idx6 rb) 0
  | .lineAdd rd ra rb rc => wordR 0x71 (idx6 rd) (idx6 ra) (idx6 rb) (idx6 rc)
  | .mloop rd ra rb => wordR 0x72 (idx6 rd) (idx6 ra) (idx6 rb) 0
  | .fexp rd ra => wordR 0x73 (idx6 rd) (idx6 ra) 0 0
  | .pair rd ra rb => wordR 0x74 (idx6 rd) (idx6 ra) (idx6 rb) 0
  | .pchk n => wordI 0x75 0 n
  | .pchke n => wordI 0x76 0 n
  | .g1Enc r addr => wordM 0x80 (idx3 r) addr 0
  | .g1Dec r addr len => wordM 0x81 (idx3 r) addr len
  | .g2Enc r addr => wordM 0x82 (idx3 r) addr 0
  | .g2Dec r addr len => wordM 0x83 (idx3 r) addr len
  | .gtEnc r addr => wordM 0x84 (idx3 r) addr 0
  | .gtDec r addr len => wordM 0x85 (idx3 r) addr len
  | .fLd r addr => wordM 0x86 (idx3 r) addr 0
  | .fSt r addr => wordM 0x87 (idx3 r) addr 0
  | .kLd r addr len => wordM 0x88 (idx3 r) addr len

end Sys2Proof
end

