-- ==== Sys2Proof/Machine/State.lean ====
section
/-! DEFINITION. The state of the core (10_state.md), the reasons a transition of the model can stop, and the state after
reset. -/

namespace Sys2Proof.Machine

/-- The run state (10_state.md R31). Its code in `STATUS[1:0]` is in Machine/HostPort.lean. -/
inductive RunState where
  | idle
  | run
  | halt
  | fault
  deriving DecidableEq, Repr

/-- What `CAUSE` can hold (10_state.md R34, 60_exceptions.md R280). Its code is in Machine/HostPort.lean. -/
inductive Cause where
  /-- code 0: no fault since the last GO or reset -/
  | noFault
  /-- code 1 (60_exceptions.md R281) -/
  | invalidPoint
  /-- code 2 (R282) -/
  | invalidEncoding
  /-- code 3 (R283) -/
  | invalidPairing
  /-- code 4 (R284) -/
  | illegalInstruction
  /-- code 5 (R285) -/
  | uninitRegister
  /-- code 6 (R286) -/
  | dmemAccessFault
  /-- code 7 (R287) -/
  | imemFetchFault
  deriving DecidableEq, Repr

/-- A register file: eight registers of one value type (10_state.md section 2). `none` is "valid bit clear" (R27): the
valid bit is the spec's own state, and 93_implementation_defined.md U2 has a model hold it so (log 1). -/
abbrev RegFile (α : Type) := Vector (Option α) Config.NREG

/-- DMEM (10_state.md R40): the bytes that differ from `Config.dmemFill`, by strictly rising address. The form is
`Memory.wf` in Machine/Ops.lean. -/
abbrev Dmem := List Host.Cell

/-- IMEM (10_state.md R39): the words that differ from `Config.imemFill`, by strictly rising word index. The form is
`Imem.wf` in Machine/Ops.lean. -/
abbrev Imem := List (Nat × Word)

/-- The architectural state (10_state.md R20). `STATUS`, the 32-bit views of the other host registers and `irq` are
functions of it (Machine/HostPort.lean); there is no hidden state (R42). -/
structure State where
  /-- base-field registers (R21) -/
  F : RegFile Fp
  /-- Fp2 registers (R22) -/
  Q : RegFile Fp2
  /-- Fp6 registers (R23) -/
  S : RegFile Fp6
  /-- Fp12 and GT registers (R24) -/
  D : RegFile Fp12
  /-- G1 point registers (R25) -/
  P : RegFile G1pt
  /-- G2 point registers (R26) -/
  W : RegFile G2pt
  /-- integer registers (R28) -/
  K : RegFile KInt
  /-- the program counter, an IMEM word index (R29) -/
  pc : BitVec 16
  /-- the test flag (R30) -/
  T : Bool
  /-- the run state (R31) -/
  run : RunState
  /-- `CAUSE[3:0]` (R34) -/
  cause : Cause
  /-- `EPC[15:0]` (R35) -/
  epc : BitVec 16
  /-- `INFO` (R36) -/
  info : BitVec 32
  /-- `ENTRY[15:0]` (R37) -/
  entry : BitVec 16
  /-- `CTRL.IE` (R38) -/
  ie : Bool
  /-- the command memory (R39) -/
  imem : Imem
  /-- the data buffer (R40) -/
  dmem : Dmem
  deriving DecidableEq, Repr

/-- Reasons a HOST operation stops as an access to what does not exist. `step` raises none of them: every fault of
60_exceptions.md is a state the machine enters (R290). -/
inductive Fault where
  /-- raised by `hostStep` for an IMEM index of 1024 or more (70_reset_and_hazards.md R315 offers 0 to 1023): safe -/
  | hostNoSuchWord (i : Nat)
  /-- raised by `hostStep` for a DMEM address of 4096 or more (R315 offers 0 to 4095): safe -/
  | hostNoSuchByte (a : Nat)
  deriving DecidableEq, Repr

/-- Reasons the model gives no meaning. -/
inductive Refusal where
  /-- raised by an arm of `exec` whose instruction has no meaning yet: safe; no arm is left -/
  | notModelled (mnemonic : String)
  /-- raised by `hostStep` for a host access that breaks host exclusion (20_memory.md R69, 93_implementation_defined.md U5:
  "refuse"): safe -/
  | hostExclusion
  deriving DecidableEq, Repr

/-- What an instruction's meaning answers. -/
abbrev Result := Host.Outcome State Fault Refusal

/-- The state after reset with given memory contents, which the spec leaves unspecified (70_reset_and_hazards.md R311). -/
def State.resetWith (imem : Imem) (dmem : Dmem) : State where
  F := Vector.replicate Config.NREG none
  Q := Vector.replicate Config.NREG none
  S := Vector.replicate Config.NREG none
  D := Vector.replicate Config.NREG none
  P := Vector.replicate Config.NREG none
  W := Vector.replicate Config.NREG none
  K := Vector.replicate Config.NREG none
  pc := 0
  T := false
  run := .idle
  cause := .noFault
  epc := 0
  info := 0
  entry := 0
  ie := false
  imem := imem
  dmem := dmem

/-- The state after reset (R311). DESIGN CHOICE (log 2, log 3, unsafe): nothing is listed in the memories, so DMEM reads
0x00 and IMEM 0x00000000 throughout. -/
def State.reset : State := State.resetWith [] []

end Sys2Proof.Machine
end

