-- ==== Sys2Proof/Machine/Ops.lean ====
section
/-! DEFINITION. The named operations over memory, registers and the run state that every meaning is written with: memory
cells in canonical form, the seven register files, moving on, taking a fault (60_exceptions.md R290) and, beside it, what the
spec has for a return: the host's acknowledge and launch (R293). -/

namespace Sys2Proof.Machine

/-! ### Memory cells -/

/-- The value at a key of a sorted cell list; `fill` where the key is not listed. -/
def cellsRead {β : Type} (fill : β) : List (Nat × β) → Nat → β
  | [], _ => fill
  | (k, v) :: m, a => if a < k then fill else if a = k then v else cellsRead fill m a

/-- Put a value in front of a cell list, listed only where it differs from `fill`. -/
def cellsCons {β : Type} [DecidableEq β] (fill : β) (a : Nat) (b : β) (m : List (Nat × β)) : List (Nat × β) :=
  if b = fill then m else (a, b) :: m

/-- Write one cell of a sorted cell list, keeping the canonical form: keys strictly rising, no listed value equal to
`fill`. -/
def cellsWrite {β : Type} [DecidableEq β] (fill : β) : List (Nat × β) → Nat → β → List (Nat × β)
  | [], a, b => cellsCons fill a b []
  | (k, v) :: m, a, b =>
    if a < k then cellsCons fill a b ((k, v) :: m)
    else if a = k then cellsCons fill a b m
    else (k, v) :: cellsWrite fill m a b

/-- The canonical form, from the least key on that may still be listed: keys strictly rising and below `size`, no listed
value equal to `fill`. -/
def cellsWf {β : Type} [DecidableEq β] (fill : β) (size : Nat) : Nat → List (Nat × β) → Bool
  | _, [] => true
  | low, (k, v) :: m => decide (low ≤ k) && decide (k < size) && decide (v ≠ fill) && cellsWf fill size (k + 1) m

/-- The cell list with the contents of any list of cells below `size`, in canonical form. -/
def cellsOfList {β : Type} [DecidableEq β] (fill : β) (size : Nat) : List (Nat × β) → List (Nat × β)
  | [] => []
  | (k, v) :: m => if k < size then cellsWrite fill (cellsOfList fill size m) k v else cellsOfList fill size m

/-- DMEM is in canonical form. -/
def Memory.wf (m : Dmem) : Bool := cellsWf Config.dmemFill Config.DMEM_BYTES 0 m

/-- IMEM is in canonical form. -/
def Imem.wf (m : Imem) : Bool := cellsWf Config.imemFill Config.IMEM_WORDS 0 m

/-- One byte of DMEM (10_state.md R40). -/
def readByte (m : Dmem) (a : Nat) : Byte := cellsRead Config.dmemFill m a

/-- Store one byte of DMEM. -/
def writeByte (m : Dmem) (a : Nat) (b : Byte) : Dmem := cellsWrite Config.dmemFill m a b

/-- One word of IMEM (10_state.md R39). -/
def readWord (m : Imem) (i : Nat) : Word := cellsRead Config.imemFill m i

/-- Store one word of IMEM: the host's alone (20_memory.md R60, R71). -/
def writeWord (m : Imem) (i : Nat) (w : Word) : Imem := cellsWrite Config.imemFill m i w

/-- `MemRead(a, n)` of 00_scope.md R9, the bounds test apart: n bytes, lowest address first. -/
def readBytes (m : Dmem) (a : Nat) : Nat → List Byte
  | 0 => []
  | n + 1 => readByte m a :: readBytes m (a + 1) n

/-- `MemWrite(a, n, bs)` of 00_scope.md R9, the bounds test apart. -/
def writeBytes (m : Dmem) (a : Nat) : List Byte → Dmem
  | [] => m
  | b :: bs => writeBytes (writeByte m a b) (a + 1) bs

/-! ### Big-endian byte strings (00_scope.md R7, 20_memory.md R61) -/

/-- `BE_n(v)`: the low n bytes of v, most significant first. -/
def beBytes : Nat → Nat → List Byte
  | 0, _ => []
  | n + 1, v => beBytes n (v / 256) ++ [BitVec.ofNat 8 v]

/-- `int(b)` with the bytes read so far in `acc`. -/
def beIntFrom (acc : Nat) : List Byte → Nat
  | [] => acc
  | b :: bs => beIntFrom (acc * 256 + b.toNat) bs

/-- `int(b)`: the unsigned big-endian integer a byte string spells. -/
def beInt (bs : List Byte) : Nat := beIntFrom 0 bs

/-! ### Bit scans (00_scope.md R7)

The four loops of the spec that scan an exponent or a scalar from its least significant bit (41_fp.md R126, 44_fp12.md R195,
45_g1.md R207, 46_g2.md R227) are one loop. -/

/-- `bitlen(e)`. -/
def bitlen (e : Nat) : Nat := if e = 0 then 0 else Nat.log2 e + 1

/-- `n` rounds over the bits of `e`, least significant first: where the bit is set combine the base into the accumulator,
then step the base. -/
def scanLsb {α : Type} (comb : α → α → α) (dbl : α → α) : Nat → Nat → α → α → α
  | 0, _, acc, _ => acc
  | n + 1, e, acc, base => scanLsb comb dbl n (e / 2) (if e % 2 = 1 then comb acc base else acc) (dbl base)

/-- The whole scan: `for i = 0 .. bitlen(e) − 1`. -/
def scanBits {α : Type} (comb : α → α → α) (dbl : α → α) (unit base : α) (e : Nat) : α :=
  scanLsb comb dbl (bitlen e) e unit base

/-! ### Register files (10_state.md section 2) -/

/-- One of the seven register files: how to read and how to replace it in a state. -/
structure File (α : Type) where
  get : State → RegFile α
  put : State → RegFile α → State

def fileF : File Fp := ⟨fun s => s.F, fun s r => { s with F := r }⟩
def fileQ : File Fp2 := ⟨fun s => s.Q, fun s r => { s with Q := r }⟩
def fileS : File Fp6 := ⟨fun s => s.S, fun s r => { s with S := r }⟩
def fileD : File Fp12 := ⟨fun s => s.D, fun s r => { s with D := r }⟩
def fileP : File G1pt := ⟨fun s => s.P, fun s r => { s with P := r }⟩
def fileW : File G2pt := ⟨fun s => s.W, fun s r => { s with W := r }⟩
def fileK : File KInt := ⟨fun s => s.K, fun s r => { s with K := r }⟩

/-- A register's value; `none` where its valid bit is clear (10_state.md R27). -/
def readReg {α : Type} (fl : File α) (s : State) (i : RegIdx) : Option α := (fl.get s)[i]

/-- Write a register and set its valid bit (10_state.md R27). -/
def writeReg {α : Type} (fl : File α) (s : State) (i : RegIdx) (v : α) : State :=
  fl.put s ((fl.get s).set i (some v))

/-! ### Moving on -/

/-- `pc <- pc + 1` (10_state.md R29). -/
def advance (s : State) : State := { s with pc := s.pc + 1 }

/-- `pc <- target` (10_state.md R29). -/
def jumpTo (target : BitVec 16) (s : State) : State := { s with pc := target }

/-- `state <- HALT`; `pc` keeps the index of the `HALT` (40_control.md R102). -/
def halted (s : State) : State := { s with run := .halt }

/-- Complete a command that writes one register (40_control.md R100 step 6). -/
def finishReg {α : Type} (fl : File α) (rd : RegIdx) (v : α) (s : State) : Result :=
  .next (advance (writeReg fl s rd v))

/-! ### Faults, and the host's way back (60_exceptions.md R290, R293) -/

/-- Fault entry: exactly the writes of R290. -/
def faulted (c : Cause) (v : BitVec 32) (s : State) : State :=
  { s with cause := c, epc := s.pc, info := v, run := .fault }

/-- `raise c(v)`: the command ends with the fault record and nothing else (00_scope.md R9, 60_exceptions.md R290). -/
def raiseFault (c : Cause) (v : BitVec 32) (s : State) : Result := .next (faulted c v s)

/-- An accepted CLR: `state <- IDLE`, nothing else (10_state.md R38). -/
def acknowledge (s : State) : State := { s with run := .idle }

/-- An accepted GO (10_state.md R38, 70_reset_and_hazards.md R313). -/
def launch (s : State) : State :=
  { s with pc := s.entry, cause := .noFault, epc := 0, info := 0, run := .run }

end Sys2Proof.Machine
end

