-- ==== Sys2Proof/Machine/Codec.lean ====
section
/-! DEFINITION. The wire encodings (48_codec.md): fixed width, big-endian, 32 bytes a field; an Fp2 value is its a-component,
then its b-component (R260). -/

namespace Sys2Proof.Machine

/-- A field: `BE_32(v)` (R260). -/
def encFp (v : Fp) : List Byte := beBytes 32 v.val

/-- An Fp2 value, 64 bytes (R260). -/
def encFp2 (x : Fp2) : List Byte := encFp x.a ++ encFp x.b

/-- `enc_g1`, 64 bytes (R261). -/
def encG1 (A : G1pt) : List Byte := encFp A.X ++ encFp A.Y

/-- `enc_g2`, 128 bytes (R263). -/
def encG2 (A : G2pt) : List Byte := encFp2 A.X ++ encFp2 A.Y

/-- Three Fp2 values, 192 bytes: c0, c1, c2 (R265). -/
def encFp6 (x : Fp6) : List Byte := encFp2 x.c0 ++ encFp2 x.c1 ++ encFp2 x.c2

/-- `enc_gt`, 384 bytes: c0.c0, c0.c1, c0.c2, c1.c0, c1.c1, c1.c2 (R265). -/
def encGt (x : Fp12) : List Byte := encFp6 x.c0 ++ encFp6 x.c1

end Sys2Proof.Machine
end

