-- ==== Sys2Proof/Machine/Fp.lean ====
section
/-! DEFINITION. The base field Fp (41_fp.md): every function returns the canonical representative of the exact integer
result (R120). How a product is reduced is not architectural (R131); here it is `mod p` on integers. -/

namespace Sys2Proof.Machine

/-- `n mod p` (00_scope.md R7). -/
def fpOfNat (n : Nat) : Fp := ⟨n % primeP, Nat.mod_lt n primeP_pos⟩

/-- `fp_add(a, b) = (a + b) mod p` (R121). -/
def fpAdd (a b : Fp) : Fp := fpOfNat (a.val + b.val)

/-- `fp_sub(a, b) = (a − b) mod p` (R122); b ≤ p, so the natural subtraction is exact. -/
def fpSub (a b : Fp) : Fp := fpOfNat (a.val + (primeP - b.val))

/-- `fp_mul(a, b) = (a · b) mod p` (R123). -/
def fpMul (a b : Fp) : Fp := fpOfNat (a.val * b.val)

/-- `fp_sqr(a) = (a · a) mod p` (R124). -/
def fpSqr (a : Fp) : Fp := fpOfNat (a.val * a.val)

/-- `fp_neg(a) = (0 − a) mod p`: 0 at 0 (R125). -/
def fpNeg (a : Fp) : Fp := fpOfNat (primeP - a.val)

/-- `a^e mod p` by squaring (R126 accepts any exponentiation by squaring; log 12). -/
def fpPow (a : Fp) (e : Nat) : Fp := scanBits fpMul fpSqr (fpOfNat 1) a e

/-- `fp_inv(a) = a^(p−2) mod p`: 0 at 0 (R126). -/
def fpInv (a : Fp) : Fp := fpPow a (primeP - 2)

end Sys2Proof.Machine
end

