-- ==== Sys2Proof/Machine/Operands.lean ====
section
/-! DEFINITION. Operands: the source registers of a command in the order of 40_control.md R100 step (4), the operand shapes
the families share, and the DMEM operand of the nine commands of 48_codec.md. `w` is the command's own word, which
`UninitRegister` records (60_exceptions.md R285); a meaning takes it from the encoder (log 10). -/

namespace Sys2Proof.Machine

/-- Continue with a source register's value, or raise `UninitRegister(w)` (10_state.md R27, 60_exceptions.md R285). -/
def withReg {α : Type} (fl : File α) (w : Word) (i : RegIdx) (s : State) (k : α → Result) : Result :=
  match readReg fl s i with
  | some v => k v
  | none => raiseFault .uninitRegister w s

/-! ### Operand shapes of the register commands -/

/-- One source, one destination. -/
def op1 {α γ : Type} (src : File α) (dst : File γ) (w : Word) (rd ra : RegIdx) (f : α → γ) (s : State) : Result :=
  withReg src w ra s fun a => finishReg dst rd (f a) s

/-- Two sources, one destination; `ra` is tested before `rb`. -/
def op2 {α β γ : Type} (srcA : File α) (srcB : File β) (dst : File γ) (w : Word) (rd ra rb : RegIdx) (f : α → β → γ)
    (s : State) : Result :=
  withReg srcA w ra s fun a => withReg srcB w rb s fun b => finishReg dst rd (f a b) s

/-- Three sources, one destination; tested in the order `ra`, `rb`, `rc`. -/
def op3 {α β δ γ : Type} (srcA : File α) (srcB : File β) (srcC : File δ) (dst : File γ) (w : Word)
    (rd ra rb rc : RegIdx) (f : α → β → δ → γ) (s : State) : Result :=
  withReg srcA w ra s fun a => withReg srcB w rb s fun b => withReg srcC w rc s fun c =>
    finishReg dst rd (f a b c) s

/-- Two coordinates that must satisfy a curve equation, else `InvalidPoint(w)` (60_exceptions.md R281). -/
def opNew {α γ : Type} (src : File α) (dst : File γ) (w : Word) (rd ra rb : RegIdx) (onCurve : α → α → Bool)
    (mk : α → α → γ) (s : State) : Result :=
  withReg src w ra s fun x => withReg src w rb s fun y =>
    if onCurve x y then finishReg dst rd (mk x y) s else raiseFault .invalidPoint w s

/-- The pairs (P0, W0) .. (P(n−1), W(n−1)), read in the order P0, W0, P1, W1, ...; `none` at the first register whose valid
bit is clear (47_pairing.md R246, 40_control.md R100). -/
def readPairs (s : State) : List RegIdx → Option (List (G1pt × G2pt))
  | [] => some []
  | i :: is =>
    match readReg fileP s i with
    | none => none
    | some a =>
      match readReg fileW s i with
      | none => none
      | some b =>
        match readPairs s is with
        | none => none
        | some l => some ((a, b) :: l)

/-- The indices 0 .. n−1 that `PCHK n` names. -/
def pairRegs (n : Nat) : List RegIdx := [0, 1, 2, 3, 4, 5, 6, 7].take n

/-- Continue with the pairs of `PCHK n`, or raise `UninitRegister(w)`. -/
def withPairs (w : Word) (n : Nat) (s : State) (k : List (G1pt × G2pt) → Result) : Result :=
  match readPairs s (pairRegs n) with
  | some l => k l
  | none => raiseFault .uninitRegister w s

/-! ### The DMEM operand (20_memory.md R62, 48_codec.md R260, R270) -/

/-- Continue where the n bytes at `addr` lie inside DMEM, else raise `DmemAccessFault(addr)` before any byte moves
(20_memory.md R62, 60_exceptions.md R286). -/
def withAccess (addr : Addr) (n : Nat) (s : State) (k : Result) : Result :=
  if addr.toNat + n > Config.DMEM_BYTES then raiseFault .dmemAccessFault (addr.setWidth 32) s else k

/-- Continue where the length operand of a decode is the fixed size, else raise `InvalidEncoding(len)` (60_exceptions.md
R282). -/
def withLength (len : BitVec 9) (n : Nat) (s : State) (k : Result) : Result :=
  if len.toNat = n then k else raiseFault .invalidEncoding (len.setWidth 32) s

/-- The integer the 32-byte field at `a` spells (48_codec.md R260). -/
def fieldInt (m : Dmem) (a : Nat) : Nat := beInt (readBytes m a 32)

/-- `field(a)`: continue with the Fp value the 32 bytes at `a` spell, or raise `InvalidEncoding(a)` where they spell p or
more (48_codec.md R260). -/
def withField (a : Nat) (s : State) (k : Fp → Result) : Result :=
  if h : fieldInt s.dmem a < primeP then k ⟨fieldInt s.dmem a, h⟩
  else raiseFault .invalidEncoding (BitVec.ofNat 32 a) s

/-- An Fp2 value: its a-component first, then its b-component (48_codec.md R260). -/
def withField2 (a : Nat) (s : State) (k : Fp2 → Result) : Result :=
  withField a s fun x => withField (a + 32) s fun y => k ⟨x, y⟩

/-- An Fp6 value: c0, c1, c2 (48_codec.md R265, R266). -/
def withField6 (a : Nat) (s : State) (k : Fp6 → Result) : Result :=
  withField2 a s fun x => withField2 (a + 64) s fun y => withField2 (a + 128) s fun z => k ⟨x, y, z⟩

/-- Complete a command that stores a byte string (40_control.md R100 step 6). -/
def finishStore (addr : Addr) (bs : List Byte) (s : State) : Result :=
  .next (advance { s with dmem := writeBytes s.dmem addr.toNat bs })

/-- A store of a register's n-byte encoding: the register is tested before the bounds (48_codec.md R270). -/
def opStore {α : Type} (src : File α) (w : Word) (r : RegIdx) (addr : Addr) (n : Nat) (enc : α → List Byte)
    (s : State) : Result :=
  withReg src w r s fun v => withAccess addr n s (finishStore addr (enc v) s)

end Sys2Proof.Machine
end

