-- ==== Sys2Proof/Machine/Fp2.lean ====
section
/-! DEFINITION. The quadratic extension Fp2 = Fp[u]/(u² + 1) (42_fp2.md). -/

namespace Sys2Proof.Machine

/-- The Fp2 element of two integers, each mod p. -/
def fp2OfNat (a b : Nat) : Fp2 := ⟨fpOfNat a, fpOfNat b⟩

/-- (0, 0) (R140). -/
def fp2Zero : Fp2 := fp2OfNat 0 0
/-- (1, 0) (R140). -/
def fp2One : Fp2 := fp2OfNat 1 0
/-- The embedding a ↦ (a, 0) of the base field (R140). -/
def fp2OfFp (a : Fp) : Fp2 := ⟨a, fpOfNat 0⟩

/-- `fp2_add` (R141). -/
def fp2Add (x y : Fp2) : Fp2 := ⟨fpAdd x.a y.a, fpAdd x.b y.b⟩

/-- `fp2_sub` (R142). -/
def fp2Sub (x y : Fp2) : Fp2 := ⟨fpSub x.a y.a, fpSub x.b y.b⟩

/-- `fp2_neg` (R145). -/
def fp2Neg (x : Fp2) : Fp2 := ⟨fpNeg x.a, fpNeg x.b⟩

/-- The two components of the Karatsuba product from ac, bd and (a+b)(c+d) (R143). -/
def fp2Karatsuba (ac bd k : Fp) : Fp2 := ⟨fpSub ac bd, fpSub (fpSub k ac) bd⟩

/-- `fp2_mul` by the 3-multiplication identity (R143). -/
def fp2Mul (x y : Fp2) : Fp2 :=
  fp2Karatsuba (fpMul x.a y.a) (fpMul x.b y.b) (fpMul (fpAdd x.a x.b) (fpAdd y.a y.b))

/-- `fp2_sqr` = (a² − b², 2ab) (R144). -/
def fp2Sqr (x : Fp2) : Fp2 :=
  ⟨fpSub (fpSqr x.a) (fpSqr x.b), fpMul (fpOfNat 2) (fpMul x.a x.b)⟩

/-- (a·n, (−b)·n): the conjugate scaled (R146). -/
def fp2ConjScale (x : Fp2) (n : Fp) : Fp2 := ⟨fpMul x.a n, fpMul (fpNeg x.b) n⟩

/-- `fp2_inv` = (a − bu)/(a² + b²): (0, 0) at (0, 0) (R146). -/
def fp2Inv (x : Fp2) : Fp2 := fp2ConjScale x (fpInv (fpAdd (fpSqr x.a) (fpSqr x.b)))

/-- `fp2_mnr`, `scaleByNonResidue`: (9a − b, a + 9b) (R150). -/
def fp2Mnr (x : Fp2) : Fp2 :=
  ⟨fpSub (fpMul (fpOfNat 9) x.a) x.b, fpAdd x.a (fpMul (fpOfNat 9) x.b)⟩

end Sys2Proof.Machine
end

