-- ==== Sys2Proof/Machine/Fp6.lean ====
section
/-! DEFINITION. The sextic extension Fp6 = Fp2[v]/(v³ − (9 + u)) (43_fp6.md). -/

namespace Sys2Proof.Machine

/-- `Fp6_0` (R160). -/
def fp6Zero : Fp6 := ⟨fp2Zero, fp2Zero, fp2Zero⟩
/-- `Fp6_1` (R160). -/
def fp6One : Fp6 := ⟨fp2One, fp2Zero, fp2Zero⟩

/-- `fp6_add` (R161). -/
def fp6Add (x y : Fp6) : Fp6 := ⟨fp2Add x.c0 y.c0, fp2Add x.c1 y.c1, fp2Add x.c2 y.c2⟩

/-- `fp6_sub` (R162). -/
def fp6Sub (x y : Fp6) : Fp6 := ⟨fp2Sub x.c0 y.c0, fp2Sub x.c1 y.c1, fp2Sub x.c2 y.c2⟩

/-- `fp6_neg` (R165). -/
def fp6Neg (x : Fp6) : Fp6 := ⟨fp2Neg x.c0, fp2Neg x.c1, fp2Neg x.c2⟩

/-- (a+b)(c+d) − ac − bd with ac and bd given: the cross term of R163. -/
def fp2Cross (a b c d ac bd : Fp2) : Fp2 := fp2Sub (fp2Sub (fp2Mul (fp2Add a b) (fp2Add c d)) ac) bd

/-- The three coefficients of R163 from v0 = c0d0, v1 = c1d1, v2 = c2d2. -/
def fp6MulWith (x y : Fp6) (v0 v1 v2 : Fp2) : Fp6 :=
  ⟨fp2Add v0 (fp2Mnr (fp2Cross x.c1 x.c2 y.c1 y.c2 v1 v2)),
   fp2Add (fp2Mnr v2) (fp2Cross x.c0 x.c1 y.c0 y.c1 v0 v1),
   fp2Add (fp2Cross x.c0 x.c2 y.c0 y.c2 v0 v2) v1⟩

/-- `fp6_mul` (R163). -/
def fp6Mul (x y : Fp6) : Fp6 :=
  fp6MulWith x y (fp2Mul x.c0 y.c0) (fp2Mul x.c1 y.c1) (fp2Mul x.c2 y.c2)

/-- `fp6_sqr(x) = fp6_mul(x, x)` (R164). -/
def fp6Sqr (x : Fp6) : Fp6 := fp6Mul x x

/-- `fp6_mulv`: multiply by v, (ξ·c2, c0, c1) (R170). -/
def fp6MulV (x : Fp6) : Fp6 := ⟨fp2Mnr x.c2, x.c0, x.c1⟩

/-- Cofactor A = c0² − ξ·c1·c2 (R166). -/
def fp6CofA (x : Fp6) : Fp2 := fp2Sub (fp2Sqr x.c0) (fp2Mnr (fp2Mul x.c1 x.c2))
/-- Cofactor B = ξ·c2² − c0·c1 (R166). -/
def fp6CofB (x : Fp6) : Fp2 := fp2Sub (fp2Mnr (fp2Sqr x.c2)) (fp2Mul x.c0 x.c1)
/-- Cofactor C = c1² − c0·c2 (R166). -/
def fp6CofC (x : Fp6) : Fp2 := fp2Sub (fp2Sqr x.c1) (fp2Mul x.c0 x.c2)

/-- The norm F = c0·A + ξ·(c2·B + c1·C), in Fp2 (R166). -/
def fp6Norm (x : Fp6) : Fp2 :=
  fp2Add (fp2Mul x.c0 (fp6CofA x)) (fp2Mnr (fp2Add (fp2Mul x.c2 (fp6CofB x)) (fp2Mul x.c1 (fp6CofC x))))

/-- The three cofactors scaled (R166). -/
def fp6CofScale (x : Fp6) (n : Fp2) : Fp6 :=
  ⟨fp2Mul (fp6CofA x) n, fp2Mul (fp6CofB x) n, fp2Mul (fp6CofC x) n⟩

/-- `fp6_inv`: `Fp6_0` at `Fp6_0` (R166). -/
def fp6Inv (x : Fp6) : Fp6 := fp6CofScale x (fp2Inv (fp6Norm x))

end Sys2Proof.Machine
end

