-- ==== Sys2Proof/Machine/Fp12.lean ====
section
/-! DEFINITION. The dodecic extension Fp12 = Fp6[w]/(w² − v) (44_fp12.md). A GT element is an Fp12 value without a tag
(R196). -/

namespace Sys2Proof.Machine

/-- `Fp12_0` (R180). -/
def fp12Zero : Fp12 := ⟨fp6Zero, fp6Zero⟩
/-- `Fp12_1`, the multiplicative identity (R180). -/
def fp12One : Fp12 := ⟨fp6One, fp6Zero⟩

/-- `fp12_add` (R181). -/
def fp12Add (x y : Fp12) : Fp12 := ⟨fp6Add x.c0 y.c0, fp6Add x.c1 y.c1⟩

/-- `fp12_sub` (R182). -/
def fp12Sub (x y : Fp12) : Fp12 := ⟨fp6Sub x.c0 y.c0, fp6Sub x.c1 y.c1⟩

/-- `fp12_neg` (R185). -/
def fp12Neg (x : Fp12) : Fp12 := ⟨fp6Neg x.c0, fp6Neg x.c1⟩

/-- The two coefficients of R183 from ac and bd. -/
def fp12MulWith (x y : Fp12) (ac bd : Fp6) : Fp12 :=
  ⟨fp6Add ac (fp6MulV bd),
   fp6Sub (fp6Sub (fp6Mul (fp6Add x.c0 x.c1) (fp6Add y.c0 y.c1)) ac) bd⟩

/-- `fp12_mul` (R183). -/
def fp12Mul (x y : Fp12) : Fp12 := fp12MulWith x y (fp6Mul x.c0 y.c0) (fp6Mul x.c1 y.c1)

/-- `fp12_sqr(x) = fp12_mul(x, x)` (R184). -/
def fp12Sqr (x : Fp12) : Fp12 := fp12Mul x x

/-- `fp12_conj`: negate the w-coefficient (R190). -/
def fp12Conj (x : Fp12) : Fp12 := ⟨x.c0, fp6Neg x.c1⟩

/-- The norm a² − v·b², in Fp6 (R186). -/
def fp12Norm (x : Fp12) : Fp6 := fp6Sub (fp6Sqr x.c0) (fp6MulV (fp6Sqr x.c1))

/-- (a·n, (−b)·n) (R186). -/
def fp12ConjScale (x : Fp12) (n : Fp6) : Fp12 := ⟨fp6Mul x.c0 n, fp6Mul (fp6Neg x.c1) n⟩

/-- `fp12_inv`: `Fp12_0` at `Fp12_0` (R186). -/
def fp12Inv (x : Fp12) : Fp12 := fp12ConjScale x (fp6Inv (fp12Norm x))

/-- `fp12_exp`: least significant bit first, multiply before squaring the base (R195). -/
def fp12Exp (f : Fp12) (e : Nat) : Fp12 := scanBits fp12Mul fp12Sqr fp12One f e

end Sys2Proof.Machine
end

