-- ==== Sys2Proof/Machine/Constants.lean ====
section
/-! DEFINITION. The curve constants of 00_scope.md R5, hardwired and read-only (70_reset_and_hazards.md R321); `p` is
`primeP` in Word.lean. -/

namespace Sys2Proof.Machine

/-- `t`, the seed (00_scope.md R5). -/
def seedT : Nat := 4965661367192848881

/-- `r`, the group order (00_scope.md R5). -/
def orderR : Nat := 0x30644e72e131a029b85045b68181585d2833e84879b9709143e1f593f0000001

/-- `LOOP` = 6t + 2, 65 bits (47_pairing.md R240). -/
def loopParam : Nat := 6 * seedT + 2

/-- `HARD_EXP` = (p¹² − 1)/r, 2790 bits (47_pairing.md R240). -/
def hardExp : Nat := (primeP ^ 12 - 1) / orderR

/-- `B1` (00_scope.md R5). -/
def coeffB1 : Fp := fpOfNat 3

/-- `XI` = 9 + u (00_scope.md R5). -/
def xi : Fp2 := fp2OfNat 9 1

/-- `B2` = 3/(9 + u), by its numerals (00_scope.md R5); that they are the quotient is `coeffB2_eq` in Laws/Tower.lean. -/
def coeffB2 : Fp2 :=
  fp2OfNat 0x2b149d40ceb8aaae81be18991be06ac3b5b4c5e559dbefa33267e6dc24a138e5
    0x009713b03af0fed4cd2cafadeed8fdf4a74fa084e52d1852e4a2bd0685c315d2

/-- `G1GEN` (00_scope.md R5). -/
def g1Generator : G1pt := ⟨fpOfNat 1, fpOfNat 2⟩

/-- `G2GEN` (00_scope.md R5). -/
def g2Generator : G2pt where
  X := fp2OfNat 0x1800deef121f1e76426a00665e5c4479674322d4f75edadd46debd5cd992f6ed
    0x198e9393920d483a7260bfb731fb5d25f1aa493335a9e71297e485b7aef312c2
  Y := fp2OfNat 0x12c85ea5db8c6deb4aab71808dcb408fe3d1e7690c43d37b4ce6cc0166fa7daa
    0x090689d0585ff075ec9e99ad690c3395bc4b313370b38ef355acdadcd122975b

end Sys2Proof.Machine
end

