-- ==== Sys2Proof/Machine/G1.lean ====
section
/-! DEFINITION. The curve group G1: affine points over Fp, y² = x³ + 3, (0, 0) for infinity (45_g1.md). -/

namespace Sys2Proof.Machine

/-- Infinity, the sentinel (0, 0) (R200). -/
def g1Infinity : G1pt := ⟨fpOfNat 0, fpOfNat 0⟩

/-- `g1_isinf` (R200). -/
def g1IsInf (A : G1pt) : Bool := decide (A = g1Infinity)

/-- `g1_oncurve` (R200). -/
def g1OnCurve (A : G1pt) : Bool :=
  decide (fpSqr A.Y = fpAdd (fpMul (fpSqr A.X) A.X) coeffB1)

/-- The third point of a line of slope `lam` through `A`, the other abscissa being `x2`: x3 = λ² − x1 − x2,
y3 = λ(x1 − x3) − y1 (R204, R205). -/
def g1Third (lam : Fp) (A : G1pt) (x2 : Fp) : G1pt :=
  let x3 := fpSub (fpSub (fpSqr lam) A.X) x2
  ⟨x3, fpSub (fpMul lam (fpSub A.X x3)) A.Y⟩

/-- The tangent slope 3x1²/(2y1) (R205). -/
def g1Tangent (A : G1pt) : Fp :=
  fpMul (fpMul (fpOfNat 3) (fpSqr A.X)) (fpInv (fpMul (fpOfNat 2) A.Y))

/-- The chord slope (y2 − y1)/(x2 − x1) (R204). -/
def g1Chord (A B : G1pt) : Fp := fpMul (fpSub B.Y A.Y) (fpInv (fpSub B.X A.X))

/-- `g1_dbl`: the tangent formula with no test (R205). -/
def g1Dbl (A : G1pt) : G1pt := g1Third (g1Tangent A) A A.X

/-- `g1_add`: the tests in the order of R204. -/
def g1Add (A B : G1pt) : G1pt :=
  if g1IsInf A then B
  else if g1IsInf B then A
  else if A.X = B.X then (if A.Y = B.Y then g1Dbl A else g1Infinity)
  else g1Third (g1Chord A B) A B.X

/-- `g1_neg` (R206). -/
def g1Neg (A : G1pt) : G1pt := ⟨A.X, fpNeg A.Y⟩

/-- `g1_smul`: double-and-add, least significant bit first (R207). -/
def g1Smul (A : G1pt) (k : Nat) : G1pt := scanBits g1Add g1Dbl g1Infinity A k

end Sys2Proof.Machine
end

