-- ==== Sys2Proof/Machine/G2.lean ====
section
/-! DEFINITION. The curve group G2: affine points over Fp2, y² = x³ + 3/(9+u), ((0,0), (0,0)) for infinity (46_g2.md). No
command tests the order-r subgroup (R220). -/

namespace Sys2Proof.Machine

/-- Infinity, the sentinel ((0,0), (0,0)) (R220). -/
def g2Infinity : G2pt := ⟨fp2Zero, fp2Zero⟩

/-- `g2_isinf` (R220). -/
def g2IsInf (A : G2pt) : Bool := decide (A = g2Infinity)

/-- `g2_oncurve` (R220). -/
def g2OnCurve (A : G2pt) : Bool :=
  decide (fp2Sqr A.Y = fp2Add (fp2Mul (fp2Sqr A.X) A.X) coeffB2)

/-- The third point of a line of slope `lam` through `A`, the other abscissa being `x2` (R224, R225). -/
def g2Third (lam : Fp2) (A : G2pt) (x2 : Fp2) : G2pt :=
  let x3 := fp2Sub (fp2Sub (fp2Sqr lam) A.X) x2
  ⟨x3, fp2Sub (fp2Mul lam (fp2Sub A.X x3)) A.Y⟩

/-- The tangent slope 3x1²/(2y1) (R225). -/
def g2Tangent (A : G2pt) : Fp2 :=
  fp2Mul (fp2Mul (fp2OfNat 3 0) (fp2Sqr A.X)) (fp2Inv (fp2Mul (fp2OfNat 2 0) A.Y))

/-- The chord slope (y2 − y1)/(x2 − x1) (R224). -/
def g2Chord (A B : G2pt) : Fp2 := fp2Mul (fp2Sub B.Y A.Y) (fp2Inv (fp2Sub B.X A.X))

/-- `g2_dbl`: the tangent formula with no test (R225). -/
def g2Dbl (A : G2pt) : G2pt := g2Third (g2Tangent A) A A.X

/-- `g2_add`: the tests in the order of R224. -/
def g2Add (A B : G2pt) : G2pt :=
  if g2IsInf A then B
  else if g2IsInf B then A
  else if A.X = B.X then (if A.Y = B.Y then g2Dbl A else g2Infinity)
  else g2Third (g2Chord A B) A B.X

/-- `g2_neg` (R226). -/
def g2Neg (A : G2pt) : G2pt := ⟨A.X, fp2Neg A.Y⟩

/-- `g2_smul`: double-and-add, least significant bit first (R227). -/
def g2Smul (A : G2pt) (k : Nat) : G2pt := scanBits g2Add g2Dbl g2Infinity A k

end Sys2Proof.Machine
end

