-- ==== Sys2Proof/Machine/Pairing.lean ====
section
/-! DEFINITION. The pairing engine (47_pairing.md), step by step as the spec words it: `A` is the G1 operand, `B` the G2
operand, `R` the running G2 point (00_scope.md R11). Nothing is repaired: that the final exponentiation maps every non-zero
input to one (R248) is a theorem about these definitions, not an assumption in them. -/

namespace Sys2Proof.Machine

/-- `embed(c, m, y)`: c at c0.c0, m at c1.c0, y at c1.c1 (47_pairing.md section 2). -/
def lineEmbed (c m y : Fp2) : Fp12 := ⟨⟨c, fp2Zero, fp2Zero⟩, ⟨m, y, fp2Zero⟩⟩

/-- The line of slope `lam` through `R`, evaluated at `A` (R241, R242). -/
def lineAt (lam : Fp2) (R : G2pt) (A : G1pt) : Fp12 :=
  lineEmbed (fp2Sub (fp2Mul lam R.X) R.Y) (fp2Neg (fp2Mul lam (fp2OfFp A.X))) (fp2OfFp A.Y)

/-- `line_dbl` (R241): the tangent at R; one where R is infinity. -/
def lineDbl (R : G2pt) (A : G1pt) : Fp12 :=
  if g2IsInf R then fp12One else lineAt (g2Tangent R) R A

/-- `line_add` (R242): the chord through R and B; one where R is infinity; no other test. -/
def lineAdd (R B : G2pt) (A : G1pt) : Fp12 :=
  if g2IsInf R then fp12One else lineAt (g2Chord R B) R A

/-- The rounds i = n−1 .. 0 of the Miller loop from running point `R` and value `f` (R243): the line is evaluated at R before
R is updated. -/
def millerRounds (A : G1pt) (B : G2pt) : Nat → G2pt → Fp12 → Fp12
  | 0, _, f => f
  | i + 1, R, f =>
    let f1 := fp12Mul (fp12Sqr f) (lineDbl R A)
    let R1 := g2Dbl R
    if Nat.testBit loopParam i then millerRounds A B i (g2Add R1 B) (fp12Mul f1 (lineAdd R1 B A))
    else millerRounds A B i R1 f1

/-- `miller` (R243). -/
def miller (A : G1pt) (B : G2pt) : Fp12 :=
  if g1IsInf A || g2IsInf B then fp12One
  else millerRounds A B (bitlen loopParam - 1) B fp12One

/-- Easy part, first step: t0 = conj(f)·f⁻¹ (R244). -/
def finalEasy1 (f : Fp12) : Fp12 := fp12Mul (fp12Conj f) (fp12Inv f)

/-- The step the source calls Frobenius-squared: t1 = conj(t0)·t0 (R244). -/
def finalEasy2 (t0 : Fp12) : Fp12 := fp12Mul (fp12Conj t0) t0

/-- `final_exp` (R244). -/
def finalExp (f : Fp12) : Fp12 := fp12Exp (finalEasy2 (finalEasy1 f)) hardExp

/-- `pair(A, B) = final_exp(miller(A, B))` (R245). -/
def pairing (A : G1pt) (B : G2pt) : Fp12 := finalExp (miller A B)

/-- The product of the Miller values of a list of pairs, in order, from `acc` (R246). -/
def millerProduct (acc : Fp12) : List (G1pt × G2pt) → Fp12
  | [] => acc
  | (A, B) :: l => millerProduct (fp12Mul acc (miller A B)) l

/-- `pairing_check` (R246). -/
def pairingCheck (l : List (G1pt × G2pt)) : Bool :=
  decide (finalExp (millerProduct fp12One l) = fp12One)

end Sys2Proof.Machine
end

