-- ==== Sys2Proof/Machine/ExecCodec.lean ====
section
/-! DEFINITION. The meanings of the codec and memory commands; each makes its tests in the order of R270 (48_codec.md). -/

namespace Sys2Proof.Machine

/-- `G1.ENC [addr], Ps` (R261). -/
def execG1Enc (r : RegIdx) (addr : Addr) (s : State) : Result :=
  opStore fileP (encode (.g1Enc r addr)) r addr 64 encG1 s

/-- `G1.DEC Pd, [addr], len` (R262). -/
def execG1Dec (r : RegIdx) (addr : Addr) (len : BitVec 9) (s : State) : Result :=
  withLength len 64 s <| withAccess addr 64 s <|
    withField addr.toNat s fun x => withField (addr.toNat + 32) s fun y =>
      if g1IsInf ⟨x, y⟩ || g1OnCurve ⟨x, y⟩ then finishReg fileP r ⟨x, y⟩ s
      else raiseFault .invalidPoint (addr.setWidth 32) s

/-- `G2.ENC [addr], Ws` (R263). -/
def execG2Enc (r : RegIdx) (addr : Addr) (s : State) : Result :=
  opStore fileW (encode (.g2Enc r addr)) r addr 128 encG2 s

/-- `G2.DEC Wd, [addr], len` (R264). -/
def execG2Dec (r : RegIdx) (addr : Addr) (len : BitVec 9) (s : State) : Result :=
  withLength len 128 s <| withAccess addr 128 s <|
    withField2 addr.toNat s fun x => withField2 (addr.toNat + 64) s fun y =>
      if g2IsInf ⟨x, y⟩ || g2OnCurve ⟨x, y⟩ then finishReg fileW r ⟨x, y⟩ s
      else raiseFault .invalidPoint (addr.setWidth 32) s

/-- `GT.ENC [addr], Ds` (R265). -/
def execGtEnc (r : RegIdx) (addr : Addr) (s : State) : Result :=
  opStore fileD (encode (.gtEnc r addr)) r addr 384 encGt s

/-- `GT.DEC Dd, [addr], len` (R266). -/
def execGtDec (r : RegIdx) (addr : Addr) (len : BitVec 9) (s : State) : Result :=
  withLength len 384 s <| withAccess addr 384 s <|
    withField6 addr.toNat s fun x => withField6 (addr.toNat + 192) s fun y => finishReg fileD r ⟨x, y⟩ s

/-- `F.LD Fd, [addr]` (R267). -/
def execFLd (r : RegIdx) (addr : Addr) (s : State) : Result :=
  withAccess addr 32 s <| withField addr.toNat s fun x => finishReg fileF r x s

/-- `F.ST [addr], Fs` (R268). -/
def execFSt (r : RegIdx) (addr : Addr) (s : State) : Result :=
  opStore fileF (encode (.fSt r addr)) r addr 32 encFp s

/-- `K.LD Kd, [addr], len` (R269). -/
def execKLd (r : RegIdx) (addr : Addr) (len : BitVec 9) (s : State) : Result :=
  if len.toNat ≤ Config.KBYTES then
    withAccess addr len.toNat s <|
      finishReg fileK r (BitVec.ofNat Config.KBITS (beInt (readBytes s.dmem addr.toNat len.toNat))) s
  else raiseFault .illegalInstruction (encode (.kLd r addr len)) s

end Sys2Proof.Machine
end

