-- ==== Sys2Proof/Machine/Flags.lean ====
section
/-! DEFINITION. The one flag, `T` (10_state.md R30): written by the test commands and by nothing else, read by `BT` and
`BF`. There is no carry, overflow, sign or zero flag. -/

namespace Sys2Proof.Machine

/-- Complete a command that writes `T` (10_state.md R30, 40_control.md R100 step 6). -/
def finishTest (b : Bool) (s : State) : Result := .next (advance { s with T := b })

/-- A test of one register. -/
def test1 {α : Type} (src : File α) (w : Word) (ra : RegIdx) (b : α → Bool) (s : State) : Result :=
  withReg src w ra s fun a => finishTest (b a) s

/-- A test of two registers; `ra` is read before `rb`. -/
def test2 {α : Type} (src : File α) (w : Word) (ra rb : RegIdx) (b : α → α → Bool) (s : State) : Result :=
  withReg src w ra s fun x => withReg src w rb s fun y => finishTest (b x y) s

/-- A branch: to `target` where the condition holds, else on (40_control.md R104, R105). -/
def branchIf (b : Bool) (target : BitVec 16) (s : State) : Result :=
  .next (if b then jumpTo target s else advance s)

end Sys2Proof.Machine
end

