-- ==== Sys2Proof/Machine/ExecControl.lean ====
section
/-! DEFINITION. The meanings of the control commands and the integer-register commands (40_control.md). -/

namespace Sys2Proof.Machine

/-- `NOP` (R101). -/
def execNop (s : State) : Result :=
  .next (advance s)

/-- `HALT` (R102). -/
def execHalt (s : State) : Result :=
  .next (halted s)

/-- `JMP target` (R103). -/
def execJmp (target : BitVec 16) (s : State) : Result :=
  .next (jumpTo target s)

/-- `BT target` (R104). -/
def execBt (target : BitVec 16) (s : State) : Result :=
  branchIf s.T target s

/-- `BF target` (R105). -/
def execBf (target : BitVec 16) (s : State) : Result :=
  branchIf (!s.T) target s

/-- `K.LI Kd, imm` (R106). -/
def execKLi (rd : RegIdx) (imm : BitVec 16) (s : State) : Result :=
  finishReg fileK rd (imm.setWidth Config.KBITS) s

/-- `K.MOV Kd, Ka` (R107). -/
def execKMov (rd ra : RegIdx) (s : State) : Result :=
  op1 fileK fileK (encode (.kMov rd ra)) rd ra id s

end Sys2Proof.Machine
end

