-- ==== Sys2Proof/Machine/ExecFp.lean ====
section
/-! DEFINITION. The meanings of the base-field commands (41_fp.md). -/

namespace Sys2Proof.Machine

/-- `F.ADD Fd, Fa, Fb` (R121). -/
def execFAdd (rd ra rb : RegIdx) (s : State) : Result :=
  op2 fileF fileF fileF (encode (.fAdd rd ra rb)) rd ra rb fpAdd s

/-- `F.SUB Fd, Fa, Fb` (R122). -/
def execFSub (rd ra rb : RegIdx) (s : State) : Result :=
  op2 fileF fileF fileF (encode (.fSub rd ra rb)) rd ra rb fpSub s

/-- `F.MUL Fd, Fa, Fb` (R123). -/
def execFMul (rd ra rb : RegIdx) (s : State) : Result :=
  op2 fileF fileF fileF (encode (.fMul rd ra rb)) rd ra rb fpMul s

/-- `F.SQR Fd, Fa` (R124). -/
def execFSqr (rd ra : RegIdx) (s : State) : Result :=
  op1 fileF fileF (encode (.fSqr rd ra)) rd ra fpSqr s

/-- `F.NEG Fd, Fa` (R125). -/
def execFNeg (rd ra : RegIdx) (s : State) : Result :=
  op1 fileF fileF (encode (.fNeg rd ra)) rd ra fpNeg s

/-- `F.INV Fd, Fa` (R126). -/
def execFInv (rd ra : RegIdx) (s : State) : Result :=
  op1 fileF fileF (encode (.fInv rd ra)) rd ra fpInv s

/-- `F.EQ Fa, Fb` (R127). -/
def execFEq (ra rb : RegIdx) (s : State) : Result :=
  test2 fileF (encode (.fEq ra rb)) ra rb (fun x y => decide (x = y)) s

/-- `F.ISZ Fa` (R128). -/
def execFIsZ (ra : RegIdx) (s : State) : Result :=
  test1 fileF (encode (.fIsZ ra)) ra (fun x => decide (x = fpOfNat 0)) s

/-- `F.MOV Fd, Fa` (R129). -/
def execFMov (rd ra : RegIdx) (s : State) : Result :=
  op1 fileF fileF (encode (.fMov rd ra)) rd ra id s

/-- `F.LI Fd, imm` (R130). -/
def execFLi (rd : RegIdx) (imm : BitVec 16) (s : State) : Result :=
  finishReg fileF rd (fpOfNat imm.toNat) s

end Sys2Proof.Machine
end

