-- ==== Sys2Proof/Machine/ExecFp12.lean ====
section
/-! DEFINITION. The meanings of the Fp12 commands, which are the GT commands too (R196) (44_fp12.md). -/

namespace Sys2Proof.Machine

/-- `D.ADD Dd, Da, Db` (R181). -/
def execDAdd (rd ra rb : RegIdx) (s : State) : Result :=
  op2 fileD fileD fileD (encode (.dAdd rd ra rb)) rd ra rb fp12Add s

/-- `D.SUB Dd, Da, Db` (R182). -/
def execDSub (rd ra rb : RegIdx) (s : State) : Result :=
  op2 fileD fileD fileD (encode (.dSub rd ra rb)) rd ra rb fp12Sub s

/-- `D.MUL Dd, Da, Db` (R183). -/
def execDMul (rd ra rb : RegIdx) (s : State) : Result :=
  op2 fileD fileD fileD (encode (.dMul rd ra rb)) rd ra rb fp12Mul s

/-- `D.SQR Dd, Da` (R184). -/
def execDSqr (rd ra : RegIdx) (s : State) : Result :=
  op1 fileD fileD (encode (.dSqr rd ra)) rd ra fp12Sqr s

/-- `D.NEG Dd, Da` (R185). -/
def execDNeg (rd ra : RegIdx) (s : State) : Result :=
  op1 fileD fileD (encode (.dNeg rd ra)) rd ra fp12Neg s

/-- `D.INV Dd, Da` (R186). -/
def execDInv (rd ra : RegIdx) (s : State) : Result :=
  op1 fileD fileD (encode (.dInv rd ra)) rd ra fp12Inv s

/-- `D.EQ Da, Db` (R187). -/
def execDEq (ra rb : RegIdx) (s : State) : Result :=
  test2 fileD (encode (.dEq ra rb)) ra rb (fun x y => decide (x = y)) s

/-- `D.ISZ Da` (R188). -/
def execDIsZ (ra : RegIdx) (s : State) : Result :=
  test1 fileD (encode (.dIsZ ra)) ra (fun x => decide (x = fp12Zero)) s

/-- `D.MOV Dd, Da` (R189). -/
def execDMov (rd ra : RegIdx) (s : State) : Result :=
  op1 fileD fileD (encode (.dMov rd ra)) rd ra id s

/-- `D.CONJ Dd, Da` (R190). -/
def execDConj (rd ra : RegIdx) (s : State) : Result :=
  op1 fileD fileD (encode (.dConj rd ra)) rd ra fp12Conj s

/-- `D.PACK Dd, Sa, Sb` (R191). -/
def execDPack (rd ra rb : RegIdx) (s : State) : Result :=
  op2 fileS fileS fileD (encode (.dPack rd ra rb)) rd ra rb Fp12.mk s

/-- `D.GET Sd, Da, sel` (R192). -/
def execDGet (rd ra : RegIdx) (sel : BitVec 6) (s : State) : Result :=
  if sel.toNat < 2 then op1 fileD fileS (encode (.dGet rd ra sel)) rd ra (fun x => if sel = 0 then x.c0 else x.c1) s
  else raiseFault .illegalInstruction (encode (.dGet rd ra sel)) s

/-- `D.ONE Dd` (R193). -/
def execDOne (rd : RegIdx) (s : State) : Result :=
  finishReg fileD rd fp12One s

/-- `D.ISONE Da` (R194). -/
def execDIsOne (ra : RegIdx) (s : State) : Result :=
  test1 fileD (encode (.dIsOne ra)) ra (fun x => decide (x = fp12One)) s

/-- `D.EXP Dd, Da, Kb` (R195). -/
def execDExp (rd ra rb : RegIdx) (s : State) : Result :=
  op2 fileD fileK fileD (encode (.dExp rd ra rb)) rd ra rb (fun x e => fp12Exp x e.toNat) s

end Sys2Proof.Machine
end

