-- ==== Sys2Proof/Machine/ExecFp2.lean ====
section
/-! DEFINITION. The meanings of the Fp2 commands (42_fp2.md). -/

namespace Sys2Proof.Machine

/-- `Q.ADD Qd, Qa, Qb` (R141). -/
def execQAdd (rd ra rb : RegIdx) (s : State) : Result :=
  op2 fileQ fileQ fileQ (encode (.qAdd rd ra rb)) rd ra rb fp2Add s

/-- `Q.SUB Qd, Qa, Qb` (R142). -/
def execQSub (rd ra rb : RegIdx) (s : State) : Result :=
  op2 fileQ fileQ fileQ (encode (.qSub rd ra rb)) rd ra rb fp2Sub s

/-- `Q.MUL Qd, Qa, Qb` (R143). -/
def execQMul (rd ra rb : RegIdx) (s : State) : Result :=
  op2 fileQ fileQ fileQ (encode (.qMul rd ra rb)) rd ra rb fp2Mul s

/-- `Q.SQR Qd, Qa` (R144). -/
def execQSqr (rd ra : RegIdx) (s : State) : Result :=
  op1 fileQ fileQ (encode (.qSqr rd ra)) rd ra fp2Sqr s

/-- `Q.NEG Qd, Qa` (R145). -/
def execQNeg (rd ra : RegIdx) (s : State) : Result :=
  op1 fileQ fileQ (encode (.qNeg rd ra)) rd ra fp2Neg s

/-- `Q.INV Qd, Qa` (R146). -/
def execQInv (rd ra : RegIdx) (s : State) : Result :=
  op1 fileQ fileQ (encode (.qInv rd ra)) rd ra fp2Inv s

/-- `Q.EQ Qa, Qb` (R147). -/
def execQEq (ra rb : RegIdx) (s : State) : Result :=
  test2 fileQ (encode (.qEq ra rb)) ra rb (fun x y => decide (x = y)) s

/-- `Q.ISZ Qa` (R148). -/
def execQIsZ (ra : RegIdx) (s : State) : Result :=
  test1 fileQ (encode (.qIsZ ra)) ra (fun x => decide (x = fp2Zero)) s

/-- `Q.MOV Qd, Qa` (R149). -/
def execQMov (rd ra : RegIdx) (s : State) : Result :=
  op1 fileQ fileQ (encode (.qMov rd ra)) rd ra id s

/-- `Q.MNR Qd, Qa` (R150). -/
def execQMnr (rd ra : RegIdx) (s : State) : Result :=
  op1 fileQ fileQ (encode (.qMnr rd ra)) rd ra fp2Mnr s

/-- `Q.PACK Qd, Fa, Fb` (R151). -/
def execQPack (rd ra rb : RegIdx) (s : State) : Result :=
  op2 fileF fileF fileQ (encode (.qPack rd ra rb)) rd ra rb Fp2.mk s

/-- `Q.GET Fd, Qa, sel` (R152). -/
def execQGet (rd ra : RegIdx) (sel : BitVec 6) (s : State) : Result :=
  if sel.toNat < 2 then op1 fileQ fileF (encode (.qGet rd ra sel)) rd ra (fun x => if sel = 0 then x.a else x.b) s
  else raiseFault .illegalInstruction (encode (.qGet rd ra sel)) s

end Sys2Proof.Machine
end

