-- ==== Sys2Proof/Machine/ExecFp6.lean ====
section
/-! DEFINITION. The meanings of the Fp6 commands (43_fp6.md). -/

namespace Sys2Proof.Machine

/-- `S.ADD Sd, Sa, Sb` (R161). -/
def execSAdd (rd ra rb : RegIdx) (s : State) : Result :=
  op2 fileS fileS fileS (encode (.sAdd rd ra rb)) rd ra rb fp6Add s

/-- `S.SUB Sd, Sa, Sb` (R162). -/
def execSSub (rd ra rb : RegIdx) (s : State) : Result :=
  op2 fileS fileS fileS (encode (.sSub rd ra rb)) rd ra rb fp6Sub s

/-- `S.MUL Sd, Sa, Sb` (R163). -/
def execSMul (rd ra rb : RegIdx) (s : State) : Result :=
  op2 fileS fileS fileS (encode (.sMul rd ra rb)) rd ra rb fp6Mul s

/-- `S.SQR Sd, Sa` (R164). -/
def execSSqr (rd ra : RegIdx) (s : State) : Result :=
  op1 fileS fileS (encode (.sSqr rd ra)) rd ra fp6Sqr s

/-- `S.NEG Sd, Sa` (R165). -/
def execSNeg (rd ra : RegIdx) (s : State) : Result :=
  op1 fileS fileS (encode (.sNeg rd ra)) rd ra fp6Neg s

/-- `S.INV Sd, Sa` (R166). -/
def execSInv (rd ra : RegIdx) (s : State) : Result :=
  op1 fileS fileS (encode (.sInv rd ra)) rd ra fp6Inv s

/-- `S.EQ Sa, Sb` (R167). -/
def execSEq (ra rb : RegIdx) (s : State) : Result :=
  test2 fileS (encode (.sEq ra rb)) ra rb (fun x y => decide (x = y)) s

/-- `S.ISZ Sa` (R168). -/
def execSIsZ (ra : RegIdx) (s : State) : Result :=
  test1 fileS (encode (.sIsZ ra)) ra (fun x => decide (x = fp6Zero)) s

/-- `S.MOV Sd, Sa` (R169). -/
def execSMov (rd ra : RegIdx) (s : State) : Result :=
  op1 fileS fileS (encode (.sMov rd ra)) rd ra id s

/-- `S.MULV Sd, Sa` (R170). -/
def execSMulV (rd ra : RegIdx) (s : State) : Result :=
  op1 fileS fileS (encode (.sMulV rd ra)) rd ra fp6MulV s

/-- `S.PACK Sd, Qa, Qb, Qc` (R171). -/
def execSPack (rd ra rb rc : RegIdx) (s : State) : Result :=
  op3 fileQ fileQ fileQ fileS (encode (.sPack rd ra rb rc)) rd ra rb rc Fp6.mk s

/-- `S.GET Qd, Sa, sel` (R172). -/
def execSGet (rd ra : RegIdx) (sel : BitVec 6) (s : State) : Result :=
  if sel.toNat < 3 then
    op1 fileS fileQ (encode (.sGet rd ra sel)) rd ra (fun x => if sel = 0 then x.c0 else if sel = 1 then x.c1 else x.c2) s
  else raiseFault .illegalInstruction (encode (.sGet rd ra sel)) s

end Sys2Proof.Machine
end

