-- ==== Sys2Proof/Machine/ExecG1.lean ====
section
/-! DEFINITION. The meanings of the G1 commands (45_g1.md). -/

namespace Sys2Proof.Machine

/-- `G1.NEW Pd, Fa, Fb` (R201). -/
def execG1New (rd ra rb : RegIdx) (s : State) : Result :=
  opNew fileF fileP (encode (.g1New rd ra rb)) rd ra rb (fun x y => g1OnCurve ⟨x, y⟩) G1pt.mk s

/-- `G1.INF Pd` (R202). -/
def execG1Inf (rd : RegIdx) (s : State) : Result :=
  finishReg fileP rd g1Infinity s

/-- `G1.GEN Pd` (R203). -/
def execG1Gen (rd : RegIdx) (s : State) : Result :=
  finishReg fileP rd g1Generator s

/-- `G1.ADD Pd, Pa, Pb` (R204). -/
def execG1Add (rd ra rb : RegIdx) (s : State) : Result :=
  op2 fileP fileP fileP (encode (.g1Add rd ra rb)) rd ra rb g1Add s

/-- `G1.DBL Pd, Pa` (R205). -/
def execG1Dbl (rd ra : RegIdx) (s : State) : Result :=
  op1 fileP fileP (encode (.g1Dbl rd ra)) rd ra g1Dbl s

/-- `G1.NEG Pd, Pa` (R206). -/
def execG1Neg (rd ra : RegIdx) (s : State) : Result :=
  op1 fileP fileP (encode (.g1Neg rd ra)) rd ra g1Neg s

/-- `G1.SMUL Pd, Pa, Kb` (R207). -/
def execG1Smul (rd ra rb : RegIdx) (s : State) : Result :=
  op2 fileP fileK fileP (encode (.g1Smul rd ra rb)) rd ra rb (fun A k => g1Smul A k.toNat) s

/-- `G1.EQ Pa, Pb` (R208). -/
def execG1Eq (ra rb : RegIdx) (s : State) : Result :=
  test2 fileP (encode (.g1Eq ra rb)) ra rb (fun x y => decide (x = y)) s

/-- `G1.ISINF Pa` (R209). -/
def execG1IsInf (ra : RegIdx) (s : State) : Result :=
  test1 fileP (encode (.g1IsInf ra)) ra g1IsInf s

/-- `G1.MOV Pd, Pa` (R210). -/
def execG1Mov (rd ra : RegIdx) (s : State) : Result :=
  op1 fileP fileP (encode (.g1Mov rd ra)) rd ra id s

/-- `G1.GETX Fd, Pa` (R211). -/
def execG1GetX (rd ra : RegIdx) (s : State) : Result :=
  op1 fileP fileF (encode (.g1GetX rd ra)) rd ra G1pt.X s

/-- `G1.GETY Fd, Pa` (R212). -/
def execG1GetY (rd ra : RegIdx) (s : State) : Result :=
  op1 fileP fileF (encode (.g1GetY rd ra)) rd ra G1pt.Y s

end Sys2Proof.Machine
end

