-- ==== Sys2Proof/Machine/ExecG2.lean ====
section
/-! DEFINITION. The meanings of the G2 commands (46_g2.md). -/

namespace Sys2Proof.Machine

/-- `G2.NEW Wd, Qa, Qb` (R221). -/
def execG2New (rd ra rb : RegIdx) (s : State) : Result :=
  opNew fileQ fileW (encode (.g2New rd ra rb)) rd ra rb (fun x y => g2OnCurve ⟨x, y⟩) G2pt.mk s

/-- `G2.INF Wd` (R222). -/
def execG2Inf (rd : RegIdx) (s : State) : Result :=
  finishReg fileW rd g2Infinity s

/-- `G2.GEN Wd` (R223). -/
def execG2Gen (rd : RegIdx) (s : State) : Result :=
  finishReg fileW rd g2Generator s

/-- `G2.ADD Wd, Wa, Wb` (R224). -/
def execG2Add (rd ra rb : RegIdx) (s : State) : Result :=
  op2 fileW fileW fileW (encode (.g2Add rd ra rb)) rd ra rb g2Add s

/-- `G2.DBL Wd, Wa` (R225). -/
def execG2Dbl (rd ra : RegIdx) (s : State) : Result :=
  op1 fileW fileW (encode (.g2Dbl rd ra)) rd ra g2Dbl s

/-- `G2.NEG Wd, Wa` (R226). -/
def execG2Neg (rd ra : RegIdx) (s : State) : Result :=
  op1 fileW fileW (encode (.g2Neg rd ra)) rd ra g2Neg s

/-- `G2.SMUL Wd, Wa, Kb` (R227). -/
def execG2Smul (rd ra rb : RegIdx) (s : State) : Result :=
  op2 fileW fileK fileW (encode (.g2Smul rd ra rb)) rd ra rb (fun A k => g2Smul A k.toNat) s

/-- `G2.EQ Wa, Wb` (R228). -/
def execG2Eq (ra rb : RegIdx) (s : State) : Result :=
  test2 fileW (encode (.g2Eq ra rb)) ra rb (fun x y => decide (x = y)) s

/-- `G2.ISINF Wa` (R229). -/
def execG2IsInf (ra : RegIdx) (s : State) : Result :=
  test1 fileW (encode (.g2IsInf ra)) ra g2IsInf s

/-- `G2.MOV Wd, Wa` (R230). -/
def execG2Mov (rd ra : RegIdx) (s : State) : Result :=
  op1 fileW fileW (encode (.g2Mov rd ra)) rd ra id s

/-- `G2.GETX Qd, Wa` (R231). -/
def execG2GetX (rd ra : RegIdx) (s : State) : Result :=
  op1 fileW fileQ (encode (.g2GetX rd ra)) rd ra G2pt.X s

/-- `G2.GETY Qd, Wa` (R232). -/
def execG2GetY (rd ra : RegIdx) (s : State) : Result :=
  op1 fileW fileQ (encode (.g2GetY rd ra)) rd ra G2pt.Y s

end Sys2Proof.Machine
end

