-- ==== Sys2Proof/Machine/ExecPairing.lean ====
section
/-! DEFINITION. The meanings of the pairing commands (47_pairing.md). -/

namespace Sys2Proof.Machine

/-- `LINE.DBL Dd, Wa, Pb` (R241). -/
def execLineDbl (rd ra rb : RegIdx) (s : State) : Result :=
  op2 fileW fileP fileD (encode (.lineDbl rd ra rb)) rd ra rb lineDbl s

/-- `LINE.ADD Dd, Wa, Wb, Pc` (R242). -/
def execLineAdd (rd ra rb rc : RegIdx) (s : State) : Result :=
  op3 fileW fileW fileP fileD (encode (.lineAdd rd ra rb rc)) rd ra rb rc lineAdd s

/-- `MLOOP Dd, Pa, Wb` (R243). -/
def execMloop (rd ra rb : RegIdx) (s : State) : Result :=
  op2 fileP fileW fileD (encode (.mloop rd ra rb)) rd ra rb miller s

/-- `FEXP Dd, Da` (R244). -/
def execFexp (rd ra : RegIdx) (s : State) : Result :=
  op1 fileD fileD (encode (.fexp rd ra)) rd ra finalExp s

/-- `PAIR Dd, Pa, Wb` (R245). -/
def execPair (rd ra rb : RegIdx) (s : State) : Result :=
  op2 fileP fileW fileD (encode (.pair rd ra rb)) rd ra rb pairing s

/-- `PCHK n` (R246). -/
def execPchk (n : BitVec 16) (s : State) : Result :=
  if n.toNat ≤ Config.NPAIR_MAX then
    withPairs (encode (.pchk n)) n.toNat s fun l => finishTest (pairingCheck l) s
  else raiseFault .illegalInstruction (encode (.pchk n)) s

/-- `PCHKE n` (R247). -/
def execPchke (n : BitVec 16) (s : State) : Result :=
  if n.toNat ≤ Config.NPAIR_MAX then
    withPairs (encode (.pchke n)) n.toNat s fun l =>
      if pairingCheck l then finishTest true s else raiseFault .invalidPairing (encode (.pchke n)) s
  else raiseFault .illegalInstruction (encode (.pchke n)) s

end Sys2Proof.Machine
end

