-- ==== Sys2Proof/Machine/Dispatch.lean ====
section
/-! DEFINITION. What each command does: one arm per constructor, one direct call each. -/

namespace Sys2Proof.Machine

def exec (i : Instr) (s : State) : Host.Outcome State Fault Refusal :=
  match i with
  -- control and integer registers
  | .nop => Sys2Proof.Machine.execNop s
  | .halt => Sys2Proof.Machine.execHalt s
  | .jmp target => Sys2Proof.Machine.execJmp target s
  | .bt target => Sys2Proof.Machine.execBt target s
  | .bf target => Sys2Proof.Machine.execBf target s
  | .kLi rd imm => Sys2Proof.Machine.execKLi rd imm s
  | .kMov rd ra => Sys2Proof.Machine.execKMov rd ra s
  -- Fp
  | .fAdd rd ra rb => Sys2Proof.Machine.execFAdd rd ra rb s
  | .fSub rd ra rb => Sys2Proof.Machine.execFSub rd ra rb s
  | .fMul rd ra rb => Sys2Proof.Machine.execFMul rd ra rb s
  | .fSqr rd ra => Sys2Proof.Machine.execFSqr rd ra s
  | .fNeg rd ra => Sys2Proof.Machine.execFNeg rd ra s
  | .fInv rd ra => Sys2Proof.Machine.execFInv rd ra s
  | .fEq ra rb => Sys2Proof.Machine.execFEq ra rb s
  | .fIsZ ra => Sys2Proof.Machine.execFIsZ ra s
  | .fMov rd ra => Sys2Proof.Machine.execFMov rd ra s
  | .fLi rd imm => Sys2Proof.Machine.execFLi rd imm s
  -- Fp2
  | .qAdd rd ra rb => Sys2Proof.Machine.execQAdd rd ra rb s
  | .qSub rd ra rb => Sys2Proof.Machine.execQSub rd ra rb s
  | .qMul rd ra rb => Sys2Proof.Machine.execQMul rd ra rb s
  | .qSqr rd ra => Sys2Proof.Machine.execQSqr rd ra s
  | .qNeg rd ra => Sys2Proof.Machine.execQNeg rd ra s
  | .qInv rd ra => Sys2Proof.Machine.execQInv rd ra s
  | .qEq ra rb => Sys2Proof.Machine.execQEq ra rb s
  | .qIsZ ra => Sys2Proof.Machine.execQIsZ ra s
  | .qMov rd ra => Sys2Proof.Machine.execQMov rd ra s
  | .qMnr rd ra => Sys2Proof.Machine.execQMnr rd ra s
  | .qPack rd ra rb => Sys2Proof.Machine.execQPack rd ra rb s
  | .qGet rd ra sel => Sys2Proof.Machine.execQGet rd ra sel s
  -- Fp6
  | .sAdd rd ra rb => Sys2Proof.Machine.execSAdd rd ra rb s
  | .sSub rd ra rb => Sys2Proof.Machine.execSSub rd ra rb s
  | .sMul rd ra rb => Sys2Proof.Machine.execSMul rd ra rb s
  | .sSqr rd ra => Sys2Proof.Machine.execSSqr rd ra s
  | .sNeg rd ra => Sys2Proof.Machine.execSNeg rd ra s
  | .sInv rd ra => Sys2Proof.Machine.execSInv rd ra s
  | .sEq ra rb => Sys2Proof.Machine.execSEq ra rb s
  | .sIsZ ra => Sys2Proof.Machine.execSIsZ ra s
  | .sMov rd ra => Sys2Proof.Machine.execSMov rd ra s
  | .sMulV rd ra => Sys2Proof.Machine.execSMulV rd ra s
  | .sPack rd ra rb rc => Sys2Proof.Machine.execSPack rd ra rb rc s
  | .sGet rd ra sel => Sys2Proof.Machine.execSGet rd ra sel s
  -- Fp12 and GT
  | .dAdd rd ra rb => Sys2Proof.Machine.execDAdd rd ra rb s
  | .dSub rd ra rb => Sys2Proof.Machine.execDSub rd ra rb s
  | .dMul rd ra rb => Sys2Proof.Machine.execDMul rd ra rb s
  | .dSqr rd ra => Sys2Proof.Machine.execDSqr rd ra s
  | .dNeg rd ra => Sys2Proof.Machine.execDNeg rd ra s
  | .dInv rd ra => Sys2Proof.Machine.execDInv rd ra s
  | .dEq ra rb => Sys2Proof.Machine.execDEq ra rb s
  | .dIsZ ra => Sys2Proof.Machine.execDIsZ ra s
  | .dMov rd ra => Sys2Proof.Machine.execDMov rd ra s
  | .dConj rd ra => Sys2Proof.Machine.execDConj rd ra s
  | .dPack rd ra rb => Sys2Proof.Machine.execDPack rd ra rb s
  | .dGet rd ra sel => Sys2Proof.Machine.execDGet rd ra sel s
  | .dOne rd => Sys2Proof.Machine.execDOne rd s
  | .dIsOne ra => Sys2Proof.Machine.execDIsOne ra s
  | .dExp rd ra rb => Sys2Proof.Machine.execDExp rd ra rb s
  -- G1
  | .g1New rd ra rb => Sys2Proof.Machine.execG1New rd ra rb s
  | .g1Inf rd => Sys2Proof.Machine.execG1Inf rd s
  | .g1Gen rd => Sys2Proof.Machine.execG1Gen rd s
  | .g1Add rd ra rb => Sys2Proof.Machine.execG1Add rd ra rb s
  | .g1Dbl rd ra => Sys2Proof.Machine.execG1Dbl rd ra s
  | .g1Neg rd ra => Sys2Proof.Machine.execG1Neg rd ra s
  | .g1Smul rd ra rb => Sys2Proof.Machine.execG1Smul rd ra rb s
  | .g1Eq ra rb => Sys2Proof.Machine.execG1Eq ra rb s
  | .g1IsInf ra => Sys2Proof.Machine.execG1IsInf ra s
  | .g1Mov rd ra => Sys2Proof.Machine.execG1Mov rd ra s
  | .g1GetX rd ra => Sys2Proof.Machine.execG1GetX rd ra s
  | .g1GetY rd ra => Sys2Proof.Machine.execG1GetY rd ra s
  -- G2
  | .g2New rd ra rb => Sys2Proof.Machine.execG2New rd ra rb s
  | .g2Inf rd => Sys2Proof.Machine.execG2Inf rd s
  | .g2Gen rd => Sys2Proof.Machine.execG2Gen rd s
  | .g2Add rd ra rb => Sys2Proof.Machine.execG2Add rd ra rb s
  | .g2Dbl rd ra => Sys2Proof.Machine.execG2Dbl rd ra s
  | .g2Neg rd ra => Sys2Proof.Machine.execG2Neg rd ra s
  | .g2Smul rd ra rb => Sys2Proof.Machine.execG2Smul rd ra rb s
  | .g2Eq ra rb => Sys2Proof.Machine.execG2Eq ra rb s
  | .g2IsInf ra => Sys2Proof.Machine.execG2IsInf ra s
  | .g2Mov rd ra => Sys2Proof.Machine.execG2Mov rd ra s
  | .g2GetX rd ra => Sys2Proof.Machine.execG2GetX rd ra s
  | .g2GetY rd ra => Sys2Proof.Machine.execG2GetY rd ra s
  -- pairing
  | .lineDbl rd ra rb => Sys2Proof.Machine.execLineDbl rd ra rb s
  | .lineAdd rd ra rb rc => Sys2Proof.Machine.execLineAdd rd ra rb rc s
  | .mloop rd ra rb => Sys2Proof.Machine.execMloop rd ra rb s
  | .fexp rd ra => Sys2Proof.Machine.execFexp rd ra s
  | .pair rd ra rb => Sys2Proof.Machine.execPair rd ra rb s
  | .pchk n => Sys2Proof.Machine.execPchk n s
  | .pchke n => Sys2Proof.Machine.execPchke n s
  -- codec and memory
  | .g1Enc r addr => Sys2Proof.Machine.execG1Enc r addr s
  | .g1Dec r addr len => Sys2Proof.Machine.execG1Dec r addr len s
  | .g2Enc r addr => Sys2Proof.Machine.execG2Enc r addr s
  | .g2Dec r addr len => Sys2Proof.Machine.execG2Dec r addr len s
  | .gtEnc r addr => Sys2Proof.Machine.execGtEnc r addr s
  | .gtDec r addr len => Sys2Proof.Machine.execGtDec r addr len s
  | .fLd r addr => Sys2Proof.Machine.execFLd r addr s
  | .fSt r addr => Sys2Proof.Machine.execFSt r addr s
  | .kLd r addr len => Sys2Proof.Machine.execKLd r addr len s

end Sys2Proof.Machine
end

