-- ==== Sys2Proof/Machine/Fetch.lean ====
section
/-! DEFINITION. Fetch and decode: 40_control.md R100 steps (1) to (3). -/

namespace Sys2Proof.Machine

/-- Continue with the command at `pc`; raise `ImemFetchFault(pc)` where `pc` is past IMEM (60_exceptions.md R287), and
`IllegalInstruction(w)` where the word is no command (R284). -/
def withCommand (s : State) (k : Instr → Result) : Result :=
  if s.pc.toNat < Config.IMEM_WORDS then
    match decode (readWord s.imem s.pc.toNat) with
    | .ok i => k i
    | .error _ => raiseFault .illegalInstruction (readWord s.imem s.pc.toNat) s
  else raiseFault .imemFetchFault (s.pc.setWidth 32) s

/-- One step of the sequencer while it runs (R100). -/
def runStep (s : State) : Result := withCommand s fun i => exec i s

/-- What the core does while it does not run: nothing, until a GO (10_state.md R31, 20_memory.md R69; log 4). -/
def idleStep (s : State) : Result := .next s

/-- The index at which a word is placed to be fetched next: `pc`, or 0 where `pc` is past IMEM. -/
def fetchIndex (s : State) : BitVec 16 := if s.pc.toNat < Config.IMEM_WORDS then s.pc else 0

/-- Place a word where it is fetched next and let the core run (log 9). -/
def placeCommand (s : State) (w : Word) : State :=
  { s with pc := fetchIndex s, run := .run, imem := writeWord s.imem (fetchIndex s).toNat w }

end Sys2Proof.Machine
end

