-- ==== Sys2Proof/Machine/Step.lean ====
section
/-! DEFINITION. One step of the core. -/

namespace Sys2Proof.Machine

/-- While `state = RUN` one command is fetched and run to completion (40_control.md R100); otherwise the core touches
nothing (20_memory.md R69). -/
def step (s : State) : Host.Outcome State Fault Refusal :=
  match s.run with
  | .run => runStep s
  | .idle | .halt | .fault => idleStep s

/-- `s` with the word `w` (bits above `nbits` zero) as the command the next step runs: it stands for the host's load of IMEM
and its GO (log 9). -/
def State.withFetchWord (s : State) (nbits w : Nat) : State :=
  placeCommand s (BitVec.ofNat 32 (w % 2 ^ nbits))

end Sys2Proof.Machine
end

