-- ==== Sys2Proof/Machine/Assembler.lean ====
section
/-! DEFINITION. Assembler syntax and pseudo-instructions (30_encoding.md R91, R92), from text to command words. Nothing of
the core depends on it: it says what a program written down as text is (log 16). What R91 leaves open of the text is the
model's choice (DESIGN CHOICE, log 18). -/

namespace Sys2Proof.Machine

/-- An operand as it is written (R91). -/
inductive Operand where
  /-- a register: file letter and index -/
  | reg (file : Char) (i : RegIdx)
  /-- an immediate, selector, target, pair count or length -/
  | num (n : Nat)
  /-- `[addr]` -/
  | mem (n : Nat)
  /-- a label -/
  | name (label : List Char)
  deriving DecidableEq, Repr

/-- Where an operand goes in the word (R81 to R83), with its register file. -/
inductive Slot where
  | rd (file : Char)
  | ra (file : Char)
  | rb (file : Char)
  | rc (file : Char)
  | r (file : Char)
  | sel
  | imm
  | target
  | addr
  | len
  deriving DecidableEq, Repr

/-- A row of R87: mnemonic, opcode, operands in the order they are written. -/
structure AsmRow where
  mnemonic : String
  op : BitVec 8
  slots : List Slot
  deriving DecidableEq, Repr

/-- Family 0: control and integer registers. -/
def asmControl : List AsmRow :=
  [⟨"NOP", 0x00, []⟩,
   ⟨"HALT", 0x01, []⟩,
   ⟨"JMP", 0x02, [.target]⟩,
   ⟨"BT", 0x03, [.target]⟩,
   ⟨"BF", 0x04, [.target]⟩,
   ⟨"K.LI", 0x08, [.rd 'K', .imm]⟩,
   ⟨"K.MOV", 0x09, [.rd 'K', .ra 'K']⟩]

/-- Family 1: Fp. -/
def asmFp : List AsmRow :=
  [⟨"F.ADD", 0x10, [.rd 'F', .ra 'F', .rb 'F']⟩,
   ⟨"F.SUB", 0x11, [.rd 'F', .ra 'F', .rb 'F']⟩,
   ⟨"F.MUL", 0x12, [.rd 'F', .ra 'F', .rb 'F']⟩,
   ⟨"F.SQR", 0x13, [.rd 'F', .ra 'F']⟩,
   ⟨"F.NEG", 0x14, [.rd 'F', .ra 'F']⟩,
   ⟨"F.INV", 0x15, [.rd 'F', .ra 'F']⟩,
   ⟨"F.EQ", 0x16, [.ra 'F', .rb 'F']⟩,
   ⟨"F.ISZ", 0x17, [.ra 'F']⟩,
   ⟨"F.MOV", 0x18, [.rd 'F', .ra 'F']⟩,
   ⟨"F.LI", 0x19, [.rd 'F', .imm]⟩]

/-- Family 2: Fp2. -/
def asmFp2 : List AsmRow :=
  [⟨"Q.ADD", 0x20, [.rd 'Q', .ra 'Q', .rb 'Q']⟩,
   ⟨"Q.SUB", 0x21, [.rd 'Q', .ra 'Q', .rb 'Q']⟩,
   ⟨"Q.MUL", 0x22, [.rd 'Q', .ra 'Q', .rb 'Q']⟩,
   ⟨"Q.SQR", 0x23, [.rd 'Q', .ra 'Q']⟩,
   ⟨"Q.NEG", 0x24, [.rd 'Q', .ra 'Q']⟩,
   ⟨"Q.INV", 0x25, [.rd 'Q', .ra 'Q']⟩,
   ⟨"Q.EQ", 0x26, [.ra 'Q', .rb 'Q']⟩,
   ⟨"Q.ISZ", 0x27, [.ra 'Q']⟩,
   ⟨"Q.MOV", 0x28, [.rd 'Q', .ra 'Q']⟩,
   ⟨"Q.MNR", 0x29, [.rd 'Q', .ra 'Q']⟩,
   ⟨"Q.PACK", 0x2A, [.rd 'Q', .ra 'F', .rb 'F']⟩,
   ⟨"Q.GET", 0x2B, [.rd 'F', .ra 'Q', .sel]⟩]

/-- Family 3: Fp6. -/
def asmFp6 : List AsmRow :=
  [⟨"S.ADD", 0x30, [.rd 'S', .ra 'S', .rb 'S']⟩,
   ⟨"S.SUB", 0x31, [.rd 'S', .ra 'S', .rb 'S']⟩,
   ⟨"S.MUL", 0x32, [.rd 'S', .ra 'S', .rb 'S']⟩,
   ⟨"S.SQR", 0x33, [.rd 'S', .ra 'S']⟩,
   ⟨"S.NEG", 0x34, [.rd 'S', .ra 'S']⟩,
   ⟨"S.INV", 0x35, [.rd 'S', .ra 'S']⟩,
   ⟨"S.EQ", 0x36, [.ra 'S', .rb 'S']⟩,
   ⟨"S.ISZ", 0x37, [.ra 'S']⟩,
   ⟨"S.MOV", 0x38, [.rd 'S', .ra 'S']⟩,
   ⟨"S.MULV", 0x39, [.rd 'S', .ra 'S']⟩,
   ⟨"S.PACK", 0x3A, [.rd 'S', .ra 'Q', .rb 'Q', .rc 'Q']⟩,
   ⟨"S.GET", 0x3B, [.rd 'Q', .ra 'S', .sel]⟩]

/-- Family 4: Fp12 and GT. -/
def asmFp12 : List AsmRow :=
  [⟨"D.ADD", 0x40, [.rd 'D', .ra 'D', .rb 'D']⟩,
   ⟨"D.SUB", 0x41, [.rd 'D', .ra 'D', .rb 'D']⟩,
   ⟨"D.MUL", 0x42, [.rd 'D', .ra 'D', .rb 'D']⟩,
   ⟨"D.SQR", 0x43, [.rd 'D', .ra 'D']⟩,
   ⟨"D.NEG", 0x44, [.rd 'D', .ra 'D']⟩,
   ⟨"D.INV", 0x45, [.rd 'D', .ra 'D']⟩,
   ⟨"D.EQ", 0x46, [.ra 'D', .rb 'D']⟩,
   ⟨"D.ISZ", 0x47, [.ra 'D']⟩,
   ⟨"D.MOV", 0x48, [.rd 'D', .ra 'D']⟩,
   ⟨"D.CONJ", 0x49, [.rd 'D', .ra 'D']⟩,
   ⟨"D.PACK", 0x4A, [.rd 'D', .ra 'S', .rb 'S']⟩,
   ⟨"D.GET", 0x4B, [.rd 'S', .ra 'D', .sel]⟩,
   ⟨"D.ONE", 0x4C, [.rd 'D']⟩,
   ⟨"D.ISONE", 0x4D, [.ra 'D']⟩,
   ⟨"D.EXP", 0x4E, [.rd 'D', .ra 'D', .rb 'K']⟩]

/-- Family 5: G1. -/
def asmG1 : List AsmRow :=
  [⟨"G1.NEW", 0x50, [.rd 'P', .ra 'F', .rb 'F']⟩,
   ⟨"G1.INF", 0x51, [.rd 'P']⟩,
   ⟨"G1.GEN", 0x52, [.rd 'P']⟩,
   ⟨"G1.ADD", 0x53, [.rd 'P', .ra 'P', .rb 'P']⟩,
   ⟨"G1.DBL", 0x54, [.rd 'P', .ra 'P']⟩,
   ⟨"G1.NEG", 0x55, [.rd 'P', .ra 'P']⟩,
   ⟨"G1.SMUL", 0x56, [.rd 'P', .ra 'P', .rb 'K']⟩,
   ⟨"G1.EQ", 0x57, [.ra 'P', .rb 'P']⟩,
   ⟨"G1.ISINF", 0x58, [.ra 'P']⟩,
   ⟨"G1.MOV", 0x59, [.rd 'P', .ra 'P']⟩,
   ⟨"G1.GETX", 0x5A, [.rd 'F', .ra 'P']⟩,
   ⟨"G1.GETY", 0x5B, [.rd 'F', .ra 'P']⟩]

/-- Family 6: G2. -/
def asmG2 : List AsmRow :=
  [⟨"G2.NEW", 0x60, [.rd 'W', .ra 'Q', .rb 'Q']⟩,
   ⟨"G2.INF", 0x61, [.rd 'W']⟩,
   ⟨"G2.GEN", 0x62, [.rd 'W']⟩,
   ⟨"G2.ADD", 0x63, [.rd 'W', .ra 'W', .rb 'W']⟩,
   ⟨"G2.DBL", 0x64, [.rd 'W', .ra 'W']⟩,
   ⟨"G2.NEG", 0x65, [.rd 'W', .ra 'W']⟩,
   ⟨"G2.SMUL", 0x66, [.rd 'W', .ra 'W', .rb 'K']⟩,
   ⟨"G2.EQ", 0x67, [.ra 'W', .rb 'W']⟩,
   ⟨"G2.ISINF", 0x68, [.ra 'W']⟩,
   ⟨"G2.MOV", 0x69, [.rd 'W', .ra 'W']⟩,
   ⟨"G2.GETX", 0x6A, [.rd 'Q', .ra 'W']⟩,
   ⟨"G2.GETY", 0x6B, [.rd 'Q', .ra 'W']⟩]

/-- Family 7: pairing. -/
def asmPairing : List AsmRow :=
  [⟨"LINE.DBL", 0x70, [.rd 'D', .ra 'W', .rb 'P']⟩,
   ⟨"LINE.ADD", 0x71, [.rd 'D', .ra 'W', .rb 'W', .rc 'P']⟩,
   ⟨"MLOOP", 0x72, [.rd 'D', .ra 'P', .rb 'W']⟩,
   ⟨"FEXP", 0x73, [.rd 'D', .ra 'D']⟩,
   ⟨"PAIR", 0x74, [.rd 'D', .ra 'P', .rb 'W']⟩,
   ⟨"PCHK", 0x75, [.imm]⟩,
   ⟨"PCHKE", 0x76, [.imm]⟩]

/-- Family 8: codec and memory. -/
def asmCodec : List AsmRow :=
  [⟨"G1.ENC", 0x80, [.addr, .r 'P']⟩,
   ⟨"G1.DEC", 0x81, [.r 'P', .addr, .len]⟩,
   ⟨"G2.ENC", 0x82, [.addr, .r 'W']⟩,
   ⟨"G2.DEC", 0x83, [.r 'W', .addr, .len]⟩,
   ⟨"GT.ENC", 0x84, [.addr, .r 'D']⟩,
   ⟨"GT.DEC", 0x85, [.r 'D', .addr, .len]⟩,
   ⟨"F.LD", 0x86, [.r 'F', .addr]⟩,
   ⟨"F.ST", 0x87, [.addr, .r 'F']⟩,
   ⟨"K.LD", 0x88, [.r 'K', .addr, .len]⟩]

/-- The 96 rows of R87 as they are written down. -/
def asmTable : List AsmRow :=
  asmControl ++ asmFp ++ asmFp2 ++ asmFp6 ++ asmFp12 ++
    asmG1 ++ asmG2 ++ asmPairing ++ asmCodec

/-- The row of an opcode. -/
def rowOfOp (op : BitVec 8) : Option AsmRow := asmTable.find? fun r => r.op == op

/-- The row of a mnemonic. -/
def rowOfMnemonic (m : String) : Option AsmRow := asmTable.find? fun r => r.mnemonic == m

/-- The mnemonic of a command (R87). -/
def mnemonicOf (i : Instr) : String :=
  match rowOfOp (opField (encode i)) with
  | some r => r.mnemonic
  | none => ""

/-! ### From operands to words -/

/-- The number an operand contributes to the word, where it fits its slot. -/
def placeOperand : Slot → Operand → Option Nat
  | .rd f, .reg g i => if f = g then some (i.val * 2 ^ 18) else none
  | .ra f, .reg g i => if f = g then some (i.val * 2 ^ 12) else none
  | .rb f, .reg g i => if f = g then some (i.val * 2 ^ 6) else none
  | .rc f, .reg g i => if f = g then some i.val else none
  | .r f, .reg g i => if f = g then some (i.val * 2 ^ 21) else none
  | .sel, .num n => if n < 2 ^ 6 then some (n * 2 ^ 6) else none
  | .imm, .num n => if n < 2 ^ 16 then some n else none
  | .target, .num n => if n < 2 ^ 16 then some n else none
  | .addr, .mem n => if n < 2 ^ 12 then some (n * 2 ^ 9) else none
  | .len, .num n => if n < 2 ^ 9 then some n else none
  | _, _ => none

/-- All operands, one for each slot. -/
def placeOperands : List Slot → List Operand → Option Nat
  | [], [] => some 0
  | t :: ts, o :: os =>
    match placeOperand t o, placeOperands ts os with
    | some a, some b => some (a + b)
    | _, _ => none
  | _, _ => none

/-- Pseudo-instructions (R92): each stands for exactly one command. -/
def expandPseudo (m : String) (ops : List Operand) : String × List Operand :=
  if m = "GT.MUL" then ("D.MUL", ops)
  else if m = "GT.INV" then ("D.INV", ops)
  else if m = "GT.EQ" then ("D.EQ", ops)
  else if m = "GT.ISONE" then ("D.ISONE", ops)
  else if m = "Q.GETA" then ("Q.GET", ops ++ [.num 0])
  else if m = "Q.GETB" then ("Q.GET", ops ++ [.num 1])
  else if m = "G1.DEC" ∧ ops.length = 2 then (m, ops ++ [.num 64])
  else if m = "G2.DEC" ∧ ops.length = 2 then (m, ops ++ [.num 128])
  else if m = "GT.DEC" ∧ ops.length = 2 then (m, ops ++ [.num 384])
  else (m, ops)

/-- The word of one written command whose labels are resolved; none where the operands do not fit or the word would be
illegal (R88). -/
def assembleCommand (m : String) (ops : List Operand) : Option Word :=
  match rowOfMnemonic (expandPseudo m ops).1 with
  | none => none
  | some r =>
    match placeOperands r.slots (expandPseudo m ops).2 with
    | none => none
    | some n =>
      match decode (BitVec.ofNat 32 (r.op.toNat * 2 ^ 24 + n)) with
      | .ok _ => some (BitVec.ofNat 32 (r.op.toNat * 2 ^ 24 + n))
      | .error _ => none

/-! ### From text to operands -/

/-- A decimal digit. -/
def digitOf (c : Char) : Option Nat := if '0' ≤ c ∧ c ≤ '9' then some (c.toNat - 48) else none

/-- A hexadecimal digit. DESIGN CHOICE (log 18): in either case. -/
def hexDigitOf (c : Char) : Option Nat :=
  if '0' ≤ c ∧ c ≤ '9' then some (c.toNat - 48)
  else if 'a' ≤ c ∧ c ≤ 'f' then some (c.toNat - 87)
  else if 'A' ≤ c ∧ c ≤ 'F' then some (c.toNat - 55)
  else none

/-- A run of digits in a base. -/
def readDigits (digit : Char → Option Nat) (base acc : Nat) : List Char → Option Nat
  | [] => some acc
  | c :: cs =>
    match digit c with
    | some d => readDigits digit base (acc * base + d) cs
    | none => none

/-- A numeral, decimal or `0x` hexadecimal (R91). DESIGN CHOICE (log 18): leading zeros are allowed, the `x` is lower case. -/
def readNumeral : List Char → Option Nat
  | [] => none
  | ['0', 'x'] => none
  | '0' :: 'x' :: cs => readDigits hexDigitOf 16 0 cs
  | cs => readDigits digitOf 10 0 cs

/-- The seven file letters. -/
def fileLetters : List Char := ['F', 'Q', 'S', 'D', 'P', 'W', 'K']

/-- A register: file letter and decimal index 0 to 7 (R91). -/
def readRegister : List Char → Option Operand
  | [f, c] =>
    if f ∈ fileLetters then
      match digitOf c with
      | some d => if h : d < Config.NREG then some (.reg f ⟨d, h⟩) else none
      | none => none
    else none
  | _ => none

/-- A character of an identifier. -/
def isNameChar (c : Char) : Bool := c.isAlphanum || c == '_'

/-- An identifier. DESIGN CHOICE (log 18): letters, digits and underscores, not empty, not beginning with a digit. -/
def readName : List Char → Option (List Char)
  | [] => none
  | c :: cs => if (c.isAlpha || c == '_') && cs.all isNameChar then some (c :: cs) else none

/-- `[addr]`, the opening bracket read. -/
def readMem (cs : List Char) : Option Operand :=
  match cs.reverse with
  | ']' :: ds => (readNumeral ds.reverse).map .mem
  | _ => none

/-- One operand (R91). DESIGN CHOICE (log 18): text that is spelled like a register is a register, so a label line `F0:` is
accepted but no branch can name it (`JMP F0` is refused). -/
def readOperand : List Char → Option Operand
  | '[' :: cs => readMem cs
  | cs =>
    match readRegister cs with
    | some o => some o
    | none =>
      match readNumeral cs with
      | some n => some (.num n)
      | none => (readName cs).map .name

/-- All operands of a line. -/
def readOperands : List (List Char) → Option (List Operand)
  | [] => some []
  | cs :: rest =>
    match readOperand cs, readOperands rest with
    | some o, some os => some (o :: os)
    | _, _ => none

/-- Drop spaces at both ends. DESIGN CHOICE (log 18): the space is the only blank, before and after a line, between the
mnemonic and its operands, and around an operand; a tab outside a comment refuses the program. -/
def trim (cs : List Char) : List Char :=
  ((cs.dropWhile fun c => c == ' ').reverse.dropWhile fun c => c == ' ').reverse

/-- Cut a list at every occurrence of a character. -/
def cutAt (sep : Char) : List Char → List (List Char)
  | [] => [[]]
  | c :: cs =>
    match cutAt sep cs with
    | [] => [[]]
    | p :: ps => if c = sep then [] :: p :: ps else (c :: p) :: ps

/-- A line of a program. -/
inductive AsmLine where
  /-- nothing but spaces and a comment -/
  | empty
  /-- a label on a line of its own -/
  | label (name : List Char)
  /-- a command -/
  | command (mnemonic : String) (ops : List Operand)
  deriving DecidableEq, Repr

/-- A line without its comment and outer spaces. DESIGN CHOICE (log 18): a line that is empty then is allowed. -/
def readBody (cs : List Char) : Option AsmLine :=
  match cs.reverse with
  | [] => some .empty
  | ':' :: ds => (readName ds.reverse).map .label
  | _ =>
    let m := cs.takeWhile fun c => c != ' '
    let rest := trim (cs.drop m.length)
    if rest = [] then some (.command (String.ofList m) [])
    else (readOperands ((cutAt ',' rest).map trim)).map fun os => .command (String.ofList m) os

/-- One line: `;` starts a comment (R91). -/
def readLine (cs : List Char) : Option AsmLine := readBody (trim (cs.takeWhile fun c => c != ';'))

/-- All lines. DESIGN CHOICE (log 18): one unreadable line refuses the program. -/
def readLines : List (List Char) → Option (List AsmLine)
  | [] => some []
  | cs :: rest =>
    match readLine cs, readLines rest with
    | some l, some ls => some (l :: ls)
    | _, _ => none

/-! ### Labels -/

/-- The labels of a program with the index of the next command (R91), commands counted from `i`. DESIGN CHOICE (log 18): a
label with no command after it stands for the index past the last command. -/
def labelsFrom (i : Nat) : List AsmLine → List (List Char × Nat)
  | [] => []
  | .empty :: ls => labelsFrom i ls
  | .label n :: ls => (n, i) :: labelsFrom i ls
  | .command _ _ :: ls => labelsFrom (i + 1) ls

/-- The index a label stands for. DESIGN CHOICE (log 18): of several labels of one name the first in the program counts. -/
def findLabel (n : List Char) : List (List Char × Nat) → Option Nat
  | [] => none
  | (m, i) :: rest => if m = n then some i else findLabel n rest

/-- An operand of a branch: a label becomes its index. DESIGN CHOICE (log 18): a label that is nowhere defined refuses the
program. -/
def resolve (labels : List (List Char × Nat)) : Operand → Option Operand
  | .name n => (findLabel n labels).map .num
  | o => some o

/-- `JMP`, `BT`, `BF` may name a label, no other command (R91). -/
def resolveOps (labels : List (List Char × Nat)) (m : String) (ops : List Operand) : Option (List Operand) :=
  if m = "JMP" ∨ m = "BT" ∨ m = "BF" then ops.mapM (resolve labels) else some ops

/-- The words of the commands of a program. -/
def assembleLines (labels : List (List Char × Nat)) : List AsmLine → Option (List Word)
  | [] => some []
  | .command m ops :: ls =>
    match (resolveOps labels m ops).bind (assembleCommand m), assembleLines labels ls with
    | some w, some ws => some (w :: ws)
    | _, _ => none
  | _ :: ls => assembleLines labels ls

/-- The words of a program text to be placed from IMEM index `origin` on (R91). -/
def assemble (origin : Nat) (text : String) : Option (List Word) :=
  match readLines (cutAt '\n' text.toList) with
  | some ls => assembleLines (labelsFrom origin ls) ls
  | none => none

/-! ### From words to text -/

/-- A decimal numeral. -/
def numeral (n : Nat) : List Char := Nat.toDigits 10 n

/-- The operand a word has in a slot, written. -/
def showSlot (w : Word) : Slot → List Char
  | .rd f => f :: numeral (rdField w).toNat
  | .ra f => f :: numeral (raField w).toNat
  | .rb f => f :: numeral (rbField w).toNat
  | .rc f => f :: numeral (rcField w).toNat
  | .r f => f :: numeral (rField w).toNat
  | .sel => numeral (rbField w).toNat
  | .imm => numeral (immField w).toNat
  | .target => numeral (immField w).toNat
  | .addr => '[' :: numeral (addrField w).toNat ++ [']']
  | .len => numeral (lenField w).toNat

/-- Operands separated by commas. -/
def showSlots (w : Word) : List Slot → List Char
  | [] => []
  | [t] => showSlot w t
  | t :: ts => showSlot w t ++ [',', ' '] ++ showSlots w ts

/-- A command written down (R91). DESIGN CHOICE (log 18): every number in decimal, never as a pseudo-instruction. -/
def showInstr (i : Instr) : String :=
  match rowOfOp (opField (encode i)) with
  | none => ""
  | some r =>
    if r.slots = [] then r.mnemonic
    else String.ofList (r.mnemonic.toList ++ [' '] ++ showSlots (encode i) r.slots)

end Sys2Proof.Machine
end

