-- ==== Sys2Proof/Machine/HostPort.lean ====
section
/-! DEFINITION. The host interface: the six status and control registers as the host sees them (10_state.md R32 to R38), the
interrupt output (60_exceptions.md R289), reset (70_reset_and_hazards.md R310, R311) and the operations of R315. How a bus
carries them is the open parameter `HOST_MAP` and no part of the model (log 5). -/

namespace Sys2Proof.Machine

/-- The code of the run state in `STATUS[1:0]` (10_state.md R31). -/
def runCode : RunState → BitVec 2
  | .idle => 0
  | .run => 1
  | .halt => 2
  | .fault => 3

/-- The cause codes of 60_exceptions.md R280. -/
def causeCode : Cause → BitVec 4
  | .noFault => 0
  | .invalidPoint => 1
  | .invalidEncoding => 2
  | .invalidPairing => 3
  | .illegalInstruction => 4
  | .uninitRegister => 5
  | .dmemAccessFault => 6
  | .imemFetchFault => 7

/-- The six status and control registers (10_state.md R32). -/
inductive HostReg where
  | status
  | cause
  | epc
  | info
  | entry
  | ctrl
  deriving DecidableEq, Repr

/-- The register numbers of R32. -/
def hostRegNumber : HostReg → Nat
  | .status => 0
  | .cause => 1
  | .epc => 2
  | .info => 3
  | .entry => 4
  | .ctrl => 5

/-- `STATUS` (R33). -/
def statusView (s : State) : BitVec 32 := (0 : BitVec 29) ++ BitVec.ofBool s.T ++ runCode s.run

/-- `CTRL` as it is read: GO and CLR read 0 (R38). -/
def ctrlView (s : State) : BitVec 32 := (0 : BitVec 29) ++ BitVec.ofBool s.ie ++ (0 : BitVec 2)

/-- What a host read of a register gives: bits not named read 0 (R33 to R38). -/
def hostRegRead (r : HostReg) (s : State) : BitVec 32 :=
  match r with
  | .status => statusView s
  | .cause => (0 : BitVec 28) ++ causeCode s.cause
  | .epc => (0 : BitVec 16) ++ s.epc
  | .info => s.info
  | .entry => (0 : BitVec 16) ++ s.entry
  | .ctrl => ctrlView s

/-- The interrupt output, a level (60_exceptions.md R289). -/
def irq (s : State) : Bool :=
  match s.run with
  | .halt | .fault => s.ie
  | .idle | .run => false

/-- `CTRL.CLR` written 1: accepted in HALT and FAULT, ignored otherwise (R38). -/
def writeClr (s : State) : State :=
  match s.run with
  | .halt | .fault => acknowledge s
  | .idle | .run => s

/-- `CTRL.GO` written 1: accepted in IDLE and HALT, ignored otherwise (R38). -/
def writeGo (s : State) : State :=
  match s.run with
  | .idle | .halt => launch s
  | .run | .fault => s

/-- A host write of `CTRL`: IE is stored; with CLR set CLR is performed and GO ignored; else GO (R38). -/
def writeCtrl (v : BitVec 32) (s : State) : State :=
  let s1 := { s with ie := v.getLsbD 2 }
  if v.getLsbD 1 then writeClr s1 else if v.getLsbD 0 then writeGo s1 else s1

/-- A host write of `ENTRY` (R37). -/
def writeEntry (v : BitVec 32) (s : State) : State := { s with entry := v.setWidth 16 }

/-- The operations of the host (70_reset_and_hazards.md R315). A reset brings memory contents of its own, because those are
unspecified after it (R311, 93_implementation_defined.md U1, U3, U4; log 8). -/
inductive HostOp where
  | readImem (i : Nat)
  | writeImem (i : Nat) (w : Word)
  | readDmem (a : Nat)
  | writeDmem (a : Nat) (b : Byte)
  | readReg (r : HostReg)
  | writeReg (r : HostReg) (v : BitVec 32)
  | observeIrq
  | reset (imem : List (Nat × Word)) (dmem : List (Nat × Byte))
  deriving DecidableEq, Repr

/-- Continue where the core does not run; else refuse (20_memory.md R69, 93_implementation_defined.md U5; log 6). -/
def withStopped (s : State) (k : Result) : Result :=
  match s.run with
  | .run => .refused .hostExclusion
  | .idle | .halt | .fault => k

/-- Continue where the IMEM index exists (R315; log 7). -/
def withImemIndex (i : Nat) (k : Result) : Result :=
  if i < Config.IMEM_WORDS then k else .fault (.hostNoSuchWord i)

/-- Continue where the DMEM address exists (R315; log 7). -/
def withDmemAddress (a : Nat) (k : Result) : Result :=
  if a < Config.DMEM_BYTES then k else .fault (.hostNoSuchByte a)

/-- A host write of a register: `STATUS`, `CAUSE`, `EPC` and `INFO` ignore it (R33 to R36). -/
def hostRegWrite (r : HostReg) (v : BitVec 32) (s : State) : Result :=
  match r with
  | .status | .cause | .epc | .info => .next s
  | .entry => withStopped s <| .next (writeEntry v s)
  | .ctrl => .next (writeCtrl v s)

/-- A host read of a register changes nothing; `ENTRY` is not read while the core runs (R69; log 6). -/
def hostRegReadStep (r : HostReg) (s : State) : Result :=
  match r with
  | .status | .cause | .epc | .info | .ctrl => .next s
  | .entry => withStopped s <| .next s

/-- What a host operation does to the state (R315). -/
def hostStep (op : HostOp) (s : State) : Result :=
  match op with
  | .readImem i => withImemIndex i <| withStopped s <| .next s
  | .writeImem i w => withImemIndex i <| withStopped s <| .next { s with imem := writeWord s.imem i w }
  | .readDmem a => withDmemAddress a <| withStopped s <| .next s
  | .writeDmem a b => withDmemAddress a <| withStopped s <| .next { s with dmem := writeByte s.dmem a b }
  | .readReg r => hostRegReadStep r s
  | .writeReg r v => hostRegWrite r v s
  | .observeIrq => .next s
  | .reset imem dmem => .next (State.resetWith (cellsOfList Config.imemFill Config.IMEM_WORDS imem)
      (cellsOfList Config.dmemFill Config.DMEM_BYTES dmem))

/-- What a host operation presents to the host, where `hostStep` answers a next state: reads their value, `irq` its level,
writes and reset nothing. -/
def hostValue (op : HostOp) (s : State) : Option (BitVec 32) :=
  match op with
  | .readImem i => some (readWord s.imem i)
  | .readDmem a => some ((readByte s.dmem a).setWidth 32)
  | .readReg r => some (hostRegRead r s)
  | .observeIrq => some ((BitVec.ofBool (irq s)).setWidth 32)
  | .writeImem _ _ | .writeDmem _ _ | .writeReg _ _ | .reset _ _ => none

end Sys2Proof.Machine
end

