-- ==== Sys2Proof/Machine/System.lean ====
section
/-! DEFINITION. The core and its host together: the two agents of 10_state.md R20. A host operation falls between two steps
of the core, never inside one (40_control.md R100, 70_reset_and_hazards.md R315; log 17). -/

namespace Sys2Proof.Machine

/-- A move of one of the two agents. -/
inductive Move where
  /-- the core takes one step -/
  | core
  /-- the host performs one operation -/
  | host (op : HostOp)
  deriving DecidableEq, Repr

/-- What a move does. -/
def move (m : Move) (s : State) : Result :=
  match m with
  | .core => step s
  | .host op => hostStep op s

/-- A list of moves, in order, stopping at the first fault or refusal of a host operation. -/
def moves : List Move → State → Result
  | [], s => .next s
  | m :: ms, s =>
    match move m s with
    | .next s' => moves ms s'
    | .fault r => .fault r
    | .refused r => .refused r

/-- The words of a program written to IMEM from an index on (70_reset_and_hazards.md R312, R313). -/
def loadProgram (m : Imem) (i : Nat) : List Word → Imem
  | [] => m
  | w :: ws => loadProgram (writeWord m i w) (i + 1) ws

end Sys2Proof.Machine
end

