-- ==== Sys2Proof/Safety.lean ====
section
/-! DEFINITION. The terms claims are stated in: what a safe state is (`Inv`, `PointsValid`), what a command reads and writes,
and the arithmetic of the spec written a second time, from its schoolbook forms and its pseudocode, so that a claim does not
repeat the model's own definitions. The machine does not use this file. -/

namespace Sys2Proof.Safety

open Sys2Proof.Machine

/-! ### Field arithmetic, schoolbook (41_fp.md R120, 42_fp2.md R143, 43_fp6.md R163, 44_fp12.md R183) -/

theorem modP_bound (z : Int) : (z % (primeP : Int)).toNat < primeP := by
  have hp : (0 : Int) < (primeP : Int) := by exact_mod_cast primeP_pos
  have h1 := Int.emod_lt_of_pos z hp
  have h0 := Int.emod_nonneg z (Int.ne_of_gt hp)
  omega

/-- `z mod p`, the canonical representative of any integer (00_scope.md R7). -/
def modP (z : Int) : Fp := ⟨(z % (primeP : Int)).toNat, modP_bound z⟩

/-- (0, 0) and (1, 0) of Fp2, 9 + u, and the embedding of Fp (R140, R160). -/
def zero2 : Fp2 := ⟨modP 0, modP 0⟩
def one2 : Fp2 := ⟨modP 1, modP 0⟩
def xi2 : Fp2 := ⟨modP 9, modP 1⟩
def ofFp2 (a : Fp) : Fp2 := ⟨a, modP 0⟩

def add2 (x y : Fp2) : Fp2 := ⟨modP (x.a.val + y.a.val), modP (x.b.val + y.b.val)⟩
def sub2 (x y : Fp2) : Fp2 := ⟨modP (x.a.val - y.a.val), modP (x.b.val - y.b.val)⟩
def neg2 (x : Fp2) : Fp2 := ⟨modP (-x.a.val), modP (-x.b.val)⟩

/-- (ac − bd, ad + bc) mod p (R143). -/
def mul2 (x y : Fp2) : Fp2 :=
  ⟨modP (x.a.val * y.a.val - x.b.val * y.b.val), modP (x.a.val * y.b.val + x.b.val * y.a.val)⟩

/-- k·x for an integer k. -/
def scale2 (k : Int) (x : Fp2) : Fp2 := ⟨modP (k * x.a.val), modP (k * x.b.val)⟩

def zero6 : Fp6 := ⟨zero2, zero2, zero2⟩
def one6 : Fp6 := ⟨one2, zero2, zero2⟩
/-- The element v. -/
def v6 : Fp6 := ⟨zero2, one2, zero2⟩

def add6 (x y : Fp6) : Fp6 := ⟨add2 x.c0 y.c0, add2 x.c1 y.c1, add2 x.c2 y.c2⟩
def sub6 (x y : Fp6) : Fp6 := ⟨sub2 x.c0 y.c0, sub2 x.c1 y.c1, sub2 x.c2 y.c2⟩
def neg6 (x : Fp6) : Fp6 := ⟨neg2 x.c0, neg2 x.c1, neg2 x.c2⟩

/-- The schoolbook product reduced with v³ = ξ (R163). -/
def mul6 (x y : Fp6) : Fp6 :=
  ⟨add2 (mul2 x.c0 y.c0) (mul2 xi2 (add2 (mul2 x.c1 y.c2) (mul2 x.c2 y.c1))),
   add2 (add2 (mul2 x.c0 y.c1) (mul2 x.c1 y.c0)) (mul2 xi2 (mul2 x.c2 y.c2)),
   add2 (add2 (mul2 x.c0 y.c2) (mul2 x.c1 y.c1)) (mul2 x.c2 y.c0)⟩

def zero12 : Fp12 := ⟨zero6, zero6⟩
def one12 : Fp12 := ⟨one6, zero6⟩

def add12 (x y : Fp12) : Fp12 := ⟨add6 x.c0 y.c0, add6 x.c1 y.c1⟩
def sub12 (x y : Fp12) : Fp12 := ⟨sub6 x.c0 y.c0, sub6 x.c1 y.c1⟩
def neg12 (x : Fp12) : Fp12 := ⟨neg6 x.c0, neg6 x.c1⟩

/-- The schoolbook product (ac + v·bd, ad + bc) (R183). -/
def mul12 (x y : Fp12) : Fp12 :=
  ⟨add6 (mul6 x.c0 y.c0) (mul6 v6 (mul6 x.c1 y.c1)), add6 (mul6 x.c0 y.c1) (mul6 x.c1 y.c0)⟩

/-- (a, b) ↦ (a, −b) (R190). -/
def conj12 (x : Fp12) : Fp12 := ⟨x.c0, neg6 x.c1⟩

/-- The mathematical power x^e (R195). -/
def pow12 (x : Fp12) : Nat → Fp12
  | 0 => one12
  | e + 1 => mul12 (pow12 x e) x

/-! ### The curves (45_g1.md, 46_g2.md) -/

def inf1 : G1pt := ⟨modP 0, modP 0⟩
def inf2 : G2pt := ⟨zero2, zero2⟩

/-- y² = x³ + 3 (R200). -/
def OnCurve1 (A : G1pt) : Prop := modP (A.Y.val * A.Y.val) = modP (A.X.val * A.X.val * A.X.val + 3)

/-- y² = x³ + b′ with b′ = 3/(9 + u), the fixed twist constant (R220). -/
def OnCurve2 (A : G2pt) : Prop := mul2 A.Y A.Y = add2 (mul2 (mul2 A.X A.X) A.X) coeffB2

/-- x3 = λ² − x1 − x2 and y3 = λ(x1 − x3) − y1 (R204). -/
def Third1 (lam : Fp) (A : G1pt) (x2 : Fp) (C : G1pt) : Prop :=
  C.X = modP (lam.val * lam.val - A.X.val - x2.val) ∧
  C.Y = modP (lam.val * ((A.X.val : Int) - C.X.val) - A.Y.val)

/-- λ = 3x1²/(2y1), with division by 0 giving 0 (R205). -/
def Tangent1 (A : G1pt) (lam : Fp) : Prop :=
  if A.Y = modP 0 then lam = modP 0 else modP (lam.val * (2 * A.Y.val)) = modP (3 * (A.X.val * A.X.val))

/-- C = 2A by the tangent formula (R205). -/
def Double1 (A C : G1pt) : Prop := ∃ lam, Tangent1 A lam ∧ Third1 lam A A.X C

/-- C = A + B, the cases in the order of R204; in the last, λ = (y2 − y1)/(x2 − x1). -/
def Sum1 (A B C : G1pt) : Prop :=
  if A = inf1 then C = B
  else if B = inf1 then C = A
  else if A.X = B.X then (if A.Y = B.Y then Double1 A C else C = inf1)
  else ∃ lam : Fp, modP (lam.val * ((B.X.val : Int) - A.X.val)) = modP ((B.Y.val : Int) - A.Y.val) ∧
    Third1 lam A B.X C

/-- As `Third1`, over Fp2 (R224). -/
def Third2 (lam : Fp2) (A : G2pt) (x2 : Fp2) (C : G2pt) : Prop :=
  C.X = sub2 (sub2 (mul2 lam lam) A.X) x2 ∧ C.Y = sub2 (mul2 lam (sub2 A.X C.X)) A.Y

/-- As `Tangent1`, over Fp2 (R225). -/
def Tangent2 (A : G2pt) (lam : Fp2) : Prop :=
  if A.Y = zero2 then lam = zero2 else mul2 lam (scale2 2 A.Y) = scale2 3 (mul2 A.X A.X)

/-- As `Double1` (R225). -/
def Double2 (A C : G2pt) : Prop := ∃ lam, Tangent2 A lam ∧ Third2 lam A A.X C

/-- λ = (yB − yA)/(xB − xA), with division by 0 giving 0 (R224, R242). -/
def Chord2 (A B : G2pt) (lam : Fp2) : Prop :=
  if A.X = B.X then lam = zero2 else mul2 lam (sub2 B.X A.X) = sub2 B.Y A.Y

/-- As `Sum1` (R224). -/
def Sum2 (A B C : G2pt) : Prop :=
  if A = inf2 then C = B
  else if B = inf2 then C = A
  else if A.X = B.X then (if A.Y = B.Y then Double2 A C else C = inf2)
  else ∃ lam, Chord2 A B lam ∧ Third2 lam A B.X C

/-- The loop `for i = 0 .. bitlen(k) − 1` of R207, R227 and R195, on (accumulator, base). -/
def doubleAndAdd {α : Type} (add : α → α → α) (dbl : α → α) (unit base : α) (k : Nat) : α :=
  ((List.range (bitlen k)).foldl
    (fun st i => (if k.testBit i then add st.1 st.2 else st.1, dbl st.2)) (unit, base)).1

/-! ### The pairing engine (47_pairing.md) -/

/-- `LOOP` by its numeral (R240). -/
def loopNumeral : Nat := 0x19d797039be763ba8

/-- c + m·w + y·v·w with c = λ·xR − yR, m = −λ·xA, y = yA (R241, R242). -/
def lineValue (lam : Fp2) (R : G2pt) (A : G1pt) : Fp12 :=
  ⟨⟨sub2 (mul2 lam R.X) R.Y, zero2, zero2⟩, ⟨neg2 (mul2 lam (ofFp2 A.X)), ofFp2 A.Y, zero2⟩⟩

/-- The body of the loop of R243 at bit `i`, on (R, f). -/
def millerBody (A : G1pt) (B : G2pt) (st : G2pt × Fp12) (i : Nat) : G2pt × Fp12 :=
  let f1 := mul12 (mul12 st.2 st.2) (lineDbl st.1 A)
  let R1 := g2Dbl st.1
  if loopNumeral.testBit i then (g2Add R1 B, mul12 f1 (lineAdd R1 B A)) else (R1, f1)

/-- `miller` (R243): i = 63, 62, ..., 0. -/
def millerValue (A : G1pt) (B : G2pt) : Fp12 :=
  if A = inf1 ∨ B = inf2 then one12
  else ((List.range 64).reverse.foldl (millerBody A B) (B, one12)).2

/-- `final_exp(f)` is v: t0 = conj(f)·f⁻¹, with f⁻¹ = 0 at 0; t1 = conj(t0)·t0; v = t1^HARD_EXP (R244). -/
def FinalExp (f v : Fp12) : Prop :=
  ∃ t0, (if f = zero12 then t0 = zero12 else mul12 t0 f = conj12 f) ∧ v = pow12 (mul12 (conj12 t0) t0) hardExp

/-- The product of the Miller values of the pairs (P0, W0) .. (P(n−1), W(n−1)), left to right from one (R246). -/
def pairsProduct (l : List (G1pt × G2pt)) : Fp12 :=
  l.foldl (fun acc x => mul12 acc (millerValue x.1 x.2)) one12

/-- The pairs that `PCHK n` reads hold the values `l`. -/
def PairsAre (s : State) (n : Nat) (l : List (G1pt × G2pt)) : Prop :=
  l.length = n ∧ ∀ i : RegIdx, ∀ A B, l[i.val]? = some (A, B) → s.P[i] = some A ∧ s.W[i] = some B

/-! ### What a command reads and writes -/

/-- The seven register files (10_state.md section 2). -/
inductive FileName where
  | F
  | Q
  | S
  | D
  | P
  | W
  | K
  deriving DecidableEq, Repr

/-- The valid bit of a register (10_state.md R27). -/
def validBit (s : State) (x : FileName × RegIdx) : Bool :=
  match x.1 with
  | .F => s.F[x.2].isSome
  | .Q => s.Q[x.2].isSome
  | .S => s.S[x.2].isSome
  | .D => s.D[x.2].isSome
  | .P => s.P[x.2].isSome
  | .W => s.W[x.2].isSome
  | .K => s.K[x.2].isSome

/-- P0, W0, P1, W1, ..., the registers of n pairs (40_control.md R100). -/
def pairSources (n : Nat) : List (FileName × RegIdx) :=
  (([0, 1, 2, 3, 4, 5, 6, 7] : List RegIdx).take n).flatMap fun i => [(.P, i), (.W, i)]

/-- The source registers of a command, in the order they are tested (R100 step 4), from the operand column of 30_encoding.md
R87. -/
def sourcesOf : Instr → List (FileName × RegIdx)
  | .nop | .halt | .jmp _ | .bt _ | .bf _ | .kLi _ _ | .fLi _ _ | .dOne _ | .g1Inf _ | .g1Gen _ | .g2Inf _
  | .g2Gen _ | .g1Dec _ _ _ | .g2Dec _ _ _ | .gtDec _ _ _ | .fLd _ _ | .kLd _ _ _ => []
  | .kMov _ ra => [(.K, ra)]
  | .fAdd _ ra rb | .fSub _ ra rb | .fMul _ ra rb | .fEq ra rb | .qPack _ ra rb | .g1New _ ra rb => [(.F, ra), (.F, rb)]
  | .fSqr _ ra | .fNeg _ ra | .fInv _ ra | .fIsZ ra | .fMov _ ra => [(.F, ra)]
  | .qAdd _ ra rb | .qSub _ ra rb | .qMul _ ra rb | .qEq ra rb | .g2New _ ra rb => [(.Q, ra), (.Q, rb)]
  | .qSqr _ ra | .qNeg _ ra | .qInv _ ra | .qIsZ ra | .qMov _ ra | .qMnr _ ra | .qGet _ ra _ => [(.Q, ra)]
  | .sAdd _ ra rb | .sSub _ ra rb | .sMul _ ra rb | .sEq ra rb | .dPack _ ra rb => [(.S, ra), (.S, rb)]
  | .sSqr _ ra | .sNeg _ ra | .sInv _ ra | .sIsZ ra | .sMov _ ra | .sMulV _ ra | .sGet _ ra _ => [(.S, ra)]
  | .sPack _ ra rb rc => [(.Q, ra), (.Q, rb), (.Q, rc)]
  | .dAdd _ ra rb | .dSub _ ra rb | .dMul _ ra rb | .dEq ra rb => [(.D, ra), (.D, rb)]
  | .dSqr _ ra | .dNeg _ ra | .dInv _ ra | .dIsZ ra | .dMov _ ra | .dConj _ ra | .dGet _ ra _ | .dIsOne ra
  | .fexp _ ra => [(.D, ra)]
  | .dExp _ ra rb => [(.D, ra), (.K, rb)]
  | .g1Add _ ra rb | .g1Eq ra rb => [(.P, ra), (.P, rb)]
  | .g1Dbl _ ra | .g1Neg _ ra | .g1IsInf ra | .g1Mov _ ra | .g1GetX _ ra | .g1GetY _ ra => [(.P, ra)]
  | .g1Smul _ ra rb => [(.P, ra), (.K, rb)]
  | .g2Add _ ra rb | .g2Eq ra rb => [(.W, ra), (.W, rb)]
  | .g2Dbl _ ra | .g2Neg _ ra | .g2IsInf ra | .g2Mov _ ra | .g2GetX _ ra | .g2GetY _ ra => [(.W, ra)]
  | .g2Smul _ ra rb => [(.W, ra), (.K, rb)]
  | .lineDbl _ ra rb => [(.W, ra), (.P, rb)]
  | .lineAdd _ ra rb rc => [(.W, ra), (.W, rb), (.P, rc)]
  | .mloop _ ra rb | .pair _ ra rb => [(.P, ra), (.W, rb)]
  | .pchk n | .pchke n => pairSources n.toNat
  | .g1Enc r _ => [(.P, r)]
  | .g2Enc r _ => [(.W, r)]
  | .gtEnc r _ => [(.D, r)]
  | .fSt r _ => [(.F, r)]

/-- What a completing command writes besides `pc` and the run state. -/
inductive Dest where
  /-- nothing -/
  | none
  /-- one register -/
  | reg (file : FileName) (i : RegIdx)
  /-- the flag T -/
  | flag
  /-- n bytes of DMEM from `addr` on -/
  | mem (addr : Addr) (n : Nat)
  deriving DecidableEq, Repr

/-- The destination of a command: the "written by" lists of 10_state.md R21 to R30 and the widths of 20_memory.md R64. -/
def destOf : Instr → Dest
  | .nop | .halt | .jmp _ | .bt _ | .bf _ => .none
  | .kLi rd _ | .kMov rd _ => .reg .K rd
  | .fAdd rd _ _ | .fSub rd _ _ | .fMul rd _ _ | .fSqr rd _ | .fNeg rd _ | .fInv rd _ | .fMov rd _
  | .fLi rd _ | .qGet rd _ _ | .g1GetX rd _ | .g1GetY rd _ => .reg .F rd
  | .fEq _ _ | .fIsZ _ | .qEq _ _ | .qIsZ _ | .sEq _ _ | .sIsZ _ | .dEq _ _ | .dIsZ _ | .dIsOne _
  | .g1Eq _ _ | .g1IsInf _ | .g2Eq _ _ | .g2IsInf _ | .pchk _ | .pchke _ => .flag
  | .qAdd rd _ _ | .qSub rd _ _ | .qMul rd _ _ | .qSqr rd _ | .qNeg rd _ | .qInv rd _ | .qMov rd _
  | .qMnr rd _ | .qPack rd _ _ | .sGet rd _ _ | .g2GetX rd _ | .g2GetY rd _ => .reg .Q rd
  | .sAdd rd _ _ | .sSub rd _ _ | .sMul rd _ _ | .sSqr rd _ | .sNeg rd _ | .sInv rd _ | .sMov rd _
  | .sMulV rd _ | .sPack rd _ _ _ | .dGet rd _ _ => .reg .S rd
  | .dAdd rd _ _ | .dSub rd _ _ | .dMul rd _ _ | .dSqr rd _ | .dNeg rd _ | .dInv rd _ | .dMov rd _
  | .dConj rd _ | .dPack rd _ _ | .dOne rd | .dExp rd _ _ | .lineDbl rd _ _ | .lineAdd rd _ _ _
  | .mloop rd _ _ | .fexp rd _ | .pair rd _ _ => .reg .D rd
  | .g1New rd _ _ | .g1Inf rd | .g1Gen rd | .g1Add rd _ _ | .g1Dbl rd _ | .g1Neg rd _ | .g1Smul rd _ _
  | .g1Mov rd _ => .reg .P rd
  | .g2New rd _ _ | .g2Inf rd | .g2Gen rd | .g2Add rd _ _ | .g2Dbl rd _ | .g2Neg rd _ | .g2Smul rd _ _
  | .g2Mov rd _ => .reg .W rd
  | .g1Enc _ addr => .mem addr 64
  | .g1Dec r _ _ => .reg .P r
  | .g2Enc _ addr => .mem addr 128
  | .g2Dec r _ _ => .reg .W r
  | .gtEnc _ addr => .mem addr 384
  | .gtDec r _ _ => .reg .D r
  | .fLd r _ => .reg .F r
  | .fSt _ addr => .mem addr 32
  | .kLd r _ _ => .reg .K r

/-- A command that only moves `pc` or the run state. -/
def isControl (i : Instr) : Bool := destOf i == .none

/-- The register file `f` is unchanged. -/
def fileSame (f : FileName) (s t : State) : Prop :=
  match f with
  | .F => t.F = s.F
  | .Q => t.Q = s.Q
  | .S => t.S = s.S
  | .D => t.D = s.D
  | .P => t.P = s.P
  | .W => t.W = s.W
  | .K => t.K = s.K

/-- In the register file `f` at most register `i` changed, and it is valid now. -/
def fileSameBut (f : FileName) (i : RegIdx) (s t : State) : Prop :=
  match f with
  | .F => ∃ v, t.F = s.F.set i (some v)
  | .Q => ∃ v, t.Q = s.Q.set i (some v)
  | .S => ∃ v, t.S = s.S.set i (some v)
  | .D => ∃ v, t.D = s.D.set i (some v)
  | .P => ∃ v, t.P = s.P.set i (some v)
  | .W => ∃ v, t.W = s.W.set i (some v)
  | .K => ∃ v, t.K = s.K.set i (some v)

/-- The state of a raised fault: exactly the writes of 60_exceptions.md R290. -/
def faultState (c : Cause) (v : BitVec 32) (s : State) : State :=
  { s with cause := c, epc := s.pc, info := v, run := .fault }

/-! ### Memory as the spec words it -/

/-- `int(MemRead(a, n))`: the byte at the lowest address is the most significant (00_scope.md R7, 20_memory.md R61). -/
def intAt (m : Dmem) (a n : Nat) : Nat :=
  ((List.range n).map fun k => (readByte m (a + k)).toNat * 256 ^ (n - 1 - k)).sum

/-- Byte `k` of a sequence of 32-byte big-endian fields (48_codec.md R260). -/
def fieldsByte (fields : List Fp) (k : Nat) : Byte :=
  BitVec.ofNat 8 ((match fields[k / 32]? with | some v => v.val | none => 0) / 256 ^ (31 - k % 32))

def fieldsOf2 (x : Fp2) : List Fp := [x.a, x.b]
def fieldsOfG1 (A : G1pt) : List Fp := [A.X, A.Y]
def fieldsOfG2 (A : G2pt) : List Fp := [A.X.a, A.X.b, A.Y.a, A.Y.b]
def fieldsOf12 (x : Fp12) : List Fp :=
  fieldsOf2 x.c0.c0 ++ fieldsOf2 x.c0.c1 ++ fieldsOf2 x.c0.c2 ++
    fieldsOf2 x.c1.c0 ++ fieldsOf2 x.c1.c1 ++ fieldsOf2 x.c1.c2

/-- The integer of the 32-byte field at an address. -/
def fieldAt (m : Dmem) (a : Nat) : Nat := intAt m a 32

/-- Two fields at an address as an Fp2 value; used where both are below p. -/
def field2At (m : Dmem) (a : Nat) : Fp2 := ⟨modP (fieldAt m a), modP (fieldAt m (a + 32))⟩

/-- Six fields at an address as an Fp6 value; used where all are below p. -/
def field6At (m : Dmem) (a : Nat) : Fp6 := ⟨field2At m a, field2At m (a + 64), field2At m (a + 128)⟩

/-- All `n` fields from an address on are canonical. -/
def FieldsCanonical (m : Dmem) (a n : Nat) : Prop := ∀ k, k < n → fieldAt m (a + 32 * k) < primeP

/-- Field `k` is the first of the fields from an address on that spells an integer ≥ p. -/
def FirstBadField (m : Dmem) (a k : Nat) : Prop :=
  primeP ≤ fieldAt m (a + 32 * k) ∧ FieldsCanonical m a k

/-! ### The opcode table as the spec prints it (30_encoding.md R87) -/

/-- The extra condition of a row. -/
inductive Extra where
  | none
  | rbAtMost (n : Nat)
  | immAtMost (n : Nat)
  | lenAtMost (n : Nat)
  deriving DecidableEq, Repr

/-- A row of R87: mnemonic, match, mask, extra condition. -/
structure TableRow where
  mnemonic : String
  value : Word
  mask : Word
  extra : Extra
  deriving DecidableEq, Repr

def tableRows0 : List TableRow :=
  [⟨"NOP", 0x00000000, 0xFFFFFFFF, .none⟩,
   ⟨"HALT", 0x01000000, 0xFFFFFFFF, .none⟩,
   ⟨"JMP", 0x02000000, 0xFFFF0000, .none⟩,
   ⟨"BT", 0x03000000, 0xFFFF0000, .none⟩,
   ⟨"BF", 0x04000000, 0xFFFF0000, .none⟩,
   ⟨"K.LI", 0x08000000, 0xFFE30000, .none⟩,
   ⟨"K.MOV", 0x09000000, 0xFFE38FFF, .none⟩]

def tableRows1 : List TableRow :=
  [⟨"F.ADD", 0x10000000, 0xFFE38E3F, .none⟩,
   ⟨"F.SUB", 0x11000000, 0xFFE38E3F, .none⟩,
   ⟨"F.MUL", 0x12000000, 0xFFE38E3F, .none⟩,
   ⟨"F.SQR", 0x13000000, 0xFFE38FFF, .none⟩,
   ⟨"F.NEG", 0x14000000, 0xFFE38FFF, .none⟩,
   ⟨"F.INV", 0x15000000, 0xFFE38FFF, .none⟩,
   ⟨"F.EQ", 0x16000000, 0xFFFF8E3F, .none⟩,
   ⟨"F.ISZ", 0x17000000, 0xFFFF8FFF, .none⟩,
   ⟨"F.MOV", 0x18000000, 0xFFE38FFF, .none⟩,
   ⟨"F.LI", 0x19000000, 0xFFE30000, .none⟩]

def tableRows2 : List TableRow :=
  [⟨"Q.ADD", 0x20000000, 0xFFE38E3F, .none⟩,
   ⟨"Q.SUB", 0x21000000, 0xFFE38E3F, .none⟩,
   ⟨"Q.MUL", 0x22000000, 0xFFE38E3F, .none⟩,
   ⟨"Q.SQR", 0x23000000, 0xFFE38FFF, .none⟩,
   ⟨"Q.NEG", 0x24000000, 0xFFE38FFF, .none⟩,
   ⟨"Q.INV", 0x25000000, 0xFFE38FFF, .none⟩,
   ⟨"Q.EQ", 0x26000000, 0xFFFF8E3F, .none⟩,
   ⟨"Q.ISZ", 0x27000000, 0xFFFF8FFF, .none⟩,
   ⟨"Q.MOV", 0x28000000, 0xFFE38FFF, .none⟩,
   ⟨"Q.MNR", 0x29000000, 0xFFE38FFF, .none⟩,
   ⟨"Q.PACK", 0x2A000000, 0xFFE38E3F, .none⟩,
   ⟨"Q.GET", 0x2B000000, 0xFFE38FBF, .none⟩]

def tableRows3 : List TableRow :=
  [⟨"S.ADD", 0x30000000, 0xFFE38E3F, .none⟩,
   ⟨"S.SUB", 0x31000000, 0xFFE38E3F, .none⟩,
   ⟨"S.MUL", 0x32000000, 0xFFE38E3F, .none⟩,
   ⟨"S.SQR", 0x33000000, 0xFFE38FFF, .none⟩,
   ⟨"S.NEG", 0x34000000, 0xFFE38FFF, .none⟩,
   ⟨"S.INV", 0x35000000, 0xFFE38FFF, .none⟩,
   ⟨"S.EQ", 0x36000000, 0xFFFF8E3F, .none⟩,
   ⟨"S.ISZ", 0x37000000, 0xFFFF8FFF, .none⟩,
   ⟨"S.MOV", 0x38000000, 0xFFE38FFF, .none⟩,
   ⟨"S.MULV", 0x39000000, 0xFFE38FFF, .none⟩,
   ⟨"S.PACK", 0x3A000000, 0xFFE38E38, .none⟩,
   ⟨"S.GET", 0x3B000000, 0xFFE38F3F, .rbAtMost 2⟩]

def tableRows4 : List TableRow :=
  [⟨"D.ADD", 0x40000000, 0xFFE38E3F, .none⟩,
   ⟨"D.SUB", 0x41000000, 0xFFE38E3F, .none⟩,
   ⟨"D.MUL", 0x42000000, 0xFFE38E3F, .none⟩,
   ⟨"D.SQR", 0x43000000, 0xFFE38FFF, .none⟩,
   ⟨"D.NEG", 0x44000000, 0xFFE38FFF, .none⟩,
   ⟨"D.INV", 0x45000000, 0xFFE38FFF, .none⟩,
   ⟨"D.EQ", 0x46000000, 0xFFFF8E3F, .none⟩,
   ⟨"D.ISZ", 0x47000000, 0xFFFF8FFF, .none⟩,
   ⟨"D.MOV", 0x48000000, 0xFFE38FFF, .none⟩,
   ⟨"D.CONJ", 0x49000000, 0xFFE38FFF, .none⟩,
   ⟨"D.PACK", 0x4A000000, 0xFFE38E3F, .none⟩,
   ⟨"D.GET", 0x4B000000, 0xFFE38FBF, .none⟩,
   ⟨"D.ONE", 0x4C000000, 0xFFE3FFFF, .none⟩,
   ⟨"D.ISONE", 0x4D000000, 0xFFFF8FFF, .none⟩,
   ⟨"D.EXP", 0x4E000000, 0xFFE38E3F, .none⟩]

def tableRows5 : List TableRow :=
  [⟨"G1.NEW", 0x50000000, 0xFFE38E3F, .none⟩,
   ⟨"G1.INF", 0x51000000, 0xFFE3FFFF, .none⟩,
   ⟨"G1.GEN", 0x52000000, 0xFFE3FFFF, .none⟩,
   ⟨"G1.ADD", 0x53000000, 0xFFE38E3F, .none⟩,
   ⟨"G1.DBL", 0x54000000, 0xFFE38FFF, .none⟩,
   ⟨"G1.NEG", 0x55000000, 0xFFE38FFF, .none⟩,
   ⟨"G1.SMUL", 0x56000000, 0xFFE38E3F, .none⟩,
   ⟨"G1.EQ", 0x57000000, 0xFFFF8E3F, .none⟩,
   ⟨"G1.ISINF", 0x58000000, 0xFFFF8FFF, .none⟩,
   ⟨"G1.MOV", 0x59000000, 0xFFE38FFF, .none⟩,
   ⟨"G1.GETX", 0x5A000000, 0xFFE38FFF, .none⟩,
   ⟨"G1.GETY", 0x5B000000, 0xFFE38FFF, .none⟩]

def tableRows6 : List TableRow :=
  [⟨"G2.NEW", 0x60000000, 0xFFE38E3F, .none⟩,
   ⟨"G2.INF", 0x61000000, 0xFFE3FFFF, .none⟩,
   ⟨"G2.GEN", 0x62000000, 0xFFE3FFFF, .none⟩,
   ⟨"G2.ADD", 0x63000000, 0xFFE38E3F, .none⟩,
   ⟨"G2.DBL", 0x64000000, 0xFFE38FFF, .none⟩,
   ⟨"G2.NEG", 0x65000000, 0xFFE38FFF, .none⟩,
   ⟨"G2.SMUL", 0x66000000, 0xFFE38E3F, .none⟩,
   ⟨"G2.EQ", 0x67000000, 0xFFFF8E3F, .none⟩,
   ⟨"G2.ISINF", 0x68000000, 0xFFFF8FFF, .none⟩,
   ⟨"G2.MOV", 0x69000000, 0xFFE38FFF, .none⟩,
   ⟨"G2.GETX", 0x6A000000, 0xFFE38FFF, .none⟩,
   ⟨"G2.GETY", 0x6B000000, 0xFFE38FFF, .none⟩]

def tableRows7 : List TableRow :=
  [⟨"LINE.DBL", 0x70000000, 0xFFE38E3F, .none⟩,
   ⟨"LINE.ADD", 0x71000000, 0xFFE38E38, .none⟩,
   ⟨"MLOOP", 0x72000000, 0xFFE38E3F, .none⟩,
   ⟨"FEXP", 0x73000000, 0xFFE38FFF, .none⟩,
   ⟨"PAIR", 0x74000000, 0xFFE38E3F, .none⟩,
   ⟨"PCHK", 0x75000000, 0xFFFF0000, .immAtMost 8⟩,
   ⟨"PCHKE", 0x76000000, 0xFFFF0000, .immAtMost 8⟩]

def tableRows8 : List TableRow :=
  [⟨"G1.ENC", 0x80000000, 0xFF0001FF, .none⟩,
   ⟨"G1.DEC", 0x81000000, 0xFF000000, .none⟩,
   ⟨"G2.ENC", 0x82000000, 0xFF0001FF, .none⟩,
   ⟨"G2.DEC", 0x83000000, 0xFF000000, .none⟩,
   ⟨"GT.ENC", 0x84000000, 0xFF0001FF, .none⟩,
   ⟨"GT.DEC", 0x85000000, 0xFF000000, .none⟩,
   ⟨"F.LD", 0x86000000, 0xFF0001FF, .none⟩,
   ⟨"F.ST", 0x87000000, 0xFF0001FF, .none⟩,
   ⟨"K.LD", 0x88000000, 0xFF000000, .lenAtMost 384⟩]

/-- The 96 rows, by opcode family. -/
def tableRows : List TableRow :=
  tableRows0 ++ tableRows1 ++ tableRows2 ++ tableRows3 ++ tableRows4 ++ tableRows5 ++ tableRows6 ++ tableRows7 ++ tableRows8

/-- The extra condition holds of a word: bits 11:6, 15:0 and 8:0 as unsigned integers. -/
def extraHolds (e : Extra) (w : Word) : Bool :=
  match e with
  | .none => true
  | .rbAtMost n => decide (w.toNat / 2 ^ 6 % 2 ^ 6 ≤ n)
  | .immAtMost n => decide (w.toNat % 2 ^ 16 ≤ n)
  | .lenAtMost n => decide (w.toNat % 2 ^ 9 ≤ n)

/-- `(w & mask) = match` and the extra condition. -/
def rowMatches (r : TableRow) (w : Word) : Bool := w &&& r.mask == r.value && extraHolds r.extra w

/-- The mnemonic of the row a constructor stands for (R87). -/
def nameOf : Instr → String
  | .nop => "NOP"
  | .halt => "HALT"
  | .jmp _ => "JMP"
  | .bt _ => "BT"
  | .bf _ => "BF"
  | .kLi _ _ => "K.LI"
  | .kMov _ _ => "K.MOV"
  | .fAdd _ _ _ => "F.ADD"
  | .fSub _ _ _ => "F.SUB"
  | .fMul _ _ _ => "F.MUL"
  | .fSqr _ _ => "F.SQR"
  | .fNeg _ _ => "F.NEG"
  | .fInv _ _ => "F.INV"
  | .fEq _ _ => "F.EQ"
  | .fIsZ _ => "F.ISZ"
  | .fMov _ _ => "F.MOV"
  | .fLi _ _ => "F.LI"
  | .qAdd _ _ _ => "Q.ADD"
  | .qSub _ _ _ => "Q.SUB"
  | .qMul _ _ _ => "Q.MUL"
  | .qSqr _ _ => "Q.SQR"
  | .qNeg _ _ => "Q.NEG"
  | .qInv _ _ => "Q.INV"
  | .qEq _ _ => "Q.EQ"
  | .qIsZ _ => "Q.ISZ"
  | .qMov _ _ => "Q.MOV"
  | .qMnr _ _ => "Q.MNR"
  | .qPack _ _ _ => "Q.PACK"
  | .qGet _ _ _ => "Q.GET"
  | .sAdd _ _ _ => "S.ADD"
  | .sSub _ _ _ => "S.SUB"
  | .sMul _ _ _ => "S.MUL"
  | .sSqr _ _ => "S.SQR"
  | .sNeg _ _ => "S.NEG"
  | .sInv _ _ => "S.INV"
  | .sEq _ _ => "S.EQ"
  | .sIsZ _ => "S.ISZ"
  | .sMov _ _ => "S.MOV"
  | .sMulV _ _ => "S.MULV"
  | .sPack _ _ _ _ => "S.PACK"
  | .sGet _ _ _ => "S.GET"
  | .dAdd _ _ _ => "D.ADD"
  | .dSub _ _ _ => "D.SUB"
  | .dMul _ _ _ => "D.MUL"
  | .dSqr _ _ => "D.SQR"
  | .dNeg _ _ => "D.NEG"
  | .dInv _ _ => "D.INV"
  | .dEq _ _ => "D.EQ"
  | .dIsZ _ => "D.ISZ"
  | .dMov _ _ => "D.MOV"
  | .dConj _ _ => "D.CONJ"
  | .dPack _ _ _ => "D.PACK"
  | .dGet _ _ _ => "D.GET"
  | .dOne _ => "D.ONE"
  | .dIsOne _ => "D.ISONE"
  | .dExp _ _ _ => "D.EXP"
  | .g1New _ _ _ => "G1.NEW"
  | .g1Inf _ => "G1.INF"
  | .g1Gen _ => "G1.GEN"
  | .g1Add _ _ _ => "G1.ADD"
  | .g1Dbl _ _ => "G1.DBL"
  | .g1Neg _ _ => "G1.NEG"
  | .g1Smul _ _ _ => "G1.SMUL"
  | .g1Eq _ _ => "G1.EQ"
  | .g1IsInf _ => "G1.ISINF"
  | .g1Mov _ _ => "G1.MOV"
  | .g1GetX _ _ => "G1.GETX"
  | .g1GetY _ _ => "G1.GETY"
  | .g2New _ _ _ => "G2.NEW"
  | .g2Inf _ => "G2.INF"
  | .g2Gen _ => "G2.GEN"
  | .g2Add _ _ _ => "G2.ADD"
  | .g2Dbl _ _ => "G2.DBL"
  | .g2Neg _ _ => "G2.NEG"
  | .g2Smul _ _ _ => "G2.SMUL"
  | .g2Eq _ _ => "G2.EQ"
  | .g2IsInf _ => "G2.ISINF"
  | .g2Mov _ _ => "G2.MOV"
  | .g2GetX _ _ => "G2.GETX"
  | .g2GetY _ _ => "G2.GETY"
  | .lineDbl _ _ _ => "LINE.DBL"
  | .lineAdd _ _ _ _ => "LINE.ADD"
  | .mloop _ _ _ => "MLOOP"
  | .fexp _ _ => "FEXP"
  | .pair _ _ _ => "PAIR"
  | .pchk _ => "PCHK"
  | .pchke _ => "PCHKE"
  | .g1Enc _ _ => "G1.ENC"
  | .g1Dec _ _ _ => "G1.DEC"
  | .g2Enc _ _ => "G2.ENC"
  | .g2Dec _ _ _ => "G2.DEC"
  | .gtEnc _ _ => "GT.ENC"
  | .gtDec _ _ _ => "GT.DEC"
  | .fLd _ _ => "F.LD"
  | .fSt _ _ => "F.ST"
  | .kLd _ _ _ => "K.LD"

/-- The opcode bytes that are in no row (30_encoding.md R88). -/
def unassignedOpcode (op : Nat) : Bool :=
  (decide (0x05 ≤ op) && decide (op ≤ 0x07)) || (decide (0x0A ≤ op) && decide (op ≤ 0x0F)) ||
  (decide (0x1A ≤ op) && decide (op ≤ 0x1F)) || (decide (0x2C ≤ op) && decide (op ≤ 0x2F)) ||
  (decide (0x3C ≤ op) && decide (op ≤ 0x3F)) || op == 0x4F || (decide (0x5C ≤ op) && decide (op ≤ 0x5F)) ||
  (decide (0x6C ≤ op) && decide (op ≤ 0x6F)) || (decide (0x77 ≤ op) && decide (op ≤ 0x7F)) ||
  (decide (0x89 ≤ op) && decide (op ≤ 0xFF))

/-! ### Shapes of the command rules

Each says, for one command at every operand: the word of the command (its format and opcode), the effect when its sources are
valid, with everything else left as it was, and the fault when a source is not. -/

/-- Format R (30_encoding.md R81). -/
def formatR (op rd ra rb rc : Nat) : Nat := op * 2 ^ 24 + rd * 2 ^ 18 + ra * 2 ^ 12 + rb * 2 ^ 6 + rc
/-- Format I (R82). -/
def formatI (op rd imm : Nat) : Nat := op * 2 ^ 24 + rd * 2 ^ 18 + imm
/-- Format M (R83). -/
def formatM (op r addr len : Nat) : Nat := op * 2 ^ 24 + r * 2 ^ 21 + addr * 2 ^ 9 + len

/-- The register file of a state as a `File` reads it. -/
def regOfFile {α : Type} (fl : File α) (s : State) (i : RegIdx) : Option α := (fl.get s)[i]

/-- The state a command that writes one register leaves: that register, its valid bit and `pc`. -/
def wroteReg {α : Type} (fl : File α) (rd : RegIdx) (v : α) (s : State) : State :=
  { fl.put s ((fl.get s).set rd (some v)) with pc := s.pc + 1 }

/-- The state a test command leaves: T and `pc`. -/
def wroteT (b : Bool) (s : State) : State := { s with T := b, pc := s.pc + 1 }

/-- A command `rd, ra`: what it writes satisfies `post`. -/
def RuleUnary {α γ : Type} (op : Nat) (src : File α) (dst : File γ) (mk : RegIdx → RegIdx → Instr)
    (post : α → γ → Prop) : Prop :=
  ∀ rd ra : RegIdx, (encode (mk rd ra)).toNat = formatR op rd ra 0 0 ∧ ∀ s : State,
    (∀ a, regOfFile src s ra = some a →
      ∃ v, post a v ∧ exec (mk rd ra) s = .next (wroteReg dst rd v s)) ∧
    (regOfFile src s ra = none →
      exec (mk rd ra) s = .next (faultState .uninitRegister (encode (mk rd ra)) s))

/-- A command `rd, ra, rb`. -/
def RuleBinary {α β γ : Type} (op : Nat) (srcA : File α) (srcB : File β) (dst : File γ)
    (mk : RegIdx → RegIdx → RegIdx → Instr) (post : α → β → γ → Prop) : Prop :=
  ∀ rd ra rb : RegIdx, (encode (mk rd ra rb)).toNat = formatR op rd ra rb 0 ∧ ∀ s : State,
    (∀ a b, regOfFile srcA s ra = some a → regOfFile srcB s rb = some b →
      ∃ v, post a b v ∧ exec (mk rd ra rb) s = .next (wroteReg dst rd v s)) ∧
    (regOfFile srcA s ra = none ∨ regOfFile srcB s rb = none →
      exec (mk rd ra rb) s = .next (faultState .uninitRegister (encode (mk rd ra rb)) s))

/-- A command `rd, ra, rb, rc`. -/
def RuleTernary {α β δ γ : Type} (op : Nat) (srcA : File α) (srcB : File β) (srcC : File δ) (dst : File γ)
    (mk : RegIdx → RegIdx → RegIdx → RegIdx → Instr) (post : α → β → δ → γ → Prop) : Prop :=
  ∀ rd ra rb rc : RegIdx, (encode (mk rd ra rb rc)).toNat = formatR op rd ra rb rc ∧ ∀ s : State,
    (∀ a b c, regOfFile srcA s ra = some a → regOfFile srcB s rb = some b → regOfFile srcC s rc = some c →
      ∃ v, post a b c v ∧ exec (mk rd ra rb rc) s = .next (wroteReg dst rd v s)) ∧
    (regOfFile srcA s ra = none ∨ regOfFile srcB s rb = none ∨ regOfFile srcC s rc = none →
      exec (mk rd ra rb rc) s = .next (faultState .uninitRegister (encode (mk rd ra rb rc)) s))

/-- A command `rd, ra, rb` that makes a point of two coordinates where they satisfy the curve equation. -/
def RuleNew {α γ : Type} (op : Nat) (src : File α) (dst : File γ) (mk : RegIdx → RegIdx → RegIdx → Instr)
    (point : α → α → γ) (onCurve : γ → Prop) : Prop :=
  ∀ rd ra rb : RegIdx, (encode (mk rd ra rb)).toNat = formatR op rd ra rb 0 ∧ ∀ s : State,
    (∀ x y, regOfFile src s ra = some x → regOfFile src s rb = some y →
      (onCurve (point x y) → exec (mk rd ra rb) s = .next (wroteReg dst rd (point x y) s)) ∧
      (¬ onCurve (point x y) →
        exec (mk rd ra rb) s = .next (faultState .invalidPoint (encode (mk rd ra rb)) s))) ∧
    (regOfFile src s ra = none ∨ regOfFile src s rb = none →
      exec (mk rd ra rb) s = .next (faultState .uninitRegister (encode (mk rd ra rb)) s))

/-- A command `rd` that writes a constant. -/
def RuleConst {γ : Type} (op : Nat) (dst : File γ) (mk : RegIdx → Instr) (v : γ) : Prop :=
  ∀ rd : RegIdx, (encode (mk rd)).toNat = formatR op rd 0 0 0 ∧ ∀ s : State,
    exec (mk rd) s = .next (wroteReg dst rd v s)

/-- A command `rd, imm`. -/
def RuleImm {γ : Type} (op : Nat) (dst : File γ) (mk : RegIdx → BitVec 16 → Instr) (post : BitVec 16 → γ → Prop) : Prop :=
  ∀ (rd : RegIdx) (imm : BitVec 16), (encode (mk rd imm)).toNat = formatI op rd imm.toNat ∧ ∀ s : State,
    ∃ v, post imm v ∧ exec (mk rd imm) s = .next (wroteReg dst rd v s)

/-- A command `rd, ra, sel`: component `sel` of the source; a selector that names none is no legal word. -/
def RuleSelect {α γ : Type} (op count : Nat) (src : File α) (dst : File γ)
    (mk : RegIdx → RegIdx → BitVec 6 → Instr) (part : α → Nat → Option γ) : Prop :=
  ∀ (rd ra : RegIdx) (sel : BitVec 6), (encode (mk rd ra sel)).toNat = formatR op rd ra sel.toNat 0 ∧
    (sel.toNat < count → ∀ s : State,
      (∀ a, regOfFile src s ra = some a → ∃ v, part a sel.toNat = some v ∧
        exec (mk rd ra sel) s = .next (wroteReg dst rd v s)) ∧
      (regOfFile src s ra = none →
        exec (mk rd ra sel) s = .next (faultState .uninitRegister (encode (mk rd ra sel)) s))) ∧
    (count ≤ sel.toNat → decode (encode (mk rd ra sel)) = .error .selectorOutOfRange)

/-- A test command `ra`. -/
def RuleTest1 {α : Type} (op : Nat) (src : File α) (mk : RegIdx → Instr) (p : α → Bool) : Prop :=
  ∀ ra : RegIdx, (encode (mk ra)).toNat = formatR op 0 ra 0 0 ∧ ∀ s : State,
    (∀ a, regOfFile src s ra = some a → exec (mk ra) s = .next (wroteT (p a) s)) ∧
    (regOfFile src s ra = none →
      exec (mk ra) s = .next (faultState .uninitRegister (encode (mk ra)) s))

/-- A test command `ra, rb`. -/
def RuleTest2 {α : Type} (op : Nat) (src : File α) (mk : RegIdx → RegIdx → Instr) (p : α → α → Bool) : Prop :=
  ∀ ra rb : RegIdx, (encode (mk ra rb)).toNat = formatR op 0 ra rb 0 ∧ ∀ s : State,
    (∀ a b, regOfFile src s ra = some a → regOfFile src s rb = some b →
      exec (mk ra rb) s = .next (wroteT (p a b) s)) ∧
    (regOfFile src s ra = none ∨ regOfFile src s rb = none →
      exec (mk ra rb) s = .next (faultState .uninitRegister (encode (mk ra rb)) s))

/-- A command that stores `n` bytes, `fields` big-endian, from `addr` on: source test first, then bounds; every byte outside
the stored ones reads as before (48_codec.md R270, 20_memory.md R62). -/
def RuleStore {α : Type} (op n : Nat) (src : File α) (mk : RegIdx → Addr → Instr) (fields : α → List Fp) : Prop :=
  ∀ (r : RegIdx) (addr : Addr), (encode (mk r addr)).toNat = formatM op r addr.toNat 0 ∧ ∀ s : State,
    (regOfFile src s r = none →
      exec (mk r addr) s = .next (faultState .uninitRegister (encode (mk r addr)) s)) ∧
    (∀ v, regOfFile src s r = some v → 4096 < addr.toNat + n →
      exec (mk r addr) s = .next (faultState .dmemAccessFault (addr.setWidth 32) s)) ∧
    (∀ v, regOfFile src s r = some v → addr.toNat + n ≤ 4096 → Memory.wf s.dmem = true →
      ∃ m, exec (mk r addr) s = .next { s with dmem := m, pc := s.pc + 1 } ∧ ∀ b,
        readByte m b = if addr.toNat ≤ b ∧ b < addr.toNat + n then fieldsByte (fields v) (b - addr.toNat)
          else readByte s.dmem b)

/-- A decode of `n` bytes: the tests in the order of 48_codec.md R270, then one register written. -/
def RuleDecode {γ : Type} (op n : Nat) (dst : File γ) (mk : RegIdx → Addr → BitVec 9 → Instr)
    (value : Dmem → Nat → γ) (valid : γ → Prop) : Prop :=
  ∀ (r : RegIdx) (addr : Addr) (len : BitVec 9),
    (encode (mk r addr len)).toNat = formatM op r addr.toNat len.toNat ∧ ∀ s : State,
    (len.toNat ≠ n →
      exec (mk r addr len) s = .next (faultState .invalidEncoding (len.setWidth 32) s)) ∧
    (len.toNat = n → 4096 < addr.toNat + n →
      exec (mk r addr len) s = .next (faultState .dmemAccessFault (addr.setWidth 32) s)) ∧
    (len.toNat = n → addr.toNat + n ≤ 4096 →
      (∀ k, k < n / 32 → FirstBadField s.dmem addr.toNat k →
        exec (mk r addr len) s =
          .next (faultState .invalidEncoding (BitVec.ofNat 32 (addr.toNat + 32 * k)) s)) ∧
      (FieldsCanonical s.dmem addr.toNat (n / 32) →
        (¬ valid (value s.dmem addr.toNat) →
          exec (mk r addr len) s = .next (faultState .invalidPoint (addr.setWidth 32) s)) ∧
        (valid (value s.dmem addr.toNat) →
          exec (mk r addr len) s = .next (wroteReg dst r (value s.dmem addr.toNat) s))))

/-! ### Safe states -/

/-- A stored point is infinity or on its curve (10_state.md R44). -/
def PointsValid (s : State) : Prop :=
  (∀ i : RegIdx, ∀ A, s.P[i] = some A → A = inf1 ∨ OnCurve1 A) ∧
  (∀ i : RegIdx, ∀ B, s.W[i] = some B → B = inf2 ∨ OnCurve2 B)

/-- `CAUSE`, `EPC` and `INFO` describe the fault that ended the latest launch, or hold 0 (60_exceptions.md R290, R294): in
FAULT there is one; in RUN and HALT there is none; where there is none `EPC` and `INFO` are 0; where there is one `EPC` is the
`pc`, past IMEM exactly for a fetch fault; a HALT stands inside IMEM. -/
def FaultRecord (s : State) : Prop :=
  (s.run = .fault → s.cause ≠ .noFault) ∧
  (s.run = .run ∨ s.run = .halt → s.cause = .noFault) ∧
  (s.cause = .noFault → s.epc = 0 ∧ s.info = 0) ∧
  (s.cause ≠ .noFault → s.epc = s.pc ∧ (s.cause = .imemFetchFault ↔ 1024 ≤ s.epc.toNat)) ∧
  (s.cause = .imemFetchFault → s.info.toNat = s.epc.toNat) ∧
  (s.run = .halt → s.pc.toNat < 1024)

/-- The invariant of the core and its host: both memories are in canonical form and the fault record is coherent. -/
def Inv (s : State) : Prop := Memory.wf s.dmem = true ∧ Imem.wf s.imem = true ∧ FaultRecord s

/-- A safe run: from `s`, `n` steps of the core end in a state, with no refusal and no host fault on the way. -/
def RunsTo (n : Nat) (s t : State) : Prop := Host.Core.run Sys2Proof.core n s = .next t

end Sys2Proof.Safety
end

