-- ==== Sys2Proof/Certificates/Slice0/Obligations.lean ====
section
/-! DEFINITION. What is claimed of the model, for the provers. The terms are those of Sys2Proof/Safety.lean. -/

section

open Sys2Proof Sys2Proof.Machine Sys2Proof.Safety

/-- The worked encodings of 30_encoding.md R87, and one word for each family the table leaves out. -/
def Obligations.SampleWordsDecode : Prop :=
  decode 0x100420C0 = .ok (.fAdd 1 2 3) ∧ decode 0x71001083 = .ok (.lineAdd 0 1 2 3) ∧
  decode 0x3B105080 = .ok (.sGet 4 5 2) ∧ decode 0x2B042040 = .ok (.qGet 1 2 1) ∧
  decode 0x4C140000 = .ok (.dOne 5) ∧ decode 0x080C0005 = .ok (.kLi 3 5) ∧ decode 0x03000007 = .ok (.bt 7) ∧
  decode 0x75000002 = .ok (.pchk 2) ∧ decode 0x01000000 = .ok .halt ∧
  decode 0x81420040 = .ok (.g1Dec 2 0x100 64) ∧ decode 0x84240000 = .ok (.gtEnc 1 0x200) ∧
  decode 0x86FFC000 = .ok (.fLd 7 4064) ∧ decode 0x88008020 = .ok (.kLd 0 0x40 32) ∧
  decode 0x560C10C0 = .ok (.g1Smul 3 1 3) ∧ decode 0x60000040 = .ok (.g2New 0 0 1)

/-- No operand bit is dropped: decoding gives back every well-formed command, every operand included (30_encoding.md R81 to
R86). -/
def Obligations.DecodeEncodeRoundTrip : Prop := ∀ i : Instr, WellFormed i → decode (encode i) = .ok i

/-- No bit of a word is ignored: a word that decodes is the one encoding of its command (30_encoding.md R85, R89). -/
def Obligations.EncodeDecodeRoundTrip : Prop :=
  ∀ (w : Word) (i : Instr), decode w = .ok i → WellFormed i ∧ encode i = w

/-- The opcode map (30_encoding.md R87): a word decodes to a command of a row exactly when `(w & mask) = match` and the row's
extra condition holds, and no word matches two rows. -/
def Obligations.DecodeAcceptsExactlyTheTable : Prop :=
  (∀ (w : Word) (r : TableRow), r ∈ tableRows →
    (rowMatches r w = true ↔ ∃ i, decode w = .ok i ∧ nameOf i = r.mnemonic)) ∧
  (∀ (w : Word) (i : Instr), decode w = .ok i → ∃ r ∈ tableRows, rowMatches r w = true) ∧
  (∀ (w : Word) (r r' : TableRow), r ∈ tableRows → r' ∈ tableRows → rowMatches r w = true → rowMatches r' w = true →
    r = r')

/-- The illegal words of 30_encoding.md R88: every word that matches no row of R87, every word of a command's opcode that does
not match its row, unassigned opcode bytes whatever the other bits, and the examples of the rule. The names of the reasons are
the model's. -/
def Obligations.IllegalWordsAreRejected : Prop :=
  (∀ w : Word, (∀ r ∈ tableRows, rowMatches r w = false) → (∃ e, decode w = .error e) ∧
    ∀ s : State, s.run = .run → s.pc.toNat < 1024 → readWord s.imem s.pc.toNat = w →
      step s = .next (faultState .illegalInstruction w s)) ∧
  (∀ (w : Word) (r : TableRow), r ∈ tableRows → opField w = opField r.value → rowMatches r w = false →
    ∃ e, decode w = .error e) ∧
  (∀ w : Word, unassignedOpcode (opField w).toNat = true → decode w = .error .unknownOpcode) ∧
  decode 0x10200000 = .error .registerOutOfRange ∧ decode 0x3B0000C0 = .error .selectorOutOfRange ∧
  decode 0x05000000 = .error .unknownOpcode ∧ decode 0x00000001 = .error .unusedFieldNotZero ∧
  decode 0x75000009 = .error .pairCountOutOfRange ∧ decode 0x880001FF = .error .lengthOutOfRange ∧
  decode 0x80000001 = .error .unusedFieldNotZero ∧ decode 0x16040000 = .error .unusedFieldNotZero ∧
  decode 0xFFFFFFFF = .error .unknownOpcode

/-- One step is fetch, decode, execute (40_control.md R100); `pc` during the command is its own index. -/
def Obligations.StepRunsTheDecodedCommand : Prop :=
  ∀ (s : State) (i : Instr), s.run = .run → s.pc.toNat < 1024 → decode (readWord s.imem s.pc.toNat) = .ok i →
    step s = exec i s

/-- `ImemFetchFault` (60_exceptions.md R287). -/
def Obligations.FetchPastImemFaults : Prop :=
  ∀ s : State, s.run = .run → 1024 ≤ s.pc.toNat →
    step s = .next { s with cause := .imemFetchFault, epc := s.pc, info := s.pc.setWidth 32, run := .fault }

/-- `IllegalInstruction` (60_exceptions.md R284). -/
def Obligations.IllegalWordFaults : Prop :=
  ∀ (s : State) (e : Reject), s.run = .run → s.pc.toNat < 1024 → decode (readWord s.imem s.pc.toNat) = .error e →
    step s = .next { s with cause := .illegalInstruction, epc := s.pc, info := readWord s.imem s.pc.toNat,
                            run := .fault }

/-- While `state ≠ RUN` the core touches nothing (20_memory.md R69). That `step` answers the same state there, and does not
stop, is the model's choice (log 4). -/
def Obligations.StoppedCoreTouchesNothing : Prop := ∀ s : State, s.run ≠ .run → step s = .next s

/-- Every command may be executed by every program (60_exceptions.md R295) and its faults are states (R290): nothing is
refused. That `exec` of an ill-formed term answers a next state, and that `step` outside RUN does, are the model's choices
(log 11, log 4). -/
def Obligations.EveryStepAnswersANextState : Prop :=
  (∀ (i : Instr) (s : State), ∃ t, exec i s = .next t) ∧ ∀ s : State, ∃ t, step s = .next t

/-- `UninitRegister` (60_exceptions.md R285): tested before any other operation-specific test, for all 96 commands; the
destination is never tested. -/
def Obligations.UninitRegisterFaults : Prop :=
  ∀ (i : Instr) (s : State), WellFormed i →
    ((∃ x ∈ sourcesOf i, validBit s x = false) →
      exec i s = .next (faultState .uninitRegister (encode i) s)) ∧
    (s.run = .run → (∀ x ∈ sourcesOf i, validBit s x = true) →
      ∀ t, exec i s = .next t → t.run = .fault → t.cause ≠ .uninitRegister)

/-- Fault entry (60_exceptions.md R290), for whatever command or fetch raises it. That a step in FAULT answers the same state
is the model's choice (log 4). -/
def Obligations.FaultsWriteOnlyTheFaultRecord : Prop :=
  ∀ s t : State, s.run = .run → step s = .next t → t.run = .fault →
    (∃ c v, c ≠ .noFault ∧ t = { s with cause := c, epc := s.pc, info := v, run := .fault }) ∧
    step t = .next t ∧ irq t = s.ie

/-- The frame of all 96 commands at once: the "written by" lists of 10_state.md R21 to R30 and the reach of 20_memory.md
R60. -/
def Obligations.CompletingCommandsWriteOnlyTheirDestination : Prop :=
  ∀ (i : Instr) (s t : State), s.run = .run → Memory.wf s.dmem = true → exec i s = .next t → t.run ≠ .fault →
    (∀ f, (∀ r, destOf i ≠ .reg f r) → fileSame f s t) ∧
    (∀ f r, destOf i = .reg f r → fileSameBut f r s t) ∧
    (destOf i ≠ .flag → t.T = s.T) ∧
    (∀ a, (∀ addr n, destOf i = .mem addr n → a < addr.toNat ∨ addr.toNat + n ≤ a) →
      readByte t.dmem a = readByte s.dmem a) ∧
    t.imem = s.imem ∧ t.entry = s.entry ∧ t.ie = s.ie ∧ t.cause = s.cause ∧ t.epc = s.epc ∧ t.info = s.info ∧
    (t.run = if i = .halt then .halt else .run) ∧
    (isControl i = false ∨ i = .nop → t.pc = s.pc + 1)

/-- Valid bits (10_state.md R27): a fault, a HALT and a new GO leave them, a write only sets them, a reset clears all. -/
def Obligations.ValidBitsAreNeverCleared : Prop :=
  ∀ (m : Move) (s t : State) (x : FileName × RegIdx), move m s = .next t →
    ((∀ im dm, m ≠ .host (.reset im dm)) → validBit s x = true → validBit t x = true) ∧
    ((∃ im dm, m = .host (.reset im dm)) → validBit t x = false)

/-- The run state (10_state.md R31): its codes, and the complete list of its transitions. -/
def Obligations.RunStateTransitions : Prop :=
  (runCode .idle = 0 ∧ runCode .run = 1 ∧ runCode .halt = 2 ∧ runCode .fault = 3) ∧
  (∀ im dm s t, move (.host (.reset im dm)) s = .next t → t.run = .idle) ∧
  ∀ (m : Move) (s t : State), move m s = .next t → (∀ im dm, m ≠ .host (.reset im dm)) →
    t.run = s.run ∨
    ((s.run = .idle ∨ s.run = .halt) ∧ t.run = .run ∧
      ∃ v : BitVec 32, m = .host (.writeReg .ctrl v) ∧ v.getLsbD 0 = true ∧ v.getLsbD 1 = false) ∨
    (s.run = .run ∧ t.run = .halt ∧ m = .core ∧ decode (readWord s.imem s.pc.toNat) = .ok .halt) ∨
    (s.run = .run ∧ t.run = .fault ∧ m = .core ∧ t.cause ≠ .noFault) ∨
    ((s.run = .halt ∨ s.run = .fault) ∧ t.run = .idle ∧
      ∃ v : BitVec 32, m = .host (.writeReg .ctrl v) ∧ v.getLsbD 1 = true)

/-- The split of rights between the core and the host (60_exceptions.md R295). -/
def Obligations.RightsOfCoreAndHost : Prop :=
  (∀ s t : State, step s = .next t → t.imem = s.imem ∧ t.entry = s.entry ∧ t.ie = s.ie) ∧
  (∀ (op : HostOp) (s t : State), hostStep op s = .next t → (∀ im dm, op ≠ .reset im dm) →
    (∀ f, fileSame f s t) ∧ t.T = s.T ∧ ((∀ a b, op ≠ .writeDmem a b) → t.dmem = s.dmem) ∧
    ((∀ i w, op ≠ .writeImem i w) → t.imem = s.imem))

/-- Reset (10_state.md R45, 70_reset_and_hazards.md R311) and the constants of 00_scope.md R5. That the memory contents come with
the reset is the model's choice (log 8; what is not listed reads as log 2 and log 3 say, and nothing is claimed of it). -/
def Obligations.ResetLeaves : Prop :=
  ∀ (s : State) (im : List (Nat × Word)) (dm : List (Nat × Byte)), ∃ t, hostStep (.reset im dm) s = .next t ∧
    t.run = .idle ∧ t.pc = 0 ∧ t.T = false ∧ (∀ r, hostRegRead r t = 0) ∧ t.ie = false ∧ irq t = false ∧
    (∀ x, validBit t x = false) ∧
    (∀ i w, i < 1024 → im.lookup i = some w → readWord t.imem i = w) ∧
    (∀ a b, a < 4096 → dm.lookup a = some b → readByte t.dmem a = b) ∧
    (primeP = 21888242871839275222246405745257275088696311157297823662689037894645226208583 ∧
      orderR = 21888242871839275222246405745257275088548364400416034343698204186575808495617 ∧
      seedT = 4965661367192848881 ∧ loopParam = 29793968203157093288 ∧ coeffB1 = modP 3 ∧ xi = xi2 ∧
      coeffB2 = ⟨modP 0x2b149d40ceb8aaae81be18991be06ac3b5b4c5e559dbefa33267e6dc24a138e5,
        modP 0x009713b03af0fed4cd2cafadeed8fdf4a74fa084e52d1852e4a2bd0685c315d2⟩ ∧
      mul2 coeffB2 xi2 = scale2 3 one2 ∧
      g1Generator = ⟨modP 1, modP 2⟩ ∧
      g2Generator =
        ⟨⟨modP 0x1800deef121f1e76426a00665e5c4479674322d4f75edadd46debd5cd992f6ed,
          modP 0x198e9393920d483a7260bfb731fb5d25f1aa493335a9e71297e485b7aef312c2⟩,
         ⟨modP 0x12c85ea5db8c6deb4aab71808dcb408fe3d1e7690c43d37b4ce6cc0166fa7daa,
          modP 0x090689d0585ff075ec9e99ad690c3395bc4b313370b38ef355acdadcd122975b⟩⟩ ∧ OnCurve2 g2Generator ∧
      hardExp * orderR = primeP ^ 12 - 1)

/-- The host's view of the six registers (10_state.md R33 to R38). -/
def Obligations.HostRegisterViews : Prop :=
  ∀ s : State,
    (hostRegRead .status s).toNat = (runCode s.run).toNat + 4 * s.T.toNat ∧
    (hostRegRead .cause s).toNat = (causeCode s.cause).toNat ∧ (causeCode s.cause).toNat ≤ 7 ∧
    (hostRegRead .epc s).toNat = s.epc.toNat ∧ hostRegRead .info s = s.info ∧
    (hostRegRead .entry s).toNat = s.entry.toNat ∧ (hostRegRead .ctrl s).toNat = 4 * s.ie.toNat ∧
    (∀ r, hostValue (.readReg r) s = some (hostRegRead r s)) ∧
    (∀ r, r ≠ .entry → hostStep (.readReg r) s = .next s) ∧
    (∀ r v, r = .status ∨ r = .cause ∨ r = .epc ∨ r = .info → hostStep (.writeReg r v) s = .next s)

/-- `CTRL` (10_state.md R38). -/
def Obligations.CtrlWrite : Prop :=
  ∀ (s : State) (v : BitVec 32), ∃ t, hostStep (.writeReg .ctrl v) s = .next t ∧
    t.ie = v.getLsbD 2 ∧ (hostRegRead .ctrl t).toNat = 4 * (v.getLsbD 2).toNat ∧
    (v.getLsbD 1 = true →
      t = { s with ie := v.getLsbD 2, run := if s.run = .run then .run else .idle }) ∧
    (v.getLsbD 1 = false → v.getLsbD 0 = true → s.run = .idle ∨ s.run = .halt →
      t = { s with ie := v.getLsbD 2, pc := s.entry, cause := .noFault, epc := 0, info := 0, run := .run }) ∧
    (v.getLsbD 1 = false → v.getLsbD 0 = true → s.run = .run ∨ s.run = .fault → t = { s with ie := v.getLsbD 2 }) ∧
    (v.getLsbD 1 = false → v.getLsbD 0 = false → t = { s with ie := v.getLsbD 2 })

/-- The interrupt output (60_exceptions.md R289). -/
def Obligations.IrqLevel : Prop :=
  ∀ s : State, (irq s = true ↔ s.ie = true ∧ (s.run = .halt ∨ s.run = .fault)) ∧
    hostStep .observeIrq s = .next s ∧ hostValue .observeIrq s = some (if irq s then 1 else 0)

/-- Host access to the memories and `ENTRY` (70_reset_and_hazards.md R315). -/
def Obligations.HostMemoryAccess : Prop :=
  ∀ s : State, s.run ≠ .run → Imem.wf s.imem = true → Memory.wf s.dmem = true →
    (∀ i w, i < 1024 → ∃ m, hostStep (.writeImem i w) s = .next { s with imem := m } ∧ Imem.wf m = true ∧
      ∀ j, readWord m j = if j = i then w else readWord s.imem j) ∧
    (∀ a b, a < 4096 → ∃ m, hostStep (.writeDmem a b) s = .next { s with dmem := m } ∧ Memory.wf m = true ∧
      ∀ c, readByte m c = if c = a then b else readByte s.dmem c) ∧
    (∀ i, i < 1024 → hostStep (.readImem i) s = .next s ∧ hostValue (.readImem i) s = some (readWord s.imem i)) ∧
    (∀ a, a < 4096 → hostStep (.readDmem a) s = .next s ∧
      hostValue (.readDmem a) s = some ((readByte s.dmem a).setWidth 32)) ∧
    (∀ v, hostStep (.writeReg .entry v) s = .next { s with entry := v.setWidth 16 }) ∧
    hostStep (.readReg .entry) s = .next s

/-- Host exclusion (20_memory.md R69, 93_implementation_defined.md U5: refuse). Reading `ENTRY` while the core runs counts
as an access here, and what does not exist is a host fault: the model's choices (log 6, log 7). -/
def Obligations.HostExclusion : Prop :=
  (∀ s : State, s.run = .run →
    (∀ i w, i < 1024 → hostStep (.readImem i) s = .refused .hostExclusion ∧
      hostStep (.writeImem i w) s = .refused .hostExclusion) ∧
    (∀ a b, a < 4096 → hostStep (.readDmem a) s = .refused .hostExclusion ∧
      hostStep (.writeDmem a b) s = .refused .hostExclusion) ∧
    (∀ v, hostStep (.writeReg .entry v) s = .refused .hostExclusion) ∧
    hostStep (.readReg .entry) s = .refused .hostExclusion) ∧
  (∀ s : State, (∀ i w, 1024 ≤ i → hostStep (.readImem i) s = .fault (.hostNoSuchWord i) ∧
      hostStep (.writeImem i w) s = .fault (.hostNoSuchWord i)) ∧
    (∀ a b, 4096 ≤ a → hostStep (.readDmem a) s = .fault (.hostNoSuchByte a) ∧
      hostStep (.writeDmem a b) s = .fault (.hostNoSuchByte a)))

/-- `NOP HALT JMP BT BF` (40_control.md R101 to R105). That a step in HALT answers the same state is the model's choice (log 4). -/
def Obligations.ControlCommands : Prop :=
  ∀ (s : State) (target : BitVec 16),
    (encode .nop = 0x00000000 ∧ exec .nop s = .next { s with pc := s.pc + 1 }) ∧
    (encode .halt = 0x01000000 ∧ exec .halt s = .next { s with run := .halt } ∧
      step { s with run := .halt } = .next { s with run := .halt } ∧ irq { s with run := .halt } = s.ie) ∧
    ((encode (.jmp target)).toNat = formatI 0x02 0 target.toNat ∧
      exec (.jmp target) s = .next { s with pc := target }) ∧
    ((encode (.bt target)).toNat = formatI 0x03 0 target.toNat ∧
      exec (.bt target) s = .next { s with pc := if s.T = true then target else s.pc + 1 }) ∧
    ((encode (.bf target)).toNat = formatI 0x04 0 target.toNat ∧
      exec (.bf target) s = .next { s with pc := if s.T = false then target else s.pc + 1 })

/-- `K.LI K.MOV` (40_control.md R106, R107). -/
def Obligations.IntegerRegisterCommands : Prop :=
  RuleImm 0x08 fileK Instr.kLi (fun imm v => v.toNat = imm.toNat) ∧
  RuleUnary 0x09 fileK fileK Instr.kMov (fun a v => v = a)

/-- `F.ADD F.SUB F.MUL F.SQR F.NEG` (41_fp.md R121 to R125), with the exact integer result reduced by `mod p` (R120). -/
def Obligations.FpArithmetic : Prop :=
  RuleBinary 0x10 fileF fileF fileF Instr.fAdd (fun a b v => v = modP (a.val + b.val)) ∧
  RuleBinary 0x11 fileF fileF fileF Instr.fSub (fun a b v => v = modP (a.val - b.val)) ∧
  RuleBinary 0x12 fileF fileF fileF Instr.fMul (fun a b v => v = modP (a.val * b.val)) ∧
  RuleUnary 0x13 fileF fileF Instr.fSqr (fun a v => v = modP (a.val * a.val)) ∧
  RuleUnary 0x14 fileF fileF Instr.fNeg (fun a v => v = modP (0 - a.val))

/-- `F.INV` (41_fp.md R126). -/
def Obligations.FpInverse : Prop :=
  RuleUnary 0x15 fileF fileF Instr.fInv (fun a v =>
    v = modP ((a.val : Int) ^ (primeP - 2)) ∧ (a = modP 0 → v = modP 0) ∧
    (a ≠ modP 0 → modP (a.val * v.val) = modP 1))

/-- `F.EQ F.ISZ F.MOV F.LI` (41_fp.md R127 to R130). -/
def Obligations.FpTestsMovesAndLiterals : Prop :=
  RuleTest2 0x16 fileF Instr.fEq (fun a b => a.val == b.val) ∧
  RuleTest1 0x17 fileF Instr.fIsZ (fun a => a.val == 0) ∧
  RuleUnary 0x18 fileF fileF Instr.fMov (fun a v => v = a) ∧
  RuleImm 0x19 fileF Instr.fLi (fun imm v => v.val = imm.toNat)

/-- `Q.ADD Q.SUB Q.MUL Q.SQR Q.NEG Q.MNR` (42_fp2.md R141 to R145, R150). -/
def Obligations.Fp2Arithmetic : Prop :=
  RuleBinary 0x20 fileQ fileQ fileQ Instr.qAdd
    (fun x y v => v = ⟨modP (x.a.val + y.a.val), modP (x.b.val + y.b.val)⟩) ∧
  RuleBinary 0x21 fileQ fileQ fileQ Instr.qSub
    (fun x y v => v = ⟨modP (x.a.val - y.a.val), modP (x.b.val - y.b.val)⟩) ∧
  RuleBinary 0x22 fileQ fileQ fileQ Instr.qMul (fun x y v =>
    v = ⟨modP (x.a.val * y.a.val - x.b.val * y.b.val), modP (x.a.val * y.b.val + x.b.val * y.a.val)⟩) ∧
  RuleUnary 0x23 fileQ fileQ Instr.qSqr (fun x v =>
    v = ⟨modP (x.a.val * x.a.val - x.b.val * x.b.val), modP (2 * (x.a.val * x.b.val))⟩) ∧
  RuleUnary 0x24 fileQ fileQ Instr.qNeg (fun x v => v = ⟨modP (0 - x.a.val), modP (0 - x.b.val)⟩) ∧
  RuleUnary 0x29 fileQ fileQ Instr.qMnr (fun x v =>
    v = ⟨modP (9 * x.a.val - x.b.val), modP (x.a.val + 9 * x.b.val)⟩ ∧ v = mul2 x xi2)

/-- `Q.INV` (42_fp2.md R146, R153). -/
def Obligations.Fp2Inverse : Prop :=
  RuleUnary 0x25 fileQ fileQ Instr.qInv (fun x v =>
    (∃ n : Fp, n = modP (((x.a.val : Int) * x.a.val + x.b.val * x.b.val) ^ (primeP - 2)) ∧
      v = ⟨modP (x.a.val * n.val), modP (-x.b.val * n.val)⟩) ∧
    (x = zero2 → v = zero2) ∧ (x ≠ zero2 → mul2 x v = one2))

/-- `Q.EQ Q.ISZ Q.MOV Q.PACK Q.GET` (42_fp2.md R147 to R149, R151, R152). -/
def Obligations.Fp2TestsMovesAndParts : Prop :=
  RuleTest2 0x26 fileQ Instr.qEq (fun x y => x.a.val == y.a.val && x.b.val == y.b.val) ∧
  RuleTest1 0x27 fileQ Instr.qIsZ (fun x => x.a.val == 0 && x.b.val == 0) ∧
  RuleUnary 0x28 fileQ fileQ Instr.qMov (fun x v => v = x) ∧
  RuleBinary 0x2A fileF fileF fileQ Instr.qPack (fun a b v => v.a = a ∧ v.b = b) ∧
  RuleSelect 0x2B 2 fileQ fileF Instr.qGet
    (fun x sel => match sel with | 0 => some x.a | 1 => some x.b | _ => none)

/-- `S.ADD S.SUB S.MUL S.SQR S.NEG S.MULV` (43_fp6.md R161 to R165, R170). -/
def Obligations.Fp6Arithmetic : Prop :=
  RuleBinary 0x30 fileS fileS fileS Instr.sAdd (fun x y v => v = add6 x y) ∧
  RuleBinary 0x31 fileS fileS fileS Instr.sSub (fun x y v => v = sub6 x y) ∧
  RuleBinary 0x32 fileS fileS fileS Instr.sMul (fun x y v => v = mul6 x y) ∧
  RuleUnary 0x33 fileS fileS Instr.sSqr (fun x v => v = mul6 x x) ∧
  RuleUnary 0x34 fileS fileS Instr.sNeg (fun x v => v = neg6 x) ∧
  RuleUnary 0x39 fileS fileS Instr.sMulV (fun x v => v = ⟨mul2 xi2 x.c2, x.c0, x.c1⟩ ∧ v = mul6 x v6)

/-- `S.INV` (43_fp6.md R166): pinned from both sides, and by the cofactor formulas. -/
def Obligations.Fp6Inverse : Prop :=
  RuleUnary 0x35 fileS fileS Instr.sInv (fun x v =>
    (∃ A B C F Fi : Fp2,
      A = sub2 (mul2 x.c0 x.c0) (mul2 xi2 (mul2 x.c1 x.c2)) ∧
      B = sub2 (mul2 xi2 (mul2 x.c2 x.c2)) (mul2 x.c0 x.c1) ∧
      C = sub2 (mul2 x.c1 x.c1) (mul2 x.c0 x.c2) ∧
      F = add2 (mul2 x.c0 A) (mul2 xi2 (add2 (mul2 x.c2 B) (mul2 x.c1 C))) ∧
      (if F = zero2 then Fi = zero2 else mul2 F Fi = one2) ∧
      v = ⟨mul2 A Fi, mul2 B Fi, mul2 C Fi⟩) ∧
    (x = zero6 → v = zero6) ∧ (x ≠ zero6 → mul6 x v = one6 ∧ ∀ y, mul6 x y = one6 → y = v))

/-- `S.EQ S.ISZ S.MOV S.PACK S.GET` (43_fp6.md R167 to R169, R171, R172). -/
def Obligations.Fp6TestsMovesAndParts : Prop :=
  RuleTest2 0x36 fileS Instr.sEq (fun x y => x.c0 == y.c0 && x.c1 == y.c1 && x.c2 == y.c2) ∧
  RuleTest1 0x37 fileS Instr.sIsZ (fun x => x == zero6) ∧
  RuleUnary 0x38 fileS fileS Instr.sMov (fun x v => v = x) ∧
  RuleTernary 0x3A fileQ fileQ fileQ fileS Instr.sPack (fun a b c v => v = ⟨a, b, c⟩) ∧
  RuleSelect 0x3B 3 fileS fileQ Instr.sGet
    (fun x sel => match sel with | 0 => some x.c0 | 1 => some x.c1 | 2 => some x.c2 | _ => none)

/-- `D.ADD D.SUB D.MUL D.SQR D.NEG D.CONJ` (44_fp12.md R181 to R185, R190). -/
def Obligations.Fp12Arithmetic : Prop :=
  RuleBinary 0x40 fileD fileD fileD Instr.dAdd (fun x y v => v = add12 x y) ∧
  RuleBinary 0x41 fileD fileD fileD Instr.dSub (fun x y v => v = sub12 x y) ∧
  RuleBinary 0x42 fileD fileD fileD Instr.dMul (fun x y v => v = mul12 x y) ∧
  RuleUnary 0x43 fileD fileD Instr.dSqr (fun x v => v = mul12 x x) ∧
  RuleUnary 0x44 fileD fileD Instr.dNeg (fun x v => v = neg12 x) ∧
  RuleUnary 0x49 fileD fileD Instr.dConj (fun x v => v = ⟨x.c0, neg6 x.c1⟩) ∧
  (∀ x y, conj12 (mul12 x y) = mul12 (conj12 x) (conj12 y)) ∧ (∀ x, conj12 (conj12 x) = x)

/-- `D.INV` (44_fp12.md R186). -/
def Obligations.Fp12Inverse : Prop :=
  RuleUnary 0x45 fileD fileD Instr.dInv (fun x v =>
    (∃ n ni : Fp6, n = sub6 (mul6 x.c0 x.c0) (mul6 v6 (mul6 x.c1 x.c1)) ∧
      (if n = zero6 then ni = zero6 else mul6 n ni = one6) ∧ (x ≠ zero12 → n ≠ zero6) ∧
      v = ⟨mul6 x.c0 ni, mul6 (neg6 x.c1) ni⟩) ∧
    (x = zero12 → v = zero12) ∧ (x ≠ zero12 → mul12 x v = one12))

/-- `D.EQ D.ISZ D.ISONE D.MOV D.PACK D.GET D.ONE` (44_fp12.md R187 to R189, R191 to R194). -/
def Obligations.Fp12TestsMovesAndParts : Prop :=
  RuleTest2 0x46 fileD Instr.dEq (fun x y => x.c0.c0 == y.c0.c0 && x.c0.c1 == y.c0.c1 && x.c0.c2 == y.c0.c2 &&
    x.c1.c0 == y.c1.c0 && x.c1.c1 == y.c1.c1 && x.c1.c2 == y.c1.c2) ∧
  RuleTest1 0x47 fileD Instr.dIsZ (fun x => x == zero12) ∧
  RuleUnary 0x48 fileD fileD Instr.dMov (fun x v => v = x) ∧
  RuleBinary 0x4A fileS fileS fileD Instr.dPack (fun a b v => v = ⟨a, b⟩) ∧
  RuleSelect 0x4B 2 fileD fileS Instr.dGet
    (fun x sel => match sel with | 0 => some x.c0 | 1 => some x.c1 | _ => none) ∧
  RuleConst 0x4C fileD Instr.dOne one12 ∧
  RuleTest1 0x4D fileD Instr.dIsOne (fun x => x == one12)

/-- `D.EXP` (44_fp12.md R195): the value is the power, and the scan is the one prescribed. -/
def Obligations.Fp12Power : Prop :=
  RuleBinary 0x4E fileD fileK fileD Instr.dExp (fun x e v => v = pow12 x e.toNat ∧
    v = doubleAndAdd mul12 (fun y => mul12 y y) one12 x e.toNat)

/-- The G1 commands that build, test, copy and take apart points (45_g1.md R201 to R203, R208 to R212). -/
def Obligations.G1Points : Prop :=
  RuleNew 0x50 fileF fileP Instr.g1New (fun x y => ⟨x, y⟩) OnCurve1 ∧ ¬ OnCurve1 inf1 ∧
  RuleConst 0x51 fileP Instr.g1Inf ⟨modP 0, modP 0⟩ ∧
  RuleConst 0x52 fileP Instr.g1Gen ⟨modP 1, modP 2⟩ ∧
  RuleTest2 0x57 fileP Instr.g1Eq (fun A B => A.X == B.X && A.Y == B.Y) ∧
  RuleTest1 0x58 fileP Instr.g1IsInf (fun A => A.X.val == 0 && A.Y.val == 0) ∧
  RuleUnary 0x59 fileP fileP Instr.g1Mov (fun A v => v = A) ∧
  RuleUnary 0x5A fileP fileF Instr.g1GetX (fun A v => v = A.X) ∧
  RuleUnary 0x5B fileP fileF Instr.g1GetY (fun A v => v = A.Y)

/-- `G1.ADD G1.DBL G1.NEG` (45_g1.md R204 to R206). -/
def Obligations.G1GroupCommands : Prop :=
  RuleBinary 0x53 fileP fileP fileP Instr.g1Add Sum1 ∧
  RuleUnary 0x54 fileP fileP Instr.g1Dbl Double1 ∧
  RuleUnary 0x55 fileP fileP Instr.g1Neg (fun A C => C.X = A.X ∧ C.Y = modP (0 - A.Y.val))

/-- `G1.SMUL` (45_g1.md R207). -/
def Obligations.G1ScalarMultiple : Prop :=
  RuleBinary 0x56 fileP fileK fileP Instr.g1Smul (fun A k C =>
    C = doubleAndAdd g1Add g1Dbl inf1 A k.toNat ∧ (k.toNat = 0 → C = inf1) ∧ (k.toNat = 1 → C = A) ∧
    (A = inf1 → C = inf1))

/-- The G2 commands that build, test, copy and take apart points (46_g2.md R221 to R223, R228 to R232). -/
def Obligations.G2Points : Prop :=
  RuleNew 0x60 fileQ fileW Instr.g2New (fun x y => ⟨x, y⟩) OnCurve2 ∧ ¬ OnCurve2 inf2 ∧
  RuleConst 0x61 fileW Instr.g2Inf ⟨zero2, zero2⟩ ∧
  RuleConst 0x62 fileW Instr.g2Gen
    ⟨⟨modP 0x1800deef121f1e76426a00665e5c4479674322d4f75edadd46debd5cd992f6ed,
      modP 0x198e9393920d483a7260bfb731fb5d25f1aa493335a9e71297e485b7aef312c2⟩,
     ⟨modP 0x12c85ea5db8c6deb4aab71808dcb408fe3d1e7690c43d37b4ce6cc0166fa7daa,
      modP 0x090689d0585ff075ec9e99ad690c3395bc4b313370b38ef355acdadcd122975b⟩⟩ ∧ OnCurve2 g2Generator ∧
  RuleTest2 0x67 fileW Instr.g2Eq (fun A B => A.X == B.X && A.Y == B.Y) ∧
  RuleTest1 0x68 fileW Instr.g2IsInf (fun A => A.X == zero2 && A.Y == zero2) ∧
  RuleUnary 0x69 fileW fileW Instr.g2Mov (fun A v => v = A) ∧
  RuleUnary 0x6A fileW fileQ Instr.g2GetX (fun A v => v = A.X) ∧
  RuleUnary 0x6B fileW fileQ Instr.g2GetY (fun A v => v = A.Y)

/-- `G2.ADD G2.DBL G2.NEG` (46_g2.md R224 to R226). -/
def Obligations.G2GroupCommands : Prop :=
  RuleBinary 0x63 fileW fileW fileW Instr.g2Add Sum2 ∧
  RuleUnary 0x64 fileW fileW Instr.g2Dbl Double2 ∧
  RuleUnary 0x65 fileW fileW Instr.g2Neg (fun A C => C = ⟨A.X, neg2 A.Y⟩)

/-- `G2.SMUL` (46_g2.md R227). -/
def Obligations.G2ScalarMultiple : Prop :=
  RuleBinary 0x66 fileW fileK fileW Instr.g2Smul (fun A k C =>
    C = doubleAndAdd g2Add g2Dbl inf2 A k.toNat ∧ (k.toNat = 0 → C = inf2) ∧ (k.toNat = 1 → C = A) ∧
    (A = inf2 → C = inf2))

/-- `LINE.DBL LINE.ADD` (47_pairing.md R241, R242). -/
def Obligations.LineFunctions : Prop :=
  RuleBinary 0x70 fileW fileP fileD Instr.lineDbl (fun R A v =>
    if R = inf2 then v = one12 else ∃ lam, Tangent2 R lam ∧ v = lineValue lam R A) ∧
  RuleTernary 0x71 fileW fileW fileP fileD Instr.lineAdd (fun R B A v =>
    if R = inf2 then v = one12 else ∃ lam, Chord2 R B lam ∧ v = lineValue lam R A)

/-- `MLOOP` (47_pairing.md R243, R240). -/
def Obligations.MillerLoop : Prop :=
  RuleBinary 0x72 fileP fileW fileD Instr.mloop (fun A B v => v = millerValue A B) ∧
  (loopParam = loopNumeral ∧ loopParam = 6 * 4965661367192848881 + 2 ∧ bitlen loopParam = 65) ∧
  hardExp * orderR = primeP ^ 12 - 1

/-- `FEXP` (47_pairing.md R244) and the collapse of the final exponentiation (R248), a theorem about the steps as
worded. -/
def Obligations.FinalExponentiation : Prop :=
  RuleUnary 0x73 fileD fileD Instr.fexp (fun f v => FinalExp f v ∧ v = if f = zero12 then zero12 else one12) ∧
  hardExp = (primeP ^ 12 - 1) / orderR

/-- `PAIR` (47_pairing.md R245). -/
def Obligations.PairCommand : Prop :=
  RuleBinary 0x74 fileP fileW fileD Instr.pair (fun A B v =>
    FinalExp (millerValue A B) v ∧ (A = inf1 ∨ B = inf2 → v = one12))

/-- `PCHK PCHKE` (47_pairing.md R246, R247). -/
def Obligations.PairingChecks : Prop :=
  ∀ n : BitVec 16,
    ((encode (.pchk n)).toNat = formatI 0x75 0 n.toNat ∧ (encode (.pchke n)).toNat = formatI 0x76 0 n.toNat) ∧
    (8 < n.toNat → decode (encode (.pchk n)) = .error .pairCountOutOfRange ∧
      decode (encode (.pchke n)) = .error .pairCountOutOfRange) ∧
    (n.toNat ≤ 8 → ∀ s : State,
      (∀ l, PairsAre s n.toNat l → ∃ v, FinalExp (pairsProduct l) v ∧
        exec (.pchk n) s = .next (wroteT (v == one12) s) ∧
        (v = one12 → exec (.pchke n) s = .next (wroteT true s)) ∧
        (v ≠ one12 → exec (.pchke n) s = .next (faultState .invalidPairing (encode (.pchke n)) s)) ∧
        (n = 0 → v = one12)) ∧
      ((∃ i : RegIdx, i.val < n.toNat ∧ (s.P[i] = none ∨ s.W[i] = none)) →
        exec (.pchk n) s = .next (faultState .uninitRegister (encode (.pchk n)) s) ∧
        exec (.pchke n) s = .next (faultState .uninitRegister (encode (.pchke n)) s)))

/-- What R248 draws for reachable states, for every state whose stored points are valid (10_state.md R44): the pairing of
this core is the constant one. -/
def Obligations.PairingOnValidPoints : Prop :=
  ∀ s : State, PointsValid s →
    (∀ (rd ra rb : RegIdx) (A : G1pt) (B : G2pt), s.P[ra] = some A → s.W[rb] = some B →
      exec (.pair rd ra rb) s = .next { s with D := s.D.set rd (some one12), pc := s.pc + 1 }) ∧
    (∀ (n : BitVec 16) (l : List (G1pt × G2pt)), n.toNat ≤ 8 → PairsAre s n.toNat l →
      exec (.pchk n) s = .next { s with T := true, pc := s.pc + 1 } ∧
      exec (.pchke n) s = .next { s with T := true, pc := s.pc + 1 })

/-- `G1.ENC G2.ENC GT.ENC F.ST` (48_codec.md R261, R263, R265, R268). -/
def Obligations.EncodesStoreFields : Prop :=
  RuleStore 0x80 64 fileP Instr.g1Enc fieldsOfG1 ∧
  RuleStore 0x82 128 fileW Instr.g2Enc fieldsOfG2 ∧
  RuleStore 0x84 384 fileD Instr.gtEnc fieldsOf12 ∧
  RuleStore 0x87 32 fileF Instr.fSt (fun v => [v])

/-- `G1.DEC G2.DEC GT.DEC` (48_codec.md R262, R264, R266, in the order of R270). -/
def Obligations.DecodesValidate : Prop :=
  RuleDecode 0x81 64 fileP Instr.g1Dec (fun m a => ⟨modP (fieldAt m a), modP (fieldAt m (a + 32))⟩)
    (fun A => A = inf1 ∨ OnCurve1 A) ∧
  RuleDecode 0x83 128 fileW Instr.g2Dec (fun m a => ⟨field2At m a, field2At m (a + 64)⟩)
    (fun A => A = inf2 ∨ OnCurve2 A) ∧
  RuleDecode 0x85 384 fileD Instr.gtDec (fun m a => ⟨field6At m a, field6At m (a + 192)⟩) (fun _ => True)

/-- `F.LD K.LD` (48_codec.md R267, R269). -/
def Obligations.FieldAndIntegerLoads : Prop :=
  (∀ (r : RegIdx) (addr : Addr), (encode (.fLd r addr)).toNat = formatM 0x86 r addr.toNat 0 ∧ ∀ s : State,
    (4096 < addr.toNat + 32 →
      exec (.fLd r addr) s = .next (faultState .dmemAccessFault (addr.setWidth 32) s)) ∧
    (addr.toNat + 32 ≤ 4096 → primeP ≤ intAt s.dmem addr.toNat 32 →
      exec (.fLd r addr) s = .next (faultState .invalidEncoding (addr.setWidth 32) s)) ∧
    (addr.toNat + 32 ≤ 4096 → intAt s.dmem addr.toNat 32 < primeP →
      ∃ v : Fp, v.val = intAt s.dmem addr.toNat 32 ∧
        exec (.fLd r addr) s = .next { s with F := s.F.set r (some v), pc := s.pc + 1 })) ∧
  (∀ (r : RegIdx) (addr : Addr) (len : BitVec 9),
    (encode (.kLd r addr len)).toNat = formatM 0x88 r addr.toNat len.toNat ∧
    (384 < len.toNat → decode (encode (.kLd r addr len)) = .error .lengthOutOfRange) ∧
    (len.toNat ≤ 384 → ∀ s : State,
      (4096 < addr.toNat + len.toNat →
        exec (.kLd r addr len) s = .next (faultState .dmemAccessFault (addr.setWidth 32) s)) ∧
      (addr.toNat + len.toNat ≤ 4096 →
        ∃ v : KInt, v.toNat = intAt s.dmem addr.toNat len.toNat ∧
          exec (.kLd r addr len) s = .next { s with K := s.K.set r (some v), pc := s.pc + 1 }) ∧
      (len = 0 → exec (.kLd r addr len) s = .next { s with K := s.K.set r (some 0), pc := s.pc + 1 })))

/-- Round trips of the codec (48_codec.md R271). -/
def Obligations.CodecRoundTrips : Prop :=
  (∀ (s : State) (i j : RegIdx) (addr : Addr), Memory.wf s.dmem = true →
    (∀ A, addr.toNat + 64 ≤ 4096 → s.P[i] = some A → A = inf1 ∨ OnCurve1 A →
      ∃ s1 s2, exec (.g1Enc i addr) s = .next s1 ∧ exec (.g1Dec j addr 64) s1 = .next s2 ∧
        s2 = { s1 with P := s.P.set j (some A), pc := s.pc + 2 }) ∧
    (∀ A, addr.toNat + 128 ≤ 4096 → s.W[i] = some A → A = inf2 ∨ OnCurve2 A →
      ∃ s1 s2, exec (.g2Enc i addr) s = .next s1 ∧ exec (.g2Dec j addr 128) s1 = .next s2 ∧
        s2 = { s1 with W := s.W.set j (some A), pc := s.pc + 2 }) ∧
    (∀ x, addr.toNat + 384 ≤ 4096 → s.D[i] = some x →
      ∃ s1 s2, exec (.gtEnc i addr) s = .next s1 ∧ exec (.gtDec j addr 384) s1 = .next s2 ∧
        s2 = { s1 with D := s.D.set j (some x), pc := s.pc + 2 }) ∧
    (∀ v, addr.toNat + 32 ≤ 4096 → s.F[i] = some v →
      ∃ s1 s2, exec (.fSt i addr) s = .next s1 ∧ exec (.fLd j addr) s1 = .next s2 ∧
        s2 = { s1 with F := s.F.set j (some v), pc := s.pc + 2 })) ∧
  (∀ (s t : State) (i : RegIdx) (addr : Addr), Memory.wf s.dmem = true → s.run = .run → t.run = .run →
    (exec (.g1Dec i addr 64) s = .next t → exec (.g1Enc i addr) t = .next { t with pc := t.pc + 1 }) ∧
    (exec (.g2Dec i addr 128) s = .next t → exec (.g2Enc i addr) t = .next { t with pc := t.pc + 1 }) ∧
    (exec (.gtDec i addr 384) s = .next t → exec (.gtEnc i addr) t = .next { t with pc := t.pc + 1 }) ∧
    (exec (.fLd i addr) s = .next t → exec (.fSt i addr) t = .next { t with pc := t.pc + 1 }))

/-- The group properties of 45_g1.md R213 and 46_g2.md R233, the order-r clause apart, for the functions that `G1.ADD`,
`G1.NEG`, `G1.DBL`, `G1.SMUL` and their G2 counterparts write. -/
def Obligations.GroupLaws : Prop :=
  (∀ A : G1pt, A = inf1 ∨ OnCurve1 A →
    g1Add A inf1 = A ∧ g1Add inf1 A = A ∧ g1Add A (g1Neg A) = inf1 ∧ g1Add A A = g1Dbl A ∧
    ∀ a b : Nat, g1Smul A (a + b) = g1Add (g1Smul A a) (g1Smul A b)) ∧
  (∀ A : G2pt, A = inf2 ∨ OnCurve2 A →
    g2Add A inf2 = A ∧ g2Add inf2 A = A ∧ g2Add A (g2Neg A) = inf2 ∧ g2Add A A = g2Dbl A ∧
    ∀ a b : Nat, g2Smul A (a + b) = g2Add (g2Smul A a) (g2Smul A b))

/-- The order of the generators (45_g1.md R207, 46_g2.md R227, 46_g2.md R233). -/
def Obligations.GeneratorOrders : Prop :=
  g1Smul g1Generator orderR = inf1 ∧ g2Smul g2Generator orderR = inf2 ∧
  g1Smul g1Generator (orderR - 1) = g1Neg g1Generator ∧ g2Smul g2Generator (orderR - 1) = g2Neg g2Generator ∧
  g1Smul g1Generator 5 =
    g1Add (g1Add (g1Add (g1Add g1Generator g1Generator) g1Generator) g1Generator) g1Generator

/-- The invariant of the core (60_exceptions.md R294: the fault record always describes exactly one fault or holds 0) is
kept by every step, from every state that has it. -/
def Obligations.InvariantKeptByStep : Prop := ∀ s t : State, Inv s → step s = .next t → Inv t

/-- The host's operations keep the invariant too, the accepted GO and CLR among them (60_exceptions.md R293). -/
def Obligations.InvariantKeptByHost : Prop :=
  (∀ (op : HostOp) (s t : State), Inv s → hostStep op s = .next t → Inv t) ∧
  (∀ im dm (s t : State), hostStep (.reset im dm) s = .next t → Inv t)

/-- The state after reset has both invariants. -/
def Obligations.ResetHasInvariant : Prop := Inv State.reset ∧ PointsValid State.reset

/-- Closure (10_state.md R44, 45_g1.md R213, 46_g2.md R233): once in, a point never leaves its curve. -/
def Obligations.PointsStayValid : Prop := ∀ (m : Move) (s t : State), PointsValid s → move m s = .next t → PointsValid t

end
end

