-- ==== Sys2Proof/Laws/State.lean ====
section
/-! SUPPORT. One lemma per field per update of the state, so that no proof unfolds a record update. -/

namespace Sys2Proof.Machine

/-! ### advance -/

@[simp] theorem advance_F (s : State) : (advance s).F = s.F := rfl
@[simp] theorem advance_Q (s : State) : (advance s).Q = s.Q := rfl
@[simp] theorem advance_S (s : State) : (advance s).S = s.S := rfl
@[simp] theorem advance_D (s : State) : (advance s).D = s.D := rfl
@[simp] theorem advance_P (s : State) : (advance s).P = s.P := rfl
@[simp] theorem advance_W (s : State) : (advance s).W = s.W := rfl
@[simp] theorem advance_K (s : State) : (advance s).K = s.K := rfl
@[simp] theorem advance_pc (s : State) : (advance s).pc = s.pc + 1 := rfl
@[simp] theorem advance_T (s : State) : (advance s).T = s.T := rfl
@[simp] theorem advance_run (s : State) : (advance s).run = s.run := rfl
@[simp] theorem advance_cause (s : State) : (advance s).cause = s.cause := rfl
@[simp] theorem advance_epc (s : State) : (advance s).epc = s.epc := rfl
@[simp] theorem advance_info (s : State) : (advance s).info = s.info := rfl
@[simp] theorem advance_entry (s : State) : (advance s).entry = s.entry := rfl
@[simp] theorem advance_ie (s : State) : (advance s).ie = s.ie := rfl
@[simp] theorem advance_imem (s : State) : (advance s).imem = s.imem := rfl
@[simp] theorem advance_dmem (s : State) : (advance s).dmem = s.dmem := rfl

/-! ### jumpTo -/

@[simp] theorem jumpTo_F (t : BitVec 16) (s : State) : (jumpTo t s).F = s.F := rfl
@[simp] theorem jumpTo_Q (t : BitVec 16) (s : State) : (jumpTo t s).Q = s.Q := rfl
@[simp] theorem jumpTo_S (t : BitVec 16) (s : State) : (jumpTo t s).S = s.S := rfl
@[simp] theorem jumpTo_D (t : BitVec 16) (s : State) : (jumpTo t s).D = s.D := rfl
@[simp] theorem jumpTo_P (t : BitVec 16) (s : State) : (jumpTo t s).P = s.P := rfl
@[simp] theorem jumpTo_W (t : BitVec 16) (s : State) : (jumpTo t s).W = s.W := rfl
@[simp] theorem jumpTo_K (t : BitVec 16) (s : State) : (jumpTo t s).K = s.K := rfl
@[simp] theorem jumpTo_pc (t : BitVec 16) (s : State) : (jumpTo t s).pc = t := rfl
@[simp] theorem jumpTo_T (t : BitVec 16) (s : State) : (jumpTo t s).T = s.T := rfl
@[simp] theorem jumpTo_run (t : BitVec 16) (s : State) : (jumpTo t s).run = s.run := rfl
@[simp] theorem jumpTo_cause (t : BitVec 16) (s : State) : (jumpTo t s).cause = s.cause := rfl
@[simp] theorem jumpTo_epc (t : BitVec 16) (s : State) : (jumpTo t s).epc = s.epc := rfl
@[simp] theorem jumpTo_info (t : BitVec 16) (s : State) : (jumpTo t s).info = s.info := rfl
@[simp] theorem jumpTo_entry (t : BitVec 16) (s : State) : (jumpTo t s).entry = s.entry := rfl
@[simp] theorem jumpTo_ie (t : BitVec 16) (s : State) : (jumpTo t s).ie = s.ie := rfl
@[simp] theorem jumpTo_imem (t : BitVec 16) (s : State) : (jumpTo t s).imem = s.imem := rfl
@[simp] theorem jumpTo_dmem (t : BitVec 16) (s : State) : (jumpTo t s).dmem = s.dmem := rfl

/-! ### halted -/

@[simp] theorem halted_F (s : State) : (halted s).F = s.F := rfl
@[simp] theorem halted_Q (s : State) : (halted s).Q = s.Q := rfl
@[simp] theorem halted_S (s : State) : (halted s).S = s.S := rfl
@[simp] theorem halted_D (s : State) : (halted s).D = s.D := rfl
@[simp] theorem halted_P (s : State) : (halted s).P = s.P := rfl
@[simp] theorem halted_W (s : State) : (halted s).W = s.W := rfl
@[simp] theorem halted_K (s : State) : (halted s).K = s.K := rfl
@[simp] theorem halted_pc (s : State) : (halted s).pc = s.pc := rfl
@[simp] theorem halted_T (s : State) : (halted s).T = s.T := rfl
@[simp] theorem halted_run (s : State) : (halted s).run = .halt := rfl
@[simp] theorem halted_cause (s : State) : (halted s).cause = s.cause := rfl
@[simp] theorem halted_epc (s : State) : (halted s).epc = s.epc := rfl
@[simp] theorem halted_info (s : State) : (halted s).info = s.info := rfl
@[simp] theorem halted_entry (s : State) : (halted s).entry = s.entry := rfl
@[simp] theorem halted_ie (s : State) : (halted s).ie = s.ie := rfl
@[simp] theorem halted_imem (s : State) : (halted s).imem = s.imem := rfl
@[simp] theorem halted_dmem (s : State) : (halted s).dmem = s.dmem := rfl

/-! ### faulted -/

@[simp] theorem faulted_F (c : Cause) (v : BitVec 32) (s : State) : (faulted c v s).F = s.F := rfl
@[simp] theorem faulted_Q (c : Cause) (v : BitVec 32) (s : State) : (faulted c v s).Q = s.Q := rfl
@[simp] theorem faulted_S (c : Cause) (v : BitVec 32) (s : State) : (faulted c v s).S = s.S := rfl
@[simp] theorem faulted_D (c : Cause) (v : BitVec 32) (s : State) : (faulted c v s).D = s.D := rfl
@[simp] theorem faulted_P (c : Cause) (v : BitVec 32) (s : State) : (faulted c v s).P = s.P := rfl
@[simp] theorem faulted_W (c : Cause) (v : BitVec 32) (s : State) : (faulted c v s).W = s.W := rfl
@[simp] theorem faulted_K (c : Cause) (v : BitVec 32) (s : State) : (faulted c v s).K = s.K := rfl
@[simp] theorem faulted_pc (c : Cause) (v : BitVec 32) (s : State) : (faulted c v s).pc = s.pc := rfl
@[simp] theorem faulted_T (c : Cause) (v : BitVec 32) (s : State) : (faulted c v s).T = s.T := rfl
@[simp] theorem faulted_run (c : Cause) (v : BitVec 32) (s : State) : (faulted c v s).run = .fault := rfl
@[simp] theorem faulted_cause (c : Cause) (v : BitVec 32) (s : State) : (faulted c v s).cause = c := rfl
@[simp] theorem faulted_epc (c : Cause) (v : BitVec 32) (s : State) : (faulted c v s).epc = s.pc := rfl
@[simp] theorem faulted_info (c : Cause) (v : BitVec 32) (s : State) : (faulted c v s).info = v := rfl
@[simp] theorem faulted_entry (c : Cause) (v : BitVec 32) (s : State) : (faulted c v s).entry = s.entry := rfl
@[simp] theorem faulted_ie (c : Cause) (v : BitVec 32) (s : State) : (faulted c v s).ie = s.ie := rfl
@[simp] theorem faulted_imem (c : Cause) (v : BitVec 32) (s : State) : (faulted c v s).imem = s.imem := rfl
@[simp] theorem faulted_dmem (c : Cause) (v : BitVec 32) (s : State) : (faulted c v s).dmem = s.dmem := rfl

/-! ### acknowledge -/

@[simp] theorem acknowledge_F (s : State) : (acknowledge s).F = s.F := rfl
@[simp] theorem acknowledge_Q (s : State) : (acknowledge s).Q = s.Q := rfl
@[simp] theorem acknowledge_S (s : State) : (acknowledge s).S = s.S := rfl
@[simp] theorem acknowledge_D (s : State) : (acknowledge s).D = s.D := rfl
@[simp] theorem acknowledge_P (s : State) : (acknowledge s).P = s.P := rfl
@[simp] theorem acknowledge_W (s : State) : (acknowledge s).W = s.W := rfl
@[simp] theorem acknowledge_K (s : State) : (acknowledge s).K = s.K := rfl
@[simp] theorem acknowledge_pc (s : State) : (acknowledge s).pc = s.pc := rfl
@[simp] theorem acknowledge_T (s : State) : (acknowledge s).T = s.T := rfl
@[simp] theorem acknowledge_run (s : State) : (acknowledge s).run = .idle := rfl
@[simp] theorem acknowledge_cause (s : State) : (acknowledge s).cause = s.cause := rfl
@[simp] theorem acknowledge_epc (s : State) : (acknowledge s).epc = s.epc := rfl
@[simp] theorem acknowledge_info (s : State) : (acknowledge s).info = s.info := rfl
@[simp] theorem acknowledge_entry (s : State) : (acknowledge s).entry = s.entry := rfl
@[simp] theorem acknowledge_ie (s : State) : (acknowledge s).ie = s.ie := rfl
@[simp] theorem acknowledge_imem (s : State) : (acknowledge s).imem = s.imem := rfl
@[simp] theorem acknowledge_dmem (s : State) : (acknowledge s).dmem = s.dmem := rfl

/-! ### launch -/

@[simp] theorem launch_F (s : State) : (launch s).F = s.F := rfl
@[simp] theorem launch_Q (s : State) : (launch s).Q = s.Q := rfl
@[simp] theorem launch_S (s : State) : (launch s).S = s.S := rfl
@[simp] theorem launch_D (s : State) : (launch s).D = s.D := rfl
@[simp] theorem launch_P (s : State) : (launch s).P = s.P := rfl
@[simp] theorem launch_W (s : State) : (launch s).W = s.W := rfl
@[simp] theorem launch_K (s : State) : (launch s).K = s.K := rfl
@[simp] theorem launch_pc (s : State) : (launch s).pc = s.entry := rfl
@[simp] theorem launch_T (s : State) : (launch s).T = s.T := rfl
@[simp] theorem launch_run (s : State) : (launch s).run = .run := rfl
@[simp] theorem launch_cause (s : State) : (launch s).cause = .noFault := rfl
@[simp] theorem launch_epc (s : State) : (launch s).epc = 0 := rfl
@[simp] theorem launch_info (s : State) : (launch s).info = 0 := rfl
@[simp] theorem launch_entry (s : State) : (launch s).entry = s.entry := rfl
@[simp] theorem launch_ie (s : State) : (launch s).ie = s.ie := rfl
@[simp] theorem launch_imem (s : State) : (launch s).imem = s.imem := rfl
@[simp] theorem launch_dmem (s : State) : (launch s).dmem = s.dmem := rfl

/-! ### writeEntry -/

@[simp] theorem writeEntry_F (v : BitVec 32) (s : State) : (writeEntry v s).F = s.F := rfl
@[simp] theorem writeEntry_Q (v : BitVec 32) (s : State) : (writeEntry v s).Q = s.Q := rfl
@[simp] theorem writeEntry_S (v : BitVec 32) (s : State) : (writeEntry v s).S = s.S := rfl
@[simp] theorem writeEntry_D (v : BitVec 32) (s : State) : (writeEntry v s).D = s.D := rfl
@[simp] theorem writeEntry_P (v : BitVec 32) (s : State) : (writeEntry v s).P = s.P := rfl
@[simp] theorem writeEntry_W (v : BitVec 32) (s : State) : (writeEntry v s).W = s.W := rfl
@[simp] theorem writeEntry_K (v : BitVec 32) (s : State) : (writeEntry v s).K = s.K := rfl
@[simp] theorem writeEntry_pc (v : BitVec 32) (s : State) : (writeEntry v s).pc = s.pc := rfl
@[simp] theorem writeEntry_T (v : BitVec 32) (s : State) : (writeEntry v s).T = s.T := rfl
@[simp] theorem writeEntry_run (v : BitVec 32) (s : State) : (writeEntry v s).run = s.run := rfl
@[simp] theorem writeEntry_cause (v : BitVec 32) (s : State) : (writeEntry v s).cause = s.cause := rfl
@[simp] theorem writeEntry_epc (v : BitVec 32) (s : State) : (writeEntry v s).epc = s.epc := rfl
@[simp] theorem writeEntry_info (v : BitVec 32) (s : State) : (writeEntry v s).info = s.info := rfl
@[simp] theorem writeEntry_entry (v : BitVec 32) (s : State) : (writeEntry v s).entry = v.setWidth 16 := rfl
@[simp] theorem writeEntry_ie (v : BitVec 32) (s : State) : (writeEntry v s).ie = s.ie := rfl
@[simp] theorem writeEntry_imem (v : BitVec 32) (s : State) : (writeEntry v s).imem = s.imem := rfl
@[simp] theorem writeEntry_dmem (v : BitVec 32) (s : State) : (writeEntry v s).dmem = s.dmem := rfl

/-! ### Register files: reading, writing, completing -/

@[simp] theorem readReg_fileF (s : State) (i : RegIdx) : readReg fileF s i = s.F[i] := rfl
@[simp] theorem writeReg_fileF (s : State) (i : RegIdx) (v : Fp) :
    writeReg fileF s i v = { s with F := s.F.set i (some v) } := rfl
@[simp] theorem finishReg_fileF (s : State) (i : RegIdx) (v : Fp) :
    finishReg fileF i v s = .next { s with F := s.F.set i (some v), pc := s.pc + 1 } := rfl
@[simp] theorem readReg_fileQ (s : State) (i : RegIdx) : readReg fileQ s i = s.Q[i] := rfl
@[simp] theorem writeReg_fileQ (s : State) (i : RegIdx) (v : Fp2) :
    writeReg fileQ s i v = { s with Q := s.Q.set i (some v) } := rfl
@[simp] theorem finishReg_fileQ (s : State) (i : RegIdx) (v : Fp2) :
    finishReg fileQ i v s = .next { s with Q := s.Q.set i (some v), pc := s.pc + 1 } := rfl
@[simp] theorem readReg_fileS (s : State) (i : RegIdx) : readReg fileS s i = s.S[i] := rfl
@[simp] theorem writeReg_fileS (s : State) (i : RegIdx) (v : Fp6) :
    writeReg fileS s i v = { s with S := s.S.set i (some v) } := rfl
@[simp] theorem finishReg_fileS (s : State) (i : RegIdx) (v : Fp6) :
    finishReg fileS i v s = .next { s with S := s.S.set i (some v), pc := s.pc + 1 } := rfl
@[simp] theorem readReg_fileD (s : State) (i : RegIdx) : readReg fileD s i = s.D[i] := rfl
@[simp] theorem writeReg_fileD (s : State) (i : RegIdx) (v : Fp12) :
    writeReg fileD s i v = { s with D := s.D.set i (some v) } := rfl
@[simp] theorem finishReg_fileD (s : State) (i : RegIdx) (v : Fp12) :
    finishReg fileD i v s = .next { s with D := s.D.set i (some v), pc := s.pc + 1 } := rfl
@[simp] theorem readReg_fileP (s : State) (i : RegIdx) : readReg fileP s i = s.P[i] := rfl
@[simp] theorem writeReg_fileP (s : State) (i : RegIdx) (v : G1pt) :
    writeReg fileP s i v = { s with P := s.P.set i (some v) } := rfl
@[simp] theorem finishReg_fileP (s : State) (i : RegIdx) (v : G1pt) :
    finishReg fileP i v s = .next { s with P := s.P.set i (some v), pc := s.pc + 1 } := rfl
@[simp] theorem readReg_fileW (s : State) (i : RegIdx) : readReg fileW s i = s.W[i] := rfl
@[simp] theorem writeReg_fileW (s : State) (i : RegIdx) (v : G2pt) :
    writeReg fileW s i v = { s with W := s.W.set i (some v) } := rfl
@[simp] theorem finishReg_fileW (s : State) (i : RegIdx) (v : G2pt) :
    finishReg fileW i v s = .next { s with W := s.W.set i (some v), pc := s.pc + 1 } := rfl
@[simp] theorem readReg_fileK (s : State) (i : RegIdx) : readReg fileK s i = s.K[i] := rfl
@[simp] theorem writeReg_fileK (s : State) (i : RegIdx) (v : KInt) :
    writeReg fileK s i v = { s with K := s.K.set i (some v) } := rfl
@[simp] theorem finishReg_fileK (s : State) (i : RegIdx) (v : KInt) :
    finishReg fileK i v s = .next { s with K := s.K.set i (some v), pc := s.pc + 1 } := rfl

@[simp] theorem raiseFault_eq (c : Cause) (v : BitVec 32) (s : State) : raiseFault c v s = .next (faulted c v s) := rfl

/-! ### Reset -/

@[simp] theorem resetWith_F (m : Imem) (d : Dmem) : (State.resetWith m d).F = Vector.replicate Config.NREG none := rfl
@[simp] theorem resetWith_Q (m : Imem) (d : Dmem) : (State.resetWith m d).Q = Vector.replicate Config.NREG none := rfl
@[simp] theorem resetWith_S (m : Imem) (d : Dmem) : (State.resetWith m d).S = Vector.replicate Config.NREG none := rfl
@[simp] theorem resetWith_D (m : Imem) (d : Dmem) : (State.resetWith m d).D = Vector.replicate Config.NREG none := rfl
@[simp] theorem resetWith_P (m : Imem) (d : Dmem) : (State.resetWith m d).P = Vector.replicate Config.NREG none := rfl
@[simp] theorem resetWith_W (m : Imem) (d : Dmem) : (State.resetWith m d).W = Vector.replicate Config.NREG none := rfl
@[simp] theorem resetWith_K (m : Imem) (d : Dmem) : (State.resetWith m d).K = Vector.replicate Config.NREG none := rfl
@[simp] theorem resetWith_pc (m : Imem) (d : Dmem) : (State.resetWith m d).pc = 0 := rfl
@[simp] theorem resetWith_T (m : Imem) (d : Dmem) : (State.resetWith m d).T = false := rfl
@[simp] theorem resetWith_run (m : Imem) (d : Dmem) : (State.resetWith m d).run = .idle := rfl
@[simp] theorem resetWith_cause (m : Imem) (d : Dmem) : (State.resetWith m d).cause = .noFault := rfl
@[simp] theorem resetWith_epc (m : Imem) (d : Dmem) : (State.resetWith m d).epc = 0 := rfl
@[simp] theorem resetWith_info (m : Imem) (d : Dmem) : (State.resetWith m d).info = 0 := rfl
@[simp] theorem resetWith_entry (m : Imem) (d : Dmem) : (State.resetWith m d).entry = 0 := rfl
@[simp] theorem resetWith_ie (m : Imem) (d : Dmem) : (State.resetWith m d).ie = false := rfl
@[simp] theorem resetWith_imem (m : Imem) (d : Dmem) : (State.resetWith m d).imem = m := rfl
@[simp] theorem resetWith_dmem (m : Imem) (d : Dmem) : (State.resetWith m d).dmem = d := rfl

end Sys2Proof.Machine
end

