-- ==== Sys2Proof/Laws/Memory.lean ====
section
/-! SUPPORT. Memory cells: a write reads back, leaves every other cell alone and keeps the canonical form; the same for byte
strings; big-endian strings and integers. -/

namespace Sys2Proof.Machine

variable {β : Type} [DecidableEq β] {fill : β} {size : Nat}

/-! ### Cells -/

theorem cellsWf_cons {low k : Nat} {v : β} {m : List (Nat × β)} :
    cellsWf fill size low ((k, v) :: m) = true ↔
      low ≤ k ∧ k < size ∧ v ≠ fill ∧ cellsWf fill size (k + 1) m = true := by
  simp [cellsWf, and_assoc]

theorem cellsWf_mono {low low' : Nat} {m : List (Nat × β)} (h : cellsWf fill size low m = true) (hl : low' ≤ low) :
    cellsWf fill size low' m = true := by
  cases m with
  | nil => rfl
  | cons c m =>
    obtain ⟨k, v⟩ := c
    rw [cellsWf_cons] at *
    exact ⟨by omega, h.2⟩

/-- Below the least listed key everything reads as the fill value. -/
theorem cellsRead_low {low a : Nat} {m : List (Nat × β)} (h : cellsWf fill size low m = true) (ha : a < low) :
    cellsRead fill m a = fill := by
  cases m with
  | nil => rfl
  | cons c m =>
    obtain ⟨k, v⟩ := c
    have := (cellsWf_cons.1 h).1
    simp [cellsRead, show a < k by omega]

theorem cellsCons_wf {low a : Nat} {b : β} {m : List (Nat × β)} (h : cellsWf fill size (a + 1) m = true)
    (hl : low ≤ a) (ha : a < size) : cellsWf fill size low (cellsCons fill a b m) = true := by
  unfold cellsCons
  split
  · exact cellsWf_mono h (by omega)
  · exact cellsWf_cons.2 ⟨hl, ha, ‹_›, h⟩

theorem cellsWrite_wf {low a : Nat} {b : β} {m : List (Nat × β)} (h : cellsWf fill size low m = true) (hl : low ≤ a)
    (ha : a < size) : cellsWf fill size low (cellsWrite fill m a b) = true := by
  induction m generalizing low with
  | nil => exact cellsCons_wf rfl hl ha
  | cons c m ih =>
    obtain ⟨k, v⟩ := c
    have hk := cellsWf_cons.1 h
    unfold cellsWrite
    split
    · exact cellsCons_wf (cellsWf_cons.2 ⟨by omega, hk.2⟩) hl ha
    · split
      · exact cellsCons_wf (by subst a; exact hk.2.2.2) hl ha
      · exact cellsWf_cons.2 ⟨hk.1, hk.2.1, hk.2.2.1, ih hk.2.2.2 (by omega)⟩

theorem cellsRead_cellsCons {a c : Nat} {b : β} {m : List (Nat × β)} (h : cellsWf fill size (a + 1) m = true) :
    cellsRead fill (cellsCons fill a b m) c = if c = a then b else cellsRead fill m c := by
  unfold cellsCons
  split
  · subst b
    split
    · subst c
      exact cellsRead_low h (by omega)
    · rfl
  · rw [cellsRead]
    split
    · rw [if_neg (by omega), cellsRead_low h (by omega)]
    · rfl

/-- A write reads back and leaves every other cell alone. -/
theorem cellsRead_cellsWrite {low a c : Nat} {b : β} {m : List (Nat × β)} (h : cellsWf fill size low m = true) :
    cellsRead fill (cellsWrite fill m a b) c = if c = a then b else cellsRead fill m c := by
  induction m generalizing low with
  | nil => exact cellsRead_cellsCons (size := size) rfl
  | cons x m ih =>
    obtain ⟨k, v⟩ := x
    have hk := cellsWf_cons.1 h
    unfold cellsWrite
    split
    · exact cellsRead_cellsCons (cellsWf_cons.2 ⟨by omega, hk.2⟩)
    · split
      · subst a
        rw [cellsRead_cellsCons hk.2.2.2]
        split
        · rfl
        · rw [cellsRead]
          split
          · exact cellsRead_low hk.2.2.2 (by omega)
          · rfl
      · rw [cellsRead, cellsRead, ih hk.2.2.2]
        by_cases h1 : c < k
        · rw [if_pos h1, if_pos h1, if_neg (by omega)]
        · rw [if_neg h1, if_neg h1]
          by_cases h2 : c = k
          · rw [if_pos h2, if_pos h2, if_neg (by omega)]
          · rw [if_neg h2, if_neg h2]

/-- Canonical forms that read alike are equal. -/
theorem cells_ext {low : Nat} {m m' : List (Nat × β)} (h : cellsWf fill size low m = true)
    (h' : cellsWf fill size low m' = true) (e : ∀ a, cellsRead fill m a = cellsRead fill m' a) : m = m' := by
  induction m generalizing low m' with
  | nil =>
    cases m' with
    | nil => rfl
    | cons y m' =>
      obtain ⟨k', v'⟩ := y
      have hk := cellsWf_cons.1 h'
      exact absurd (by simpa [cellsRead] using (e k').symm) hk.2.2.1
  | cons x m ih =>
    obtain ⟨k, v⟩ := x
    have hk := cellsWf_cons.1 h
    cases m' with
    | nil => exact absurd (by simpa [cellsRead] using e k) hk.2.2.1
    | cons y m' =>
      obtain ⟨k', v'⟩ := y
      have hk' := cellsWf_cons.1 h'
      have hkk : k = k' := by
        rcases Nat.lt_trichotomy k k' with hlt | heq | hgt
        · exact absurd (by simpa [cellsRead, hlt] using e k) hk.2.2.1
        · exact heq
        · exact absurd (by simpa [cellsRead, hgt] using (e k').symm) hk'.2.2.1
      subst hkk
      have hv : v = v' := by simpa [cellsRead] using e k
      subst hv
      rw [ih hk.2.2.2 hk'.2.2.2 fun a => ?_]
      by_cases ha : a ≤ k
      · rw [cellsRead_low hk.2.2.2 (by omega), cellsRead_low hk'.2.2.2 (by omega)]
      · have := e a
        simpa [cellsRead, show ¬ a < k by omega, show ¬ a = k by omega] using this

theorem cellsOfList_wf (l : List (Nat × β)) : cellsWf fill size 0 (cellsOfList fill size l) = true := by
  induction l with
  | nil => rfl
  | cons x l ih =>
    obtain ⟨k, v⟩ := x
    unfold cellsOfList
    split
    · exact cellsWrite_wf ih (Nat.zero_le _) ‹_›
    · exact ih

/-! ### The two memories -/

theorem readByte_writeByte {m : Dmem} (h : Memory.wf m = true) (a c : Nat) (b : Byte) :
    readByte (writeByte m a b) c = if c = a then b else readByte m c := cellsRead_cellsWrite h

theorem writeByte_wf {m : Dmem} (h : Memory.wf m = true) {a : Nat} (ha : a < 4096) (b : Byte) :
    Memory.wf (writeByte m a b) = true := cellsWrite_wf h (Nat.zero_le _) ha

theorem readWord_writeWord {m : Imem} (h : Imem.wf m = true) (a c : Nat) (w : Word) :
    readWord (writeWord m a w) c = if c = a then w else readWord m c := cellsRead_cellsWrite h

theorem writeWord_wf {m : Imem} (h : Imem.wf m = true) {a : Nat} (ha : a < 1024) (w : Word) :
    Imem.wf (writeWord m a w) = true := cellsWrite_wf h (Nat.zero_le _) ha

theorem writeBytes_wf {m : Dmem} (h : Memory.wf m = true) (bs : List Byte) {a : Nat} (ha : a + bs.length ≤ 4096) :
    Memory.wf (writeBytes m a bs) = true := by
  induction bs generalizing m a with
  | nil => exact h
  | cons b bs ih =>
    simp only [List.length_cons] at ha
    exact ih (writeByte_wf h (by omega) b) (by omega)

/-- A byte string written reads back byte for byte, and every byte outside it reads as before. -/
theorem readByte_writeBytes {m : Dmem} (h : Memory.wf m = true) (bs : List Byte) {a : Nat}
    (ha : a + bs.length ≤ 4096) (c : Nat) :
    readByte (writeBytes m a bs) c = if hc : a ≤ c ∧ c < a + bs.length then bs[c - a]'(by omega) else readByte m c := by
  induction bs generalizing m a with
  | nil =>
    simp only [writeBytes, List.length_nil]
    rw [dif_neg (by omega)]
  | cons b bs ih =>
    simp only [List.length_cons] at ha
    rw [writeBytes, ih (writeByte_wf h (by omega) b) (by omega)]
    by_cases h1 : c = a
    · subst h1
      rw [dif_neg (by omega), dif_pos (by simp)]
      simp [readByte_writeByte h]
    · by_cases h2 : a ≤ c ∧ c < a + (b :: bs).length
      · have h3 : a + 1 ≤ c ∧ c < a + 1 + bs.length := by simp only [List.length_cons] at h2; omega
        rw [dif_pos h3, dif_pos h2]
        have : c - a = (c - (a + 1)) + 1 := by omega
        simp [this]
      · have h3 : ¬ (a + 1 ≤ c ∧ c < a + 1 + bs.length) := by simp only [List.length_cons] at h2; omega
        rw [dif_neg h3, dif_neg h2, readByte_writeByte h, if_neg h1]

@[simp] theorem readBytes_length (m : Dmem) (a n : Nat) : (readBytes m a n).length = n := by
  induction n generalizing a with
  | zero => rfl
  | succ n ih => simp [readBytes, ih]

theorem readBytes_get (m : Dmem) (a n k : Nat) (h : k < n) :
    (readBytes m a n)[k]'(by simpa using h) = readByte m (a + k) := by
  induction n generalizing a k with
  | zero => omega
  | succ n ih =>
    cases k with
    | zero => rfl
    | succ k =>
      simp only [readBytes, List.getElem_cons_succ]
      rw [ih (a + 1) k (by omega)]
      congr 1
      omega

/-- A stored byte string is read back whole. -/
theorem readBytes_writeBytes {m : Dmem} (h : Memory.wf m = true) (bs : List Byte) {a : Nat}
    (ha : a + bs.length ≤ 4096) : readBytes (writeBytes m a bs) a bs.length = bs := by
  apply List.ext_getElem
  · simp
  · intro k h1 h2
    rw [readBytes_get _ _ _ _ h2, readByte_writeBytes h bs ha, dif_pos ⟨by omega, by omega⟩]
    simp

/-- Adjacent reads of a byte string are one read. -/
theorem readBytes_append (m : Dmem) (a n k : Nat) :
    readBytes m a (n + k) = readBytes m a n ++ readBytes m (a + n) k := by
  induction n generalizing a with
  | zero => simp [readBytes]
  | succ n ih =>
    rw [show n + 1 + k = (n + k) + 1 by omega, readBytes, readBytes, ih, List.cons_append]
    congr 3
    omega

/-! ### Big-endian strings -/

@[simp] theorem beBytes_length (n v : Nat) : (beBytes n v).length = n := by
  induction n generalizing v with
  | zero => rfl
  | succ n ih => simp [beBytes, ih]

theorem beIntFrom_append (acc : Nat) (bs cs : List Byte) :
    beIntFrom acc (bs ++ cs) = beIntFrom (beIntFrom acc bs) cs := by
  induction bs generalizing acc with
  | nil => rfl
  | cons b bs ih => simp [beIntFrom, ih]

theorem beIntFrom_eq (acc : Nat) (bs : List Byte) : beIntFrom acc bs = acc * 256 ^ bs.length + beInt bs := by
  induction bs generalizing acc with
  | nil => simp [beIntFrom, beInt]
  | cons b bs ih =>
    have e : beInt (b :: bs) = b.toNat * 256 ^ bs.length + beInt bs := by
      show beIntFrom (0 * 256 + b.toNat) bs = _
      rw [ih, Nat.zero_mul, Nat.zero_add]
    show beIntFrom (acc * 256 + b.toNat) bs = _
    rw [ih, e, List.length_cons, Nat.pow_succ', Nat.add_mul, Nat.mul_assoc, Nat.add_assoc]

theorem beInt_cons (b : Byte) (bs : List Byte) : beInt (b :: bs) = b.toNat * 256 ^ bs.length + beInt bs := by
  show beIntFrom (0 * 256 + b.toNat) bs = _
  rw [beIntFrom_eq, Nat.zero_mul, Nat.zero_add]

/-- `int(BE_n(v)) = v` where v fits n bytes. -/
theorem beInt_beBytes (n v : Nat) (h : v < 256 ^ n) : beInt (beBytes n v) = v := by
  induction n generalizing v with
  | zero => simp at h; subst h; rfl
  | succ n ih =>
    have h1 : v / 256 < 256 ^ n := by
      rw [Nat.div_lt_iff_lt_mul (by decide)]
      simpa [Nat.pow_succ] using h
    rw [beInt, beBytes, beIntFrom_append]
    have := ih _ h1
    rw [beInt] at this
    rw [this]
    simp [beIntFrom, BitVec.toNat_ofNat]
    omega

theorem beInt_lt (bs : List Byte) : beInt bs < 256 ^ bs.length := by
  induction bs with
  | nil => decide
  | cons b bs ih =>
    rw [beInt_cons, List.length_cons, Nat.pow_succ']
    have := b.isLt
    have h2 : b.toNat * 256 ^ bs.length ≤ 255 * 256 ^ bs.length := Nat.mul_le_mul_right _ (by omega)
    omega

/-- `BE_n(int(b)) = b`. -/
theorem beBytes_beInt (bs : List Byte) : beBytes bs.length (beInt bs) = bs := by
  suffices h : ∀ n (bs : List Byte), bs.length = n → beBytes n (beInt bs) = bs from h _ bs rfl
  intro n
  induction n with
  | zero => intro bs h; simpa [beBytes] using (List.eq_nil_of_length_eq_zero h).symm
  | succ n ih =>
    intro bs h
    obtain ⟨cs, c, rfl⟩ : ∃ cs c, bs = cs ++ [c] := ⟨bs.dropLast, bs.getLast (by intro e; simp [e] at h),
      (List.dropLast_concat_getLast _).symm⟩
    have hl : cs.length = n := by simpa using h
    have e : beInt (cs ++ [c]) = beInt cs * 256 + c.toNat := by
      rw [beInt, beIntFrom_append]; rfl
    have hc : c.toNat < 256 := c.isLt
    rw [e, beBytes, show (beInt cs * 256 + c.toNat) / 256 = beInt cs by omega, ih cs hl]
    congr 2
    apply BitVec.eq_of_toNat_eq
    simp [BitVec.toNat_ofNat]
    omega

/-- Both memories are in canonical form after reset. -/
theorem reset_memory_wf : Memory.wf State.reset.dmem = true ∧ Imem.wf State.reset.imem = true := ⟨rfl, rfl⟩

end Sys2Proof.Machine
end

