-- ==== Sys2Proof/Laws/Operands.lean ====
section
/-! SUPPORT. What each operand shape answers, said once: the effect where every source is valid, the fault at the first that
is not, and, for the inversion of a step, the two cases together. -/

namespace Sys2Proof.Machine

variable {α β δ γ : Type}

/-! ### Reading sources -/

theorem withReg_some {fl : File α} {w : Word} {i : RegIdx} {s : State} {k : α → Result} {v : α}
    (h : readReg fl s i = some v) : withReg fl w i s k = k v := by simp [withReg, h]

theorem withReg_none {fl : File α} {w : Word} {i : RegIdx} {s : State} {k : α → Result}
    (h : readReg fl s i = none) : withReg fl w i s k = .next (faulted .uninitRegister w s) := by
  simp [withReg, h]

/-- Either the source is valid and the rest decides, or the answer is `UninitRegister`. -/
theorem withReg_cases {fl : File α} {w : Word} {i : RegIdx} {s t : State} {k : α → Result}
    (h : withReg fl w i s k = .next t) :
    (∃ v, readReg fl s i = some v ∧ k v = .next t) ∨
    (readReg fl s i = none ∧ t = faulted .uninitRegister w s) := by
  cases hr : readReg fl s i with
  | some v => exact .inl ⟨v, rfl, by simpa [withReg, hr] using h⟩
  | none => exact .inr ⟨rfl, by simpa [withReg, hr] using h.symm⟩

theorem op1_some {src : File α} {dst : File γ} {w : Word} {rd ra : RegIdx} {f : α → γ} {s : State} {a : α}
    (h : readReg src s ra = some a) : op1 src dst w rd ra f s = finishReg dst rd (f a) s := withReg_some h

theorem op1_none {src : File α} {dst : File γ} {w : Word} {rd ra : RegIdx} {f : α → γ} {s : State}
    (h : readReg src s ra = none) : op1 src dst w rd ra f s = .next (faulted .uninitRegister w s) := withReg_none h

theorem op2_some {srcA : File α} {srcB : File β} {dst : File γ} {w : Word} {rd ra rb : RegIdx} {f : α → β → γ}
    {s : State} {a : α} {b : β} (ha : readReg srcA s ra = some a) (hb : readReg srcB s rb = some b) :
    op2 srcA srcB dst w rd ra rb f s = finishReg dst rd (f a b) s := by
  rw [op2, withReg_some ha, withReg_some hb]

theorem op2_none {srcA : File α} {srcB : File β} {dst : File γ} {w : Word} {rd ra rb : RegIdx} {f : α → β → γ}
    {s : State} (h : readReg srcA s ra = none ∨ readReg srcB s rb = none) :
    op2 srcA srcB dst w rd ra rb f s = .next (faulted .uninitRegister w s) := by
  cases ha : readReg srcA s ra with
  | none => exact withReg_none ha
  | some a =>
    have hb : readReg srcB s rb = none := by simpa [ha] using h
    rw [op2, withReg_some ha, withReg_none hb]

theorem op3_some {srcA : File α} {srcB : File β} {srcC : File δ} {dst : File γ} {w : Word} {rd ra rb rc : RegIdx}
    {f : α → β → δ → γ} {s : State} {a : α} {b : β} {c : δ} (ha : readReg srcA s ra = some a)
    (hb : readReg srcB s rb = some b) (hc : readReg srcC s rc = some c) :
    op3 srcA srcB srcC dst w rd ra rb rc f s = finishReg dst rd (f a b c) s := by
  rw [op3, withReg_some ha, withReg_some hb, withReg_some hc]

theorem op3_none {srcA : File α} {srcB : File β} {srcC : File δ} {dst : File γ} {w : Word} {rd ra rb rc : RegIdx}
    {f : α → β → δ → γ} {s : State}
    (h : readReg srcA s ra = none ∨ readReg srcB s rb = none ∨ readReg srcC s rc = none) :
    op3 srcA srcB srcC dst w rd ra rb rc f s = .next (faulted .uninitRegister w s) := by
  cases ha : readReg srcA s ra with
  | none => exact withReg_none ha
  | some a =>
    rw [op3, withReg_some ha]
    cases hb : readReg srcB s rb with
    | none => exact withReg_none hb
    | some b =>
      have hc : readReg srcC s rc = none := by simpa [ha, hb] using h
      rw [withReg_some hb, withReg_none hc]

theorem test1_some {src : File α} {w : Word} {ra : RegIdx} {p : α → Bool} {s : State} {a : α}
    (h : readReg src s ra = some a) : test1 src w ra p s = finishTest (p a) s := withReg_some h

theorem test1_none {src : File α} {w : Word} {ra : RegIdx} {p : α → Bool} {s : State}
    (h : readReg src s ra = none) : test1 src w ra p s = .next (faulted .uninitRegister w s) := withReg_none h

theorem test2_some {src : File α} {w : Word} {ra rb : RegIdx} {p : α → α → Bool} {s : State} {a b : α}
    (ha : readReg src s ra = some a) (hb : readReg src s rb = some b) :
    test2 src w ra rb p s = finishTest (p a b) s := by
  rw [test2, withReg_some ha, withReg_some hb]

theorem test2_none {src : File α} {w : Word} {ra rb : RegIdx} {p : α → α → Bool} {s : State}
    (h : readReg src s ra = none ∨ readReg src s rb = none) :
    test2 src w ra rb p s = .next (faulted .uninitRegister w s) := by
  cases ha : readReg src s ra with
  | none => exact withReg_none ha
  | some a =>
    have hb : readReg src s rb = none := by simpa [ha] using h
    rw [test2, withReg_some ha, withReg_none hb]

@[simp] theorem finishTest_eq (b : Bool) (s : State) :
    finishTest b s = .next { s with T := b, pc := s.pc + 1 } := rfl

theorem branchIf_eq (b : Bool) (t : BitVec 16) (s : State) :
    branchIf b t s = .next { s with pc := if b then t else s.pc + 1 } := by
  cases b <;> rfl

theorem opNew_some {src : File α} {dst : File γ} {w : Word} {rd ra rb : RegIdx} {c : α → α → Bool} {mk : α → α → γ}
    {s : State} {x y : α} (hx : readReg src s ra = some x) (hy : readReg src s rb = some y) :
    opNew src dst w rd ra rb c mk s =
      if c x y then finishReg dst rd (mk x y) s else .next (faulted .invalidPoint w s) := by
  rw [opNew, withReg_some hx, withReg_some hy]
  rfl

theorem opNew_none {src : File α} {dst : File γ} {w : Word} {rd ra rb : RegIdx} {c : α → α → Bool} {mk : α → α → γ}
    {s : State} (h : readReg src s ra = none ∨ readReg src s rb = none) :
    opNew src dst w rd ra rb c mk s = .next (faulted .uninitRegister w s) := by
  cases ha : readReg src s ra with
  | none => exact withReg_none ha
  | some a =>
    have hb : readReg src s rb = none := by simpa [ha] using h
    rw [opNew, withReg_some ha, withReg_none hb]

/-! ### The DMEM operand -/

theorem withAccess_fits {addr : Addr} {n : Nat} {s : State} {k : Result} (h : addr.toNat + n ≤ 4096) :
    withAccess addr n s k = k := by
  rw [withAccess, if_neg (by simpa using h)]

theorem withAccess_past {addr : Addr} {n : Nat} {s : State} {k : Result} (h : 4096 < addr.toNat + n) :
    withAccess addr n s k = .next (faulted .dmemAccessFault (addr.setWidth 32) s) := by
  rw [withAccess, if_pos h]
  rfl

theorem withLength_eq {len : BitVec 9} {n : Nat} {s : State} {k : Result} (h : len.toNat = n) :
    withLength len n s k = k := by
  rw [withLength, if_pos h]

theorem withLength_ne {len : BitVec 9} {n : Nat} {s : State} {k : Result} (h : len.toNat ≠ n) :
    withLength len n s k = .next (faulted .invalidEncoding (len.setWidth 32) s) := by
  rw [withLength, if_neg h]
  rfl

end Sys2Proof.Machine
end

