-- ==== Sys2Proof/Laws/Exec.lean ====
section
/-! SUPPORT. Everything a command can do, said once: `exec_effect` (one lemma per operand shape, one case per command), the
same for a step, and that nothing is refused. Frames and invariants cite these instead of unfolding the 96 meanings. -/

namespace Sys2Proof.Laws

open Sys2Proof.Machine Sys2Proof.Safety

/-- A register file under its name. -/
inductive Named : FileName → {α : Type} → File α → Prop where
  | F : Named .F fileF
  | Q : Named .Q fileQ
  | S : Named .S fileS
  | D : Named .D fileD
  | P : Named .P fileP
  | W : Named .W fileW
  | K : Named .K fileK

/-- The causes a command itself raises (60_exceptions.md R280): all but the fetch fault. -/
def commandCause (c : Cause) : Prop := c ≠ .noFault ∧ c ≠ .imemFetchFault

/-- What a command can do to a state. -/
inductive Effect (i : Instr) (s : State) : State → Prop where
  /-- the fault record and nothing else -/
  | fault (c : Cause) (v : BitVec 32) (hc : commandCause c) : Effect i s (faulted c v s)
  /-- one register and `pc` -/
  | reg {α : Type} (f : FileName) (fl : File α) (r : RegIdx) (v : α) (hf : Named f fl) (hd : destOf i = .reg f r) :
    Effect i s (advance (writeReg fl s r v))
  /-- `T` and `pc` -/
  | flag (b : Bool) (hd : destOf i = .flag) : Effect i s (advance { s with T := b })
  /-- the bytes of the destination and `pc` -/
  | store (addr : Addr) (bs : List Byte) (hd : destOf i = .mem addr bs.length) (hb : addr.toNat + bs.length ≤ 4096) :
    Effect i s (advance { s with dmem := writeBytes s.dmem addr.toNat bs })
  /-- `pc` -/
  | nop (hi : i = .nop) : Effect i s (advance s)
  /-- `pc`, for a jump or a branch -/
  | jump (target : BitVec 16) (hd : destOf i = .none) (h1 : i ≠ .halt) (h2 : i ≠ .nop) : Effect i s { s with pc := target }
  /-- the run state -/
  | halt (hi : i = .halt) : Effect i s (halted s)

/-- The answer is a next state that is an effect of the command. -/
def Answers (i : Instr) (s : State) (r : Result) : Prop := ∃ t, r = .next t ∧ Effect i s t

variable {α β δ γ : Type} {i : Instr} {s : State}

theorem answers_raise {c : Cause} {v : BitVec 32} (hc : commandCause c) : Answers i s (raiseFault c v s) :=
  ⟨_, rfl, .fault c v hc⟩

theorem answers_reg {f : FileName} {fl : File α} {r : RegIdx} (v : α) (hf : Named f fl) (hd : destOf i = .reg f r) :
    Answers i s (finishReg fl r v s) := ⟨_, rfl, .reg f fl r v hf hd⟩

theorem answers_test {b : Bool} (hd : destOf i = .flag) : Answers i s (finishTest b s) := ⟨_, rfl, .flag b hd⟩

theorem answers_withReg {fl : File α} {w : Word} {r : RegIdx} {k : α → Result} (hk : ∀ v, Answers i s (k v)) :
    Answers i s (withReg fl w r s k) := by
  unfold withReg
  split
  · exact hk _
  · exact answers_raise ⟨by decide, by decide⟩

theorem answers_op1 {f : FileName} {src : File α} {dst : File γ} {w : Word} {rd ra : RegIdx} {g : α → γ}
    (hf : Named f dst) (hd : destOf i = .reg f rd) : Answers i s (op1 src dst w rd ra g s) :=
  answers_withReg fun _ => answers_reg _ hf hd

theorem answers_op2 {f : FileName} {srcA : File α} {srcB : File β} {dst : File γ} {w : Word} {rd ra rb : RegIdx}
    {g : α → β → γ} (hf : Named f dst) (hd : destOf i = .reg f rd) : Answers i s (op2 srcA srcB dst w rd ra rb g s) :=
  answers_withReg fun _ => answers_withReg fun _ => answers_reg _ hf hd

theorem answers_op3 {f : FileName} {srcA : File α} {srcB : File β} {srcC : File δ} {dst : File γ} {w : Word}
    {rd ra rb rc : RegIdx} {g : α → β → δ → γ} (hf : Named f dst) (hd : destOf i = .reg f rd) :
    Answers i s (op3 srcA srcB srcC dst w rd ra rb rc g s) :=
  answers_withReg fun _ => answers_withReg fun _ => answers_withReg fun _ => answers_reg _ hf hd

theorem answers_opNew {f : FileName} {src : File α} {dst : File γ} {w : Word} {rd ra rb : RegIdx} {c : α → α → Bool}
    {mk : α → α → γ} (hf : Named f dst) (hd : destOf i = .reg f rd) :
    Answers i s (opNew src dst w rd ra rb c mk s) := by
  refine answers_withReg fun _ => answers_withReg fun _ => ?_
  split
  · exact answers_reg _ hf hd
  · exact answers_raise ⟨by decide, by decide⟩

theorem answers_test1 {src : File α} {w : Word} {ra : RegIdx} {p : α → Bool} (hd : destOf i = .flag) :
    Answers i s (test1 src w ra p s) := answers_withReg fun _ => answers_test hd

theorem answers_test2 {src : File α} {w : Word} {ra rb : RegIdx} {p : α → α → Bool} (hd : destOf i = .flag) :
    Answers i s (test2 src w ra rb p s) := answers_withReg fun _ => answers_withReg fun _ => answers_test hd

theorem answers_ite {c : Prop} [Decidable c] {k k' : Result} (h : Answers i s k) (h' : Answers i s k') :
    Answers i s (if c then k else k') := by
  split
  · exact h
  · exact h'

theorem answers_withPairs {w : Word} {n : Nat} {k : List (G1pt × G2pt) → Result} (hk : ∀ l, Answers i s (k l)) :
    Answers i s (withPairs w n s k) := by
  unfold withPairs
  split
  · exact hk _
  · exact answers_raise ⟨by decide, by decide⟩

theorem answers_withLength {len : BitVec 9} {n : Nat} {k : Result} (hk : Answers i s k) :
    Answers i s (withLength len n s k) := answers_ite hk (answers_raise ⟨by decide, by decide⟩)

theorem answers_withAccess {addr : Addr} {n : Nat} {k : Result} (hk : addr.toNat + n ≤ 4096 → Answers i s k) :
    Answers i s (withAccess addr n s k) := by
  by_cases h : addr.toNat + n ≤ 4096
  · rw [withAccess_fits h]
    exact hk h
  · rw [withAccess_past (by omega)]
    exact answers_raise ⟨by decide, by decide⟩

theorem answers_withField {a : Nat} {k : Fp → Result} (hk : ∀ v, Answers i s (k v)) :
    Answers i s (withField a s k) := by
  unfold withField
  split
  · exact hk _
  · exact answers_raise ⟨by decide, by decide⟩

theorem answers_withField2 {a : Nat} {k : Fp2 → Result} (hk : ∀ v, Answers i s (k v)) :
    Answers i s (withField2 a s k) := answers_withField fun _ => answers_withField fun _ => hk _

theorem answers_withField6 {a : Nat} {k : Fp6 → Result} (hk : ∀ v, Answers i s (k v)) :
    Answers i s (withField6 a s k) :=
  answers_withField2 fun _ => answers_withField2 fun _ => answers_withField2 fun _ => hk _

theorem answers_store {src : File α} {w : Word} {r : RegIdx} {addr : Addr} {n : Nat} {enc : α → List Byte}
    (hn : ∀ v, (enc v).length = n) (hd : destOf i = .mem addr n) : Answers i s (opStore src w r addr n enc s) :=
  answers_withReg fun v => answers_withAccess fun h =>
    ⟨_, rfl, .store addr (enc v) (by rw [hd, hn]) (by rw [hn]; exact h)⟩

@[simp] theorem encFp_length (v : Fp) : (encFp v).length = 32 := beBytes_length 32 _
@[simp] theorem encFp2_length (x : Fp2) : (encFp2 x).length = 64 := by simp [encFp2]
@[simp] theorem encFp6_length (x : Fp6) : (encFp6 x).length = 192 := by simp [encFp6]
@[simp] theorem encG1_length (A : G1pt) : (encG1 A).length = 64 := by simp [encG1]
@[simp] theorem encG2_length (A : G2pt) : (encG2 A).length = 128 := by simp [encG2]
@[simp] theorem encGt_length (x : Fp12) : (encGt x).length = 384 := by simp [encGt]

/-- Every command answers a next state, and it is one of its effects. -/
theorem exec_answers (i : Instr) (s : State) : Answers i s (exec i s) := by
  cases i
  case nop => exact ⟨_, rfl, .nop rfl⟩
  case halt => exact ⟨_, rfl, .halt rfl⟩
  case jmp target => exact ⟨_, rfl, .jump target rfl (by simp) (by simp)⟩
  case bt target => exact ⟨_, branchIf_eq _ _ _, .jump _ rfl (by simp) (by simp)⟩
  case bf target => exact ⟨_, branchIf_eq _ _ _, .jump _ rfl (by simp) (by simp)⟩
  case kLi => exact answers_reg _ .K rfl
  case fLi => exact answers_reg _ .F rfl
  case dOne => exact answers_reg _ .D rfl
  case g1Inf => exact answers_reg _ .P rfl
  case g1Gen => exact answers_reg _ .P rfl
  case g2Inf => exact answers_reg _ .W rfl
  case g2Gen => exact answers_reg _ .W rfl
  case g1New => exact answers_opNew .P rfl
  case g2New => exact answers_opNew .W rfl
  case fEq | fIsZ | qEq | qIsZ | sEq | sIsZ | dEq | dIsZ | dIsOne | g1Eq | g1IsInf | g2Eq | g2IsInf =>
    first | exact answers_test1 rfl | exact answers_test2 rfl
  case qGet => exact answers_ite (answers_op1 .F rfl) (answers_raise ⟨by decide, by decide⟩)
  case sGet => exact answers_ite (answers_op1 .Q rfl) (answers_raise ⟨by decide, by decide⟩)
  case dGet => exact answers_ite (answers_op1 .S rfl) (answers_raise ⟨by decide, by decide⟩)
  case pchk =>
    exact answers_ite (answers_withPairs fun _ => answers_test rfl) (answers_raise ⟨by decide, by decide⟩)
  case pchke =>
    exact answers_ite (answers_withPairs fun _ => answers_ite (answers_test rfl) (answers_raise ⟨by decide, by decide⟩))
      (answers_raise ⟨by decide, by decide⟩)
  case g1Enc => exact answers_store encG1_length rfl
  case g2Enc => exact answers_store encG2_length rfl
  case gtEnc => exact answers_store encGt_length rfl
  case fSt => exact answers_store encFp_length rfl
  case g1Dec =>
    exact answers_withLength <| answers_withAccess fun _ => answers_withField fun _ => answers_withField fun _ =>
      answers_ite (answers_reg _ .P rfl) (answers_raise ⟨by decide, by decide⟩)
  case g2Dec =>
    exact answers_withLength <| answers_withAccess fun _ => answers_withField2 fun _ => answers_withField2 fun _ =>
      answers_ite (answers_reg _ .W rfl) (answers_raise ⟨by decide, by decide⟩)
  case gtDec =>
    exact answers_withLength <| answers_withAccess fun _ => answers_withField6 fun _ => answers_withField6 fun _ =>
      answers_reg _ .D rfl
  case fLd => exact answers_withAccess fun _ => answers_withField fun _ => answers_reg _ .F rfl
  case kLd =>
    exact answers_ite (answers_withAccess fun _ => answers_reg _ .K rfl) (answers_raise ⟨by decide, by decide⟩)
  case sPack => exact answers_op3 .S rfl
  case lineAdd => exact answers_op3 .D rfl
  case kMov => exact answers_op1 .K rfl
  case fSqr | fNeg | fInv | fMov | g1GetX | g1GetY => exact answers_op1 .F rfl
  case fAdd | fSub | fMul => exact answers_op2 .F rfl
  case qSqr | qNeg | qInv | qMov | qMnr | g2GetX | g2GetY => exact answers_op1 .Q rfl
  case qAdd | qSub | qMul | qPack => exact answers_op2 .Q rfl
  case sSqr | sNeg | sInv | sMov | sMulV => exact answers_op1 .S rfl
  case sAdd | sSub | sMul => exact answers_op2 .S rfl
  case dSqr | dNeg | dInv | dMov | dConj | fexp => exact answers_op1 .D rfl
  case dAdd | dSub | dMul | dPack | dExp | lineDbl | mloop | pair => exact answers_op2 .D rfl
  case g1Dbl | g1Neg | g1Mov => exact answers_op1 .P rfl
  case g1Add | g1Smul => exact answers_op2 .P rfl
  case g2Dbl | g2Neg | g2Mov => exact answers_op1 .W rfl
  case g2Add | g2Smul => exact answers_op2 .W rfl

/-- What a command that answers `t` did. -/
theorem exec_effect {i : Instr} {s t : State} (h : exec i s = .next t) : Effect i s t := by
  obtain ⟨t', e, he⟩ := exec_answers i s
  rw [e] at h
  cases h
  exact he

/-- What a step that answers `t` did: nothing where the core does not run, the fetch fault past IMEM, the decode fault on a
word that is no command, else the effect of the command. -/
theorem step_cases {s t : State} (h : step s = .next t) :
    (s.run ≠ .run ∧ t = s) ∨
    (s.run = .run ∧ 1024 ≤ s.pc.toNat ∧ t = faulted .imemFetchFault (s.pc.setWidth 32) s) ∨
    (s.run = .run ∧ s.pc.toNat < 1024 ∧ (∃ e, decode (readWord s.imem s.pc.toNat) = .error e) ∧
      t = faulted .illegalInstruction (readWord s.imem s.pc.toNat) s) ∨
    (s.run = .run ∧ s.pc.toNat < 1024 ∧ ∃ i, decode (readWord s.imem s.pc.toNat) = .ok i ∧ exec i s = .next t) := by
  unfold step at h
  split at h
  · rename_i hr
    rw [runStep, withCommand] at h
    split at h
    · rename_i hp
      split at h
      · rename_i i hd
        exact .inr (.inr (.inr ⟨hr, hp, i, hd, h⟩))
      · rename_i e hd
        cases h
        exact .inr (.inr (.inl ⟨hr, hp, ⟨e, hd⟩, rfl⟩))
    · rename_i hp
      cases h
      exact .inr (.inl ⟨hr, Nat.le_of_not_lt hp, rfl⟩)
  all_goals
    rename_i hr
    cases h
    exact .inl ⟨by rw [hr]; decide, rfl⟩

/-- A placed command is the command the next step runs (log 9). -/
theorem step_withFetchWord {s : State} {nbits w : Nat} {i : Instr} (hm : Imem.wf s.imem = true) (hp : s.pc.toNat < 1024)
    (hd : decode (BitVec.ofNat 32 (w % 2 ^ nbits)) = .ok i) :
    step (s.withFetchWord nbits w) = exec i (s.withFetchWord nbits w) := by
  have hf : fetchIndex s = s.pc := if_pos hp
  have hr : readWord (s.withFetchWord nbits w).imem (s.withFetchWord nbits w).pc.toNat = BitVec.ofNat 32 (w % 2 ^ nbits) := by
    show readWord (writeWord s.imem (fetchIndex s).toNat _) (fetchIndex s).toNat = _
    rw [readWord_writeWord hm, if_pos rfl]
  have hp' : (s.withFetchWord nbits w).pc.toNat < 1024 := by
    show (fetchIndex s).toNat < 1024
    rw [hf]
    exact hp
  show runStep _ = _
  rw [runStep, withCommand, if_pos hp', hr, hd]

end Sys2Proof.Laws
end

