-- ==== Sys2Proof/Laws/Encoding.lean ====
section
/-! SUPPORT. Words and their fields (30_encoding.md R81 to R83): the number a word of each format is, the fields of it, and a
word put together again from its fields. -/

namespace Sys2Proof

theorem append_toNat {m n : Nat} (x : BitVec m) (y : BitVec n) : (x ++ y).toNat = x.toNat * 2 ^ n + y.toNat := by
  rw [BitVec.toNat_append, Nat.shiftLeft_eq, Nat.mul_comm, ← Nat.two_pow_add_eq_or_of_lt y.isLt, Nat.mul_comm]

theorem wordR_toNat (op : BitVec 8) (rd ra rb rc : BitVec 6) : (wordR op rd ra rb rc).toNat =
    op.toNat * 2 ^ 24 + rd.toNat * 2 ^ 18 + ra.toNat * 2 ^ 12 + rb.toNat * 2 ^ 6 + rc.toNat := by
  unfold wordR
  simp only [append_toNat]
  omega

theorem wordI_toNat (op : BitVec 8) (rd : BitVec 6) (imm : BitVec 16) :
    (wordI op rd imm).toNat = op.toNat * 2 ^ 24 + rd.toNat * 2 ^ 18 + imm.toNat := by
  unfold wordI
  simp only [append_toNat]
  simp
  omega

theorem wordM_toNat (op : BitVec 8) (r : BitVec 3) (addr : Addr) (len : BitVec 9) :
    (wordM op r addr len).toNat = op.toNat * 2 ^ 24 + r.toNat * 2 ^ 21 + addr.toNat * 2 ^ 9 + len.toNat := by
  unfold wordM
  simp only [append_toNat]
  omega

/-! ### Fields of a word -/

@[simp] theorem opField_wordR (op : BitVec 8) (rd ra rb rc : BitVec 6) : opField (wordR op rd ra rb rc) = op := by
  apply BitVec.eq_of_toNat_eq
  simp only [opField, BitVec.extractLsb'_toNat, Nat.shiftRight_eq_div_pow, wordR_toNat]
  omega
@[simp] theorem rdField_wordR (op : BitVec 8) (rd ra rb rc : BitVec 6) : rdField (wordR op rd ra rb rc) = rd := by
  apply BitVec.eq_of_toNat_eq
  simp only [rdField, BitVec.extractLsb'_toNat, Nat.shiftRight_eq_div_pow, wordR_toNat]
  omega
@[simp] theorem raField_wordR (op : BitVec 8) (rd ra rb rc : BitVec 6) : raField (wordR op rd ra rb rc) = ra := by
  apply BitVec.eq_of_toNat_eq
  simp only [raField, BitVec.extractLsb'_toNat, Nat.shiftRight_eq_div_pow, wordR_toNat]
  omega
@[simp] theorem rbField_wordR (op : BitVec 8) (rd ra rb rc : BitVec 6) : rbField (wordR op rd ra rb rc) = rb := by
  apply BitVec.eq_of_toNat_eq
  simp only [rbField, BitVec.extractLsb'_toNat, Nat.shiftRight_eq_div_pow, wordR_toNat]
  omega
@[simp] theorem rcField_wordR (op : BitVec 8) (rd ra rb rc : BitVec 6) : rcField (wordR op rd ra rb rc) = rc := by
  apply BitVec.eq_of_toNat_eq
  simp only [rcField, BitVec.extractLsb'_toNat, Nat.shiftRight_eq_div_pow, wordR_toNat]
  omega
@[simp] theorem opField_wordI (op : BitVec 8) (rd : BitVec 6) (imm : BitVec 16) : opField (wordI op rd imm) = op := by
  apply BitVec.eq_of_toNat_eq
  simp only [opField, BitVec.extractLsb'_toNat, Nat.shiftRight_eq_div_pow, wordI_toNat]
  omega
@[simp] theorem rdField_wordI (op : BitVec 8) (rd : BitVec 6) (imm : BitVec 16) : rdField (wordI op rd imm) = rd := by
  apply BitVec.eq_of_toNat_eq
  simp only [rdField, BitVec.extractLsb'_toNat, Nat.shiftRight_eq_div_pow, wordI_toNat]
  omega
@[simp] theorem zeroField_wordI (op : BitVec 8) (rd : BitVec 6) (imm : BitVec 16) : zeroField (wordI op rd imm) = 0 := by
  apply BitVec.eq_of_toNat_eq
  simp only [zeroField, BitVec.extractLsb'_toNat, Nat.shiftRight_eq_div_pow, wordI_toNat, BitVec.ofNat_eq_ofNat, BitVec.toNat_ofNat]
  omega
@[simp] theorem immField_wordI (op : BitVec 8) (rd : BitVec 6) (imm : BitVec 16) : immField (wordI op rd imm) = imm := by
  apply BitVec.eq_of_toNat_eq
  simp only [immField, BitVec.extractLsb'_toNat, Nat.shiftRight_eq_div_pow, wordI_toNat]
  omega
@[simp] theorem opField_wordM (op : BitVec 8) (r : BitVec 3) (addr : Addr) (len : BitVec 9) :
    opField (wordM op r addr len) = op := by
  apply BitVec.eq_of_toNat_eq
  simp only [opField, BitVec.extractLsb'_toNat, Nat.shiftRight_eq_div_pow, wordM_toNat]
  omega
@[simp] theorem rField_wordM (op : BitVec 8) (r : BitVec 3) (addr : Addr) (len : BitVec 9) :
    rField (wordM op r addr len) = r := by
  apply BitVec.eq_of_toNat_eq
  simp only [rField, BitVec.extractLsb'_toNat, Nat.shiftRight_eq_div_pow, wordM_toNat]
  omega
@[simp] theorem addrField_wordM (op : BitVec 8) (r : BitVec 3) (addr : Addr) (len : BitVec 9) :
    addrField (wordM op r addr len) = addr := by
  apply BitVec.eq_of_toNat_eq
  simp only [addrField, BitVec.extractLsb'_toNat, Nat.shiftRight_eq_div_pow, wordM_toNat]
  omega
@[simp] theorem lenField_wordM (op : BitVec 8) (r : BitVec 3) (addr : Addr) (len : BitVec 9) :
    lenField (wordM op r addr len) = len := by
  apply BitVec.eq_of_toNat_eq
  simp only [lenField, BitVec.extractLsb'_toNat, Nat.shiftRight_eq_div_pow, wordM_toNat]
  omega

/-! ### A word from its fields -/

theorem wordR_fields (w : Word) : wordR (opField w) (rdField w) (raField w) (rbField w) (rcField w) = w := by
  apply BitVec.eq_of_toNat_eq
  have := w.isLt
  simp only [wordR_toNat, opField, rdField, raField, rbField, rcField, BitVec.extractLsb'_toNat,
    Nat.shiftRight_eq_div_pow]
  omega

theorem wordI_fields (w : Word) (h : zeroField w = 0) : wordI (opField w) (rdField w) (immField w) = w := by
  apply BitVec.eq_of_toNat_eq
  have := w.isLt
  have hz := congrArg BitVec.toNat h
  simp only [zeroField, BitVec.extractLsb'_toNat, Nat.shiftRight_eq_div_pow, BitVec.ofNat_eq_ofNat,
    BitVec.toNat_ofNat] at hz
  simp only [wordI_toNat, opField, rdField, immField, BitVec.extractLsb'_toNat, Nat.shiftRight_eq_div_pow]
  omega

theorem wordM_fields (w : Word) : wordM (opField w) (rField w) (addrField w) (lenField w) = w := by
  apply BitVec.eq_of_toNat_eq
  have := w.isLt
  simp only [wordM_toNat, opField, rField, addrField, lenField, BitVec.extractLsb'_toNat, Nat.shiftRight_eq_div_pow]
  omega

/-! ### Register fields -/

@[simp] theorem idx6_toNat (i : RegIdx) : (idx6 i).toNat = i.val := by revert i; decide
@[simp] theorem regOf3_idx3 (i : RegIdx) : regOf3 (idx3 i) = i := by revert i; decide
@[simp] theorem regOf_idx6 (i : RegIdx) : regOf (idx6 i) = .ok i := by
  unfold regOf
  rw [dif_pos (by rw [idx6_toNat]; exact i.isLt)]
  congr 1
  exact Fin.ext (idx6_toNat i)

@[simp] theorem withIdx_idx6 (i : RegIdx) (k : RegIdx → Except Reject Instr) : withIdx (idx6 i) k = k i := by
  simp [withIdx]
@[simp] theorem unused_zero {n : Nat} (i : Except Reject Instr) : unused (0#n) i = i := by simp [unused]
@[simp] theorem idx3_toNat (i : RegIdx) : (idx3 i).toNat = i.val := by revert i; decide

theorem idx3_regOf3 (x : BitVec 3) : idx3 (regOf3 x) = x := by revert x; decide

/-- What a used register field that decodes says of it. -/
theorem withIdx_ok {x : BitVec 6} {k : RegIdx → Except Reject Instr} {i : Instr} (h : withIdx x k = .ok i) :
    ∃ r, x = idx6 r ∧ k r = .ok i := by
  unfold withIdx regOf at h
  by_cases hx : x.toNat < Config.NREG
  · rw [dif_pos hx] at h
    refine ⟨⟨x.toNat, hx⟩, ?_, h⟩
    apply BitVec.eq_of_toNat_eq
    rw [idx6_toNat]
  · rw [dif_neg hx] at h
    cases h

/-- What an unused field that passes says of it. -/
theorem unused_ok {n : Nat} {x : BitVec n} {k : Except Reject Instr} {i : Instr} (h : unused x k = .ok i) :
    x = 0 ∧ k = .ok i := by
  unfold unused at h
  split at h
  · exact ⟨‹_›, h⟩
  · cases h

/-! ### What a word that reads by a layout is -/

theorem readLayout_none_ok {w : Word} {c i : Instr} (h : readLayout w (.none c) = .ok i) :
    i = c ∧ w = wordR (opField w) 0 0 0 0 := by
  obtain ⟨h1, h⟩ := unused_ok h
  obtain ⟨h2, h⟩ := unused_ok h
  obtain ⟨h3, h⟩ := unused_ok h
  obtain ⟨h4, h⟩ := unused_ok h
  cases h
  refine ⟨rfl, ?_⟩
  exact (wordR_fields w).symm.trans (by rw [h1, h2, h3, h4])

theorem readLayout_rd_ok {w : Word} {mk : RegIdx → Instr} {i : Instr} (h : readLayout w (.rd mk) = .ok i) :
    ∃ d, i = mk d ∧ w = wordR (opField w) (idx6 d) 0 0 0 := by
  obtain ⟨d, h1, h⟩ := withIdx_ok h
  obtain ⟨h2, h⟩ := unused_ok h
  obtain ⟨h3, h⟩ := unused_ok h
  obtain ⟨h4, h⟩ := unused_ok h
  cases h
  refine ⟨d, rfl, ?_⟩
  exact (wordR_fields w).symm.trans (by rw [h1, h2, h3, h4])

theorem readLayout_ra_ok {w : Word} {mk : RegIdx → Instr} {i : Instr} (h : readLayout w (.ra mk) = .ok i) :
    ∃ a, i = mk a ∧ w = wordR (opField w) 0 (idx6 a) 0 0 := by
  obtain ⟨h1, h⟩ := unused_ok h
  obtain ⟨a, h2, h⟩ := withIdx_ok h
  obtain ⟨h3, h⟩ := unused_ok h
  obtain ⟨h4, h⟩ := unused_ok h
  cases h
  refine ⟨a, rfl, ?_⟩
  exact (wordR_fields w).symm.trans (by rw [h1, h2, h3, h4])

theorem readLayout_rdRa_ok {w : Word} {mk : RegIdx → RegIdx → Instr} {i : Instr}
    (h : readLayout w (.rdRa mk) = .ok i) :
    ∃ d a, i = mk d a ∧ w = wordR (opField w) (idx6 d) (idx6 a) 0 0 := by
  obtain ⟨d, h1, h⟩ := withIdx_ok h
  obtain ⟨a, h2, h⟩ := withIdx_ok h
  obtain ⟨h3, h⟩ := unused_ok h
  obtain ⟨h4, h⟩ := unused_ok h
  cases h
  refine ⟨d, a, rfl, ?_⟩
  exact (wordR_fields w).symm.trans (by rw [h1, h2, h3, h4])

theorem readLayout_raRb_ok {w : Word} {mk : RegIdx → RegIdx → Instr} {i : Instr}
    (h : readLayout w (.raRb mk) = .ok i) :
    ∃ a b, i = mk a b ∧ w = wordR (opField w) 0 (idx6 a) (idx6 b) 0 := by
  obtain ⟨h1, h⟩ := unused_ok h
  obtain ⟨a, h2, h⟩ := withIdx_ok h
  obtain ⟨b, h3, h⟩ := withIdx_ok h
  obtain ⟨h4, h⟩ := unused_ok h
  cases h
  refine ⟨a, b, rfl, ?_⟩
  exact (wordR_fields w).symm.trans (by rw [h1, h2, h3, h4])

theorem readLayout_rdRaRb_ok {w : Word} {mk : RegIdx → RegIdx → RegIdx → Instr} {i : Instr}
    (h : readLayout w (.rdRaRb mk) = .ok i) :
    ∃ d a b, i = mk d a b ∧ w = wordR (opField w) (idx6 d) (idx6 a) (idx6 b) 0 := by
  obtain ⟨d, h1, h⟩ := withIdx_ok h
  obtain ⟨a, h2, h⟩ := withIdx_ok h
  obtain ⟨b, h3, h⟩ := withIdx_ok h
  obtain ⟨h4, h⟩ := unused_ok h
  cases h
  refine ⟨d, a, b, rfl, ?_⟩
  exact (wordR_fields w).symm.trans (by rw [h1, h2, h3, h4])

theorem readLayout_rdRaRbRc_ok {w : Word} {mk : RegIdx → RegIdx → RegIdx → RegIdx → Instr} {i : Instr}
    (h : readLayout w (.rdRaRbRc mk) = .ok i) :
    ∃ d a b c, i = mk d a b c ∧ w = wordR (opField w) (idx6 d) (idx6 a) (idx6 b) (idx6 c) := by
  obtain ⟨d, h1, h⟩ := withIdx_ok h
  obtain ⟨a, h2, h⟩ := withIdx_ok h
  obtain ⟨b, h3, h⟩ := withIdx_ok h
  obtain ⟨c, h4, h⟩ := withIdx_ok h
  cases h
  refine ⟨d, a, b, c, rfl, ?_⟩
  exact (wordR_fields w).symm.trans (by rw [h1, h2, h3, h4])

theorem readLayout_rdRaSel_ok {w : Word} {n : Nat} {mk : RegIdx → RegIdx → BitVec 6 → Instr} {i : Instr}
    (h : readLayout w (.rdRaSel n mk) = .ok i) :
    ∃ d a sel, sel.toNat < n ∧ i = mk d a sel ∧ w = wordR (opField w) (idx6 d) (idx6 a) sel 0 := by
  obtain ⟨d, h1, h⟩ := withIdx_ok h
  obtain ⟨a, h2, h⟩ := withIdx_ok h
  split at h
  · obtain ⟨h4, h⟩ := unused_ok h
    cases h
    refine ⟨d, a, _, ‹_›, rfl, ?_⟩
    exact (wordR_fields w).symm.trans (by rw [h1, h2, h4])
  · cases h

theorem readLayout_target_ok {w : Word} {mk : BitVec 16 → Instr} {i : Instr}
    (h : readLayout w (.target mk) = .ok i) : ∃ t, i = mk t ∧ w = wordI (opField w) 0 t := by
  obtain ⟨h1, h⟩ := unused_ok h
  obtain ⟨h2, h⟩ := unused_ok h
  cases h
  refine ⟨_, rfl, ?_⟩
  exact (wordI_fields w h2).symm.trans (by rw [h1])

theorem readLayout_rdImm_ok {w : Word} {mk : RegIdx → BitVec 16 → Instr} {i : Instr}
    (h : readLayout w (.rdImm mk) = .ok i) : ∃ d t, i = mk d t ∧ w = wordI (opField w) (idx6 d) t := by
  obtain ⟨d, h1, h⟩ := withIdx_ok h
  obtain ⟨h2, h⟩ := unused_ok h
  cases h
  refine ⟨d, _, rfl, ?_⟩
  exact (wordI_fields w h2).symm.trans (by rw [h1])

theorem readLayout_count_ok {w : Word} {mk : BitVec 16 → Instr} {i : Instr}
    (h : readLayout w (.count mk) = .ok i) : ∃ n, n.toNat ≤ 8 ∧ i = mk n ∧ w = wordI (opField w) 0 n := by
  obtain ⟨h1, h⟩ := unused_ok h
  obtain ⟨h2, h⟩ := unused_ok h
  split at h
  · cases h
    refine ⟨_, ‹_›, rfl, ?_⟩
    exact (wordI_fields w h2).symm.trans (by rw [h1])
  · cases h

theorem readLayout_mem_ok {w : Word} {mk : RegIdx → Addr → Instr} {i : Instr}
    (h : readLayout w (.mem mk) = .ok i) : ∃ r a, i = mk r a ∧ w = wordM (opField w) (idx3 r) a 0 := by
  obtain ⟨h1, h⟩ := unused_ok h
  cases h
  refine ⟨_, _, rfl, ?_⟩
  rw [idx3_regOf3]
  exact (wordM_fields w).symm.trans (by rw [h1])

theorem readLayout_memLen_ok {w : Word} {n : Nat} {mk : RegIdx → Addr → BitVec 9 → Instr} {i : Instr}
    (h : readLayout w (.memLen n mk) = .ok i) :
    ∃ r a len, len.toNat ≤ n ∧ i = mk r a len ∧ w = wordM (opField w) (idx3 r) a len := by
  simp only [readLayout] at h
  split at h
  · cases h
    refine ⟨_, _, _, ‹_›, rfl, ?_⟩
    rw [idx3_regOf3, wordM_fields]
  · cases h

/-! ### Masks: a bitwise AND acts field by field -/

theorem append_and {m n : Nat} (a b : BitVec m) (c d : BitVec n) : (a ++ c) &&& (b ++ d) = (a &&& b) ++ (c &&& d) := by
  apply BitVec.eq_of_getLsbD_eq
  intro i _
  simp only [BitVec.getLsbD_and, BitVec.getLsbD_append]
  split <;> rfl

theorem wordR_and (op op' : BitVec 8) (rd rd' ra ra' rb rb' rc rc' : BitVec 6) :
    wordR op rd ra rb rc &&& wordR op' rd' ra' rb' rc' =
      wordR (op &&& op') (rd &&& rd') (ra &&& ra') (rb &&& rb') (rc &&& rc') := by
  unfold wordR
  refine (append_and (op ++ rd ++ ra ++ rb) _ rc _).trans ?_
  rw [append_and, append_and, append_and]

theorem wordM_and (op op' : BitVec 8) (r r' : BitVec 3) (a a' : Addr) (l l' : BitVec 9) :
    wordM op r a l &&& wordM op' r' a' l' = wordM (op &&& op') (r &&& r') (a &&& a') (l &&& l') := by
  unfold wordM
  refine (append_and (op ++ r ++ a) _ l _).trans ?_
  rw [append_and, append_and]

theorem wordR_inj {op op' : BitVec 8} {rd rd' ra ra' rb rb' rc rc' : BitVec 6} :
    wordR op rd ra rb rc = wordR op' rd' ra' rb' rc' ↔
      op = op' ∧ rd = rd' ∧ ra = ra' ∧ rb = rb' ∧ rc = rc' := by
  constructor
  · intro h
    exact ⟨by simpa using congrArg opField h, by simpa using congrArg rdField h, by simpa using congrArg raField h,
      by simpa using congrArg rbField h, by simpa using congrArg rcField h⟩
  · rintro ⟨rfl, rfl, rfl, rfl, rfl⟩
    rfl

theorem wordM_inj {op op' : BitVec 8} {r r' : BitVec 3} {a a' : Addr} {l l' : BitVec 9} :
    wordM op r a l = wordM op' r' a' l' ↔ op = op' ∧ r = r' ∧ a = a' ∧ l = l' := by
  constructor
  · intro h
    exact ⟨by simpa using congrArg opField h, by simpa using congrArg rField h, by simpa using congrArg addrField h,
      by simpa using congrArg lenField h⟩
  · rintro ⟨rfl, rfl, rfl, rfl⟩
    rfl

/-! ### Rows of the opcode map -/

theorem findRow_mem {op : BitVec 8} {rows : List (BitVec 8 × Layout)} {l : Layout} (h : findRow op rows = some l) :
    (op, l) ∈ rows := by
  induction rows with
  | nil => cases h
  | cons r rows ih =>
    obtain ⟨o, m⟩ := r
    unfold findRow at h
    split at h
    · rename_i e
      cases h
      rw [e]
      exact List.mem_cons_self
    · exact List.mem_cons_of_mem _ (ih h)

/-- A word that decodes reads by the row of its opcode. -/
theorem decode_ok {w : Word} {i : Instr} (h : decode w = .ok i) :
    ∃ l, (opField w, l) ∈ opcodeTable ∧ readLayout w l = .ok i := by
  unfold decode at h
  split at h
  · exact ⟨_, findRow_mem ‹_›, h⟩
  · cases h

theorem decode_of_row {w : Word} {op : BitVec 8} {l : Layout} (hr : findRow op opcodeTable = some l)
    (hw : opField w = op) : decode w = readLayout w l := by
  unfold decode
  rw [hw, hr]

end Sys2Proof
end

