-- ==== Sys2Proof/Laws/Rules.lean ====
section
/-! SUPPORT. The shapes of Safety.lean follow from the operand shapes of Machine/Operands.lean: a claim about a command's
result is then its encoding (by `rfl`), its meaning (by `rfl`) and one fact about the function it computes. -/

namespace Sys2Proof.Laws

open Sys2Proof.Machine Sys2Proof.Safety

variable {α β δ γ : Type} {op : Nat} {opc : BitVec 8}

/-- Replacing this file leaves `pc` alone. -/
def KeepsPc (fl : File γ) : Prop := ∀ s r, (fl.put s r).pc = s.pc

theorem keepsPc_F : KeepsPc fileF := fun _ _ => rfl
theorem keepsPc_Q : KeepsPc fileQ := fun _ _ => rfl
theorem keepsPc_S : KeepsPc fileS := fun _ _ => rfl
theorem keepsPc_D : KeepsPc fileD := fun _ _ => rfl
theorem keepsPc_P : KeepsPc fileP := fun _ _ => rfl
theorem keepsPc_W : KeepsPc fileW := fun _ _ => rfl
theorem keepsPc_K : KeepsPc fileK := fun _ _ => rfl

theorem finishReg_eq_wroteReg {dst : File γ} (hk : KeepsPc dst) (rd : RegIdx) (v : γ) (s : State) :
    finishReg dst rd v s = .next (wroteReg dst rd v s) := by
  unfold finishReg advance writeReg wroteReg
  rw [hk]

theorem faulted_eq_faultState (c : Cause) (v : BitVec 32) (s : State) : faulted c v s = faultState c v s := rfl

theorem word_formatR (hop : opc.toNat = op) (rd ra rb rc : RegIdx) :
    (wordR opc (idx6 rd) (idx6 ra) (idx6 rb) (idx6 rc)).toNat = formatR op rd ra rb rc := by
  rw [wordR_toNat, idx6_toNat, idx6_toNat, idx6_toNat, idx6_toNat, hop]
  rfl

theorem word_formatI (hop : opc.toNat = op) (rd : RegIdx) (imm : BitVec 16) :
    (wordI opc (idx6 rd) imm).toNat = formatI op rd imm.toNat := by
  rw [wordI_toNat, idx6_toNat, hop]
  rfl

theorem word_formatM (hop : opc.toNat = op) (r : RegIdx) (addr : Addr) (len : BitVec 9) :
    (wordM opc (idx3 r) addr len).toNat = formatM op r addr.toNat len.toNat := by
  rw [wordM_toNat, idx3_toNat, hop]
  rfl

theorem ruleUnary_of {src : File α} {dst : File γ} {mk : RegIdx → RegIdx → Instr} {post : α → γ → Prop} (f : α → γ)
    (hk : KeepsPc dst) (hop : opc.toNat = op) (he : ∀ rd ra, encode (mk rd ra) = wordR opc (idx6 rd) (idx6 ra) 0 0)
    (hx : ∀ rd ra s, exec (mk rd ra) s = op1 src dst (encode (mk rd ra)) rd ra f s) (hp : ∀ a, post a (f a)) :
    RuleUnary op src dst mk post := by
  refine fun rd ra => ⟨he rd ra ▸ word_formatR hop rd ra 0 0, fun s => ⟨fun a ha => ⟨f a, hp a, ?_⟩, fun ha => ?_⟩⟩
  · rw [hx, op1_some ha, finishReg_eq_wroteReg hk]
  · rw [hx, op1_none ha]
    rfl

theorem ruleBinary_of {srcA : File α} {srcB : File β} {dst : File γ} {mk : RegIdx → RegIdx → RegIdx → Instr}
    {post : α → β → γ → Prop} (f : α → β → γ) (hk : KeepsPc dst) (hop : opc.toNat = op)
    (he : ∀ rd ra rb, encode (mk rd ra rb) = wordR opc (idx6 rd) (idx6 ra) (idx6 rb) 0)
    (hx : ∀ rd ra rb s, exec (mk rd ra rb) s = op2 srcA srcB dst (encode (mk rd ra rb)) rd ra rb f s)
    (hp : ∀ a b, post a b (f a b)) : RuleBinary op srcA srcB dst mk post := by
  refine fun rd ra rb => ⟨he rd ra rb ▸ word_formatR hop rd ra rb 0, fun s =>
    ⟨fun a b ha hb => ⟨f a b, hp a b, ?_⟩, fun h => ?_⟩⟩
  · rw [hx, op2_some ha hb, finishReg_eq_wroteReg hk]
  · rw [hx, op2_none h]
    rfl

theorem ruleTernary_of {srcA : File α} {srcB : File β} {srcC : File δ} {dst : File γ}
    {mk : RegIdx → RegIdx → RegIdx → RegIdx → Instr} {post : α → β → δ → γ → Prop} (f : α → β → δ → γ)
    (hk : KeepsPc dst) (hop : opc.toNat = op)
    (he : ∀ rd ra rb rc, encode (mk rd ra rb rc) = wordR opc (idx6 rd) (idx6 ra) (idx6 rb) (idx6 rc))
    (hx : ∀ rd ra rb rc s, exec (mk rd ra rb rc) s =
      op3 srcA srcB srcC dst (encode (mk rd ra rb rc)) rd ra rb rc f s)
    (hp : ∀ a b c, post a b c (f a b c)) : RuleTernary op srcA srcB srcC dst mk post := by
  refine fun rd ra rb rc => ⟨he rd ra rb rc ▸ word_formatR hop rd ra rb rc, fun s =>
    ⟨fun a b c ha hb hc => ⟨f a b c, hp a b c, ?_⟩, fun h => ?_⟩⟩
  · rw [hx, op3_some ha hb hc, finishReg_eq_wroteReg hk]
  · rw [hx, op3_none h]
    rfl

theorem ruleNew_of {src : File α} {dst : File γ} {mk : RegIdx → RegIdx → RegIdx → Instr} {point : α → α → γ}
    {onCurve : γ → Prop} (c : α → α → Bool) (hk : KeepsPc dst) (hop : opc.toNat = op)
    (he : ∀ rd ra rb, encode (mk rd ra rb) = wordR opc (idx6 rd) (idx6 ra) (idx6 rb) 0)
    (hx : ∀ rd ra rb s, exec (mk rd ra rb) s = opNew src dst (encode (mk rd ra rb)) rd ra rb c point s)
    (hc : ∀ x y, c x y = true ↔ onCurve (point x y)) : RuleNew op src dst mk point onCurve := by
  refine fun rd ra rb => ⟨he rd ra rb ▸ word_formatR hop rd ra rb 0, fun s =>
    ⟨fun x y hx' hy => ⟨fun h => ?_, fun h => ?_⟩, fun h => ?_⟩⟩
  · rw [hx, opNew_some hx' hy, if_pos ((hc x y).2 h), finishReg_eq_wroteReg hk]
  · rw [hx, opNew_some hx' hy, if_neg fun e => h ((hc x y).1 e)]
    rfl
  · rw [hx, opNew_none h]
    rfl

theorem ruleConst_of {dst : File γ} {mk : RegIdx → Instr} {v : γ} (hk : KeepsPc dst) (hop : opc.toNat = op)
    (he : ∀ rd, encode (mk rd) = wordR opc (idx6 rd) 0 0 0) (hx : ∀ rd s, exec (mk rd) s = finishReg dst rd v s) :
    RuleConst op dst mk v :=
  fun rd => ⟨he rd ▸ word_formatR hop rd 0 0 0, fun s => by rw [hx, finishReg_eq_wroteReg hk]⟩

theorem ruleImm_of {dst : File γ} {mk : RegIdx → BitVec 16 → Instr} {post : BitVec 16 → γ → Prop} (f : BitVec 16 → γ)
    (hk : KeepsPc dst) (hop : opc.toNat = op) (he : ∀ rd imm, encode (mk rd imm) = wordI opc (idx6 rd) imm)
    (hx : ∀ rd imm s, exec (mk rd imm) s = finishReg dst rd (f imm) s) (hp : ∀ imm, post imm (f imm)) :
    RuleImm op dst mk post :=
  fun rd imm => ⟨he rd imm ▸ word_formatI hop rd imm, fun s =>
    ⟨f imm, hp imm, by rw [hx, finishReg_eq_wroteReg hk]⟩⟩

theorem ruleTest1_of {src : File α} {mk : RegIdx → Instr} {p : α → Bool} (q : α → Bool) (hop : opc.toNat = op)
    (he : ∀ ra, encode (mk ra) = wordR opc 0 (idx6 ra) 0 0)
    (hx : ∀ ra s, exec (mk ra) s = test1 src (encode (mk ra)) ra q s) (hq : ∀ a, q a = p a) :
    RuleTest1 op src mk p := by
  refine fun ra => ⟨he ra ▸ word_formatR hop 0 ra 0 0, fun s => ⟨fun a ha => ?_, fun ha => ?_⟩⟩
  · rw [hx, test1_some ha, hq]
    rfl
  · rw [hx, test1_none ha]
    rfl

theorem ruleTest2_of {src : File α} {mk : RegIdx → RegIdx → Instr} {p : α → α → Bool} (q : α → α → Bool)
    (hop : opc.toNat = op) (he : ∀ ra rb, encode (mk ra rb) = wordR opc 0 (idx6 ra) (idx6 rb) 0)
    (hx : ∀ ra rb s, exec (mk ra rb) s = test2 src (encode (mk ra rb)) ra rb q s) (hq : ∀ a b, q a b = p a b) :
    RuleTest2 op src mk p := by
  refine fun ra rb => ⟨he ra rb ▸ word_formatR hop 0 ra rb 0, fun s => ⟨fun a b ha hb => ?_, fun h => ?_⟩⟩
  · rw [hx, test2_some ha hb, hq]
    rfl
  · rw [hx, test2_none h]
    rfl

end Sys2Proof.Laws
end

