-- ==== Sys2Proof/Laws/Prime.lean ====
section
/-! SUPPORT. `p` is prime: a Pratt certificate, checked by the kernel. The spec states that p is prime (41_fp.md R120); it
is a fact about the numeral of 00_scope.md R5. -/

namespace Sys2Proof.Laws

/-- `a^e mod n` by squaring, for the kernel: `fuel` bounds the bits of `e`. -/
def powMod (n : Nat) : Nat → Nat → Nat → Nat
  | 0, _, _ => 1 % n
  | fuel + 1, a, e =>
    let t := powMod n fuel (a * a % n) (e / 2)
    if e % 2 = 1 then a * t % n else t

theorem powMod_eq (n fuel a e : Nat) (h : e < 2 ^ fuel) : powMod n fuel a e = a ^ e % n := by
  induction fuel generalizing a e with
  | zero =>
    have : e = 0 := by simpa using h
    subst this
    simp [powMod]
  | succ fuel ih =>
    have h2 : e / 2 < 2 ^ fuel := by
      rw [Nat.pow_succ] at h
      omega
    have key : powMod n fuel (a * a % n) (e / 2) = (a * a) ^ (e / 2) % n := by rw [ih _ _ h2, ← Nat.pow_mod]
    have hsq : (a * a) ^ (e / 2) = a ^ (2 * (e / 2)) := by rw [pow_mul, sq]
    rw [powMod, key, hsq]
    by_cases he : e % 2 = 1
    · have : e = 2 * (e / 2) + 1 := by omega
      rw [if_pos he, Nat.mul_mod, Nat.mod_mod, ← Nat.mul_mod, ← pow_succ', ← this]
    · have : e = 2 * (e / 2) := by omega
      rw [if_neg he, ← this]

/-- Lucas' test with the factors of n − 1 given as a list. -/
theorem prime_of_pratt (n a : Nat) (l : List Nat) (hn : 1 < n) (hf : n - 1 < 2 ^ 256) (hprod : l.prod = n - 1)
    (hl : ∀ q ∈ l, q.Prime) (h1 : powMod n 256 a (n - 1) = 1)
    (h2 : ∀ q ∈ l, powMod n 256 a ((n - 1) / q) ≠ 1) : n.Prime := by
  have red : ∀ e, e < 2 ^ 256 → ((a : ZMod n) ^ e = 1 ↔ powMod n 256 a e = 1) := by
    intro e he
    rw [powMod_eq n 256 a e he]
    have : ((a : ZMod n) ^ e = 1) ↔ ((a ^ e : Nat) : ZMod n) = ((1 : Nat) : ZMod n) := by push_cast; rfl
    rw [this, ZMod.natCast_eq_natCast_iff, Nat.ModEq, Nat.mod_eq_of_lt hn]
  refine lucas_primality n (a : ZMod n) ((red _ hf).2 h1) ?_
  intro q hq hd
  rw [← hprod] at hd
  obtain ⟨r, hr, hqr⟩ := (Nat.Prime.prime hq).dvd_prod_iff.1 hd
  have : q = r := (Nat.prime_dvd_prime_iff_eq hq (hl r hr)).1 hqr
  subst this
  intro hc
  exact h2 q hr ((red _ (lt_of_le_of_lt (Nat.div_le_self _ _) hf)).1 hc)

theorem prime_11003 : Nat.Prime 11003 := by
  refine prime_of_pratt 11003 2
    [2, 5501]
    (by decide +kernel) (by decide +kernel) (by decide +kernel) ?_ (by decide +kernel) (by decide +kernel)
  simp only [List.mem_cons, List.not_mem_nil, or_false, forall_eq_or_imp, forall_eq]
  exact ⟨(by norm_num), (by norm_num)⟩

theorem prime_405928799 : Nat.Prime 405928799 := by
  refine prime_of_pratt 405928799 22
    [2, 11, 3691, 4999]
    (by decide +kernel) (by decide +kernel) (by decide +kernel) ?_ (by decide +kernel) (by decide +kernel)
  simp only [List.mem_cons, List.not_mem_nil, or_false, forall_eq_or_imp, forall_eq]
  exact ⟨(by norm_num), (by norm_num), (by norm_num), (by norm_num)⟩

theorem prime_327599 : Nat.Prime 327599 := by
  refine prime_of_pratt 327599 19
    [2, 19, 37, 233]
    (by decide +kernel) (by decide +kernel) (by decide +kernel) ?_ (by decide +kernel) (by decide +kernel)
  simp only [List.mem_cons, List.not_mem_nil, or_false, forall_eq_or_imp, forall_eq]
  exact ⟨(by norm_num), (by norm_num), (by norm_num), (by norm_num)⟩

theorem prime_11465965001 : Nat.Prime 11465965001 := by
  refine prime_of_pratt 11465965001 3
    [2, 2, 2, 5, 5, 5, 5, 7, 327599]
    (by decide +kernel) (by decide +kernel) (by decide +kernel) ?_ (by decide +kernel) (by decide +kernel)
  simp only [List.mem_cons, List.not_mem_nil, or_false, forall_eq_or_imp, forall_eq]
  exact ⟨(by norm_num), (by norm_num), (by norm_num), (by norm_num), (by norm_num), (by norm_num), (by norm_num), (by norm_num), prime_327599⟩

theorem prime_1853641 : Nat.Prime 1853641 := by
  refine prime_of_pratt 1853641 17
    [2, 2, 2, 3, 3, 5, 19, 271]
    (by decide +kernel) (by decide +kernel) (by decide +kernel) ?_ (by decide +kernel) (by decide +kernel)
  simp only [List.mem_cons, List.not_mem_nil, or_false, forall_eq_or_imp, forall_eq]
  exact ⟨(by norm_num), (by norm_num), (by norm_num), (by norm_num), (by norm_num), (by norm_num), (by norm_num), (by norm_num)⟩

theorem prime_4562087 : Nat.Prime 4562087 := by
  refine prime_of_pratt 4562087 5
    [2, 17, 109, 1231]
    (by decide +kernel) (by decide +kernel) (by decide +kernel) ?_ (by decide +kernel) (by decide +kernel)
  simp only [List.mem_cons, List.not_mem_nil, or_false, forall_eq_or_imp, forall_eq]
  exact ⟨(by norm_num), (by norm_num), (by norm_num), (by norm_num)⟩

theorem prime_13327 : Nat.Prime 13327 := by
  refine prime_of_pratt 13327 3
    [2, 3, 2221]
    (by decide +kernel) (by decide +kernel) (by decide +kernel) ?_ (by decide +kernel) (by decide +kernel)
  simp only [List.mem_cons, List.not_mem_nil, or_false, forall_eq_or_imp, forall_eq]
  exact ⟨(by norm_num), (by norm_num), (by norm_num)⟩

theorem prime_173171039 : Nat.Prime 173171039 := by
  refine prime_of_pratt 173171039 13
    [2, 73, 89, 13327]
    (by decide +kernel) (by decide +kernel) (by decide +kernel) ?_ (by decide +kernel) (by decide +kernel)
  simp only [List.mem_cons, List.not_mem_nil, or_false, forall_eq_or_imp, forall_eq]
  exact ⟨(by norm_num), (by norm_num), (by norm_num), prime_13327⟩

theorem prime_1263766531 : Nat.Prime 1263766531 := by
  refine prime_of_pratt 1263766531 10
    [2, 3, 5, 13, 911, 3557]
    (by decide +kernel) (by decide +kernel) (by decide +kernel) ?_ (by decide +kernel) (by decide +kernel)
  simp only [List.mem_cons, List.not_mem_nil, or_false, forall_eq_or_imp, forall_eq]
  exact ⟨(by norm_num), (by norm_num), (by norm_num), (by norm_num), (by norm_num), (by norm_num)⟩

theorem prime_35385462869 : Nat.Prime 35385462869 := by
  refine prime_of_pratt 35385462869 2
    [2, 2, 7, 1263766531]
    (by decide +kernel) (by decide +kernel) (by decide +kernel) ?_ (by decide +kernel) (by decide +kernel)
  simp only [List.mem_cons, List.not_mem_nil, or_false, forall_eq_or_imp, forall_eq]
  exact ⟨(by norm_num), (by norm_num), (by norm_num), prime_1263766531⟩

theorem prime_2480874801745591 : Nat.Prime 2480874801745591 := by
  refine prime_of_pratt 2480874801745591 6
    [2, 3, 3, 5, 19, 41, 35385462869]
    (by decide +kernel) (by decide +kernel) (by decide +kernel) ?_ (by decide +kernel) (by decide +kernel)
  simp only [List.mem_cons, List.not_mem_nil, or_false, forall_eq_or_imp, forall_eq]
  exact ⟨(by norm_num), (by norm_num), (by norm_num), (by norm_num), (by norm_num), (by norm_num), prime_35385462869⟩

theorem prime_13427688667394608761327070753331941386769 : Nat.Prime 13427688667394608761327070753331941386769 := by
  refine prime_of_pratt 13427688667394608761327070753331941386769 17
    [2, 2, 2, 2, 3, 7, 11, 1853641, 4562087, 173171039, 2480874801745591]
    (by decide +kernel) (by decide +kernel) (by decide +kernel) ?_ (by decide +kernel) (by decide +kernel)
  simp only [List.mem_cons, List.not_mem_nil, or_false, forall_eq_or_imp, forall_eq]
  exact ⟨(by norm_num), (by norm_num), (by norm_num), (by norm_num), (by norm_num), (by norm_num), (by norm_num), prime_1853641, prime_4562087, prime_173171039, prime_2480874801745591⟩

/-- p is prime (41_fp.md R120). -/
theorem primeP_prime : Nat.Prime primeP := by
  refine prime_of_pratt primeP 3
    [2, 3, 3, 13, 29, 67, 229, 311, 983, 11003, 405928799, 11465965001, 13427688667394608761327070753331941386769]
    (by decide +kernel) (by decide +kernel) (by decide +kernel) ?_ (by decide +kernel) (by decide +kernel)
  simp only [List.mem_cons, List.not_mem_nil, or_false, forall_eq_or_imp, forall_eq]
  exact ⟨(by norm_num), (by norm_num), (by norm_num), (by norm_num), (by norm_num), (by norm_num), (by norm_num), (by norm_num), (by norm_num), prime_11003, prime_405928799, prime_11465965001, prime_13427688667394608761327070753331941386769⟩

end Sys2Proof.Laws
end

