-- ==== Sys2Proof/Laws/Field.lean ====
section
/-! SUPPORT. The base field: `Fp` with its operations embeds in `ZMod p`, and the bit scan computes powers. -/

namespace Sys2Proof.Laws

open Sys2Proof.Machine

/-- `ZMod p` is a field because p is prime. -/
theorem fact_prime : Fact (Nat.Prime primeP) := ⟨primeP_prime⟩

/-- The residue class of a canonical representative. -/
def to1 (a : Fp) : ZMod primeP := (a.val : ZMod primeP)

theorem to1_injective : Function.Injective to1 := by
  intro a b h
  have := (ZMod.natCast_eq_natCast_iff' a.val b.val primeP).1 h
  rw [Nat.mod_eq_of_lt a.isLt, Nat.mod_eq_of_lt b.isLt] at this
  exact Fin.ext this

theorem to1_eq {a b : Fp} : to1 a = to1 b ↔ a = b := to1_injective.eq_iff

@[simp] theorem to1_ofNat (n : Nat) : to1 (fpOfNat n) = n := by
  show ((n % primeP : Nat) : ZMod primeP) = n
  exact ZMod.natCast_mod n primeP

@[simp] theorem to1_add (a b : Fp) : to1 (fpAdd a b) = to1 a + to1 b := by
  rw [fpAdd, to1_ofNat, Nat.cast_add]; rfl

@[simp] theorem to1_mul (a b : Fp) : to1 (fpMul a b) = to1 a * to1 b := by
  rw [fpMul, to1_ofNat, Nat.cast_mul]; rfl

@[simp] theorem to1_sqr (a : Fp) : to1 (fpSqr a) = to1 a * to1 a := by
  rw [fpSqr, to1_ofNat, Nat.cast_mul]; rfl

@[simp] theorem to1_neg (a : Fp) : to1 (fpNeg a) = -to1 a := by
  have h : a.val ≤ primeP := Nat.le_of_lt a.isLt
  rw [fpNeg, to1_ofNat, Nat.cast_sub h, ZMod.natCast_self, zero_sub]; rfl

@[simp] theorem to1_sub (a b : Fp) : to1 (fpSub a b) = to1 a - to1 b := by
  have h : b.val ≤ primeP := Nat.le_of_lt b.isLt
  rw [fpSub, to1_ofNat, Nat.cast_add, Nat.cast_sub h, ZMod.natCast_self, zero_sub, ← sub_eq_add_neg]; rfl

theorem lt_two_pow_bitlen (e : Nat) : e < 2 ^ bitlen e := by
  unfold bitlen
  split
  · subst e; decide
  · exact Nat.lt_log2_self

/-- The scan of 00_scope.md R7 computes a power under any map to a commutative monoid that turns the combination into the
product and the step of the base into its square. -/
theorem scanLsb_pow {α M : Type} [CommMonoid M] (φ : α → M) {comb : α → α → α} {dbl : α → α}
    (hc : ∀ a b, φ (comb a b) = φ a * φ b) (hd : ∀ a, φ (dbl a) = φ a * φ a) (n e : Nat) (h : e < 2 ^ n)
    (acc base : α) : φ (scanLsb comb dbl n e acc base) = φ acc * φ base ^ e := by
  induction n generalizing e acc base with
  | zero =>
    have : e = 0 := by simpa using h
    subst this
    simp [scanLsb]
  | succ n ih =>
    have h2 : e / 2 < 2 ^ n := by rw [Nat.pow_succ] at h; omega
    rw [scanLsb, ih _ h2, hd]
    by_cases he : e % 2 = 1
    · rw [if_pos he, hc, mul_assoc]
      congr 1
      conv_rhs => rw [show e = 2 * (e / 2) + 1 by omega, pow_succ', pow_mul, sq]
    · rw [if_neg he]
      congr 1
      conv_rhs => rw [show e = 2 * (e / 2) by omega, pow_mul, sq]

theorem scanBits_pow {α M : Type} [CommMonoid M] (φ : α → M) {comb : α → α → α} {dbl : α → α}
    (hc : ∀ a b, φ (comb a b) = φ a * φ b) (hd : ∀ a, φ (dbl a) = φ a * φ a) (unit base : α) (hu : φ unit = 1)
    (e : Nat) : φ (scanBits comb dbl unit base e) = φ base ^ e := by
  rw [scanBits, scanLsb_pow φ hc hd _ _ (lt_two_pow_bitlen e), hu, one_mul]

@[simp] theorem to1_pow (a : Fp) (e : Nat) : to1 (fpPow a e) = to1 a ^ e :=
  scanBits_pow to1 to1_mul to1_sqr _ _ (by simp) e

/-- `fp_inv` is the inverse of the field, 0 at 0 (41_fp.md R126). -/
theorem to1_inv (a : Fp) : haveI := fact_prime; to1 (fpInv a) = (to1 a)⁻¹ := by
  have := fact_prime
  have hp : 2 < primeP := by decide
  rw [fpInv, to1_pow]
  by_cases h : to1 a = 0
  · rw [h, inv_zero, zero_pow (by omega)]
  · apply eq_inv_of_mul_eq_one_left
    rw [← pow_succ, show primeP - 2 + 1 = primeP - 1 by omega]
    exact ZMod.pow_card_sub_one_eq_one h

@[simp] theorem to1_eq_zero {a : Fp} : to1 a = 0 ↔ a = fpOfNat 0 := by
  rw [← to1_eq, to1_ofNat, Nat.cast_zero]

end Sys2Proof.Laws
end

