-- ==== Sys2Proof/Laws/Tower.lean ====
section
/-! SUPPORT. The tower: Fp2, Fp6 and Fp12 with the operations of 42_fp2.md to 44_fp12.md embed in fields F2 ⊂ F6 ⊂ F12, so
every law of the spec about them (ring laws, schoolbook products, inverses, powers) is a law of fields. That each level is a
field rests on 82 = N(9 + u) being neither a square nor a cube modulo p. -/

namespace Sys2Proof.Laws

open Sys2Proof.Machine Polynomial

/-! ### Fp2 -/

/-- Fp[u]/(u² + 1). -/
abbrev F2 := QuadraticAlgebra (ZMod primeP) (-1) 0

/-- An Fp2 value as an element of the field. -/
def to2 (x : Fp2) : F2 := ⟨to1 x.a, to1 x.b⟩

theorem to2_injective : Function.Injective to2 := by
  intro x y h
  have ha := to1_injective (congrArg QuadraticAlgebra.re h)
  have hb := to1_injective (congrArg QuadraticAlgebra.im h)
  cases x; cases y
  simp_all

theorem to2_eq {x y : Fp2} : to2 x = to2 y ↔ x = y := to2_injective.eq_iff

theorem to2_surjective (z : F2) : ∃ x, to2 x = z := by
  have := fact_prime
  refine ⟨fp2OfNat z.re.val z.im.val, ?_⟩
  ext <;> simp [to2, fp2OfNat]

/-- 9 + u. -/
def xiF : F2 := ⟨9, 1⟩

@[simp] theorem to2_zero : to2 fp2Zero = 0 := by ext <;> simp [to2, fp2Zero, fp2OfNat]
@[simp] theorem to2_one : to2 fp2One = 1 := by
  ext <;> simp [to2, fp2One, fp2OfNat, QuadraticAlgebra.re_one, QuadraticAlgebra.im_one]
@[simp] theorem to2_xi : to2 xi = xiF := by ext <;> simp [to2, xi, xiF, fp2OfNat]
@[simp] theorem to2_add (x y : Fp2) : to2 (fp2Add x y) = to2 x + to2 y := by ext <;> simp [to2, fp2Add]
@[simp] theorem to2_sub (x y : Fp2) : to2 (fp2Sub x y) = to2 x - to2 y := by ext <;> simp [to2, fp2Sub]
@[simp] theorem to2_neg (x : Fp2) : to2 (fp2Neg x) = -to2 x := by ext <;> simp [to2, fp2Neg]
@[simp] theorem to2_mul (x y : Fp2) : to2 (fp2Mul x y) = to2 x * to2 y := by
  ext <;> simp [to2, fp2Mul, fp2Karatsuba] <;> ring
@[simp] theorem to2_sqr (x : Fp2) : to2 (fp2Sqr x) = to2 x * to2 x := by
  ext <;> simp [to2, fp2Sqr] <;> ring
@[simp] theorem to2_mnr (x : Fp2) : to2 (fp2Mnr x) = xiF * to2 x := by
  ext <;> simp [to2, fp2Mnr, xiF] <;> ring

theorem fact2 : haveI := fact_prime; Fact (∀ r : ZMod primeP, r ^ 2 ≠ -1 + 0 * r) := by
  have := fact_prime
  refine ⟨fun r h => ?_⟩
  have hs : IsSquare (-1 : ZMod primeP) := ⟨r, by rw [← sq, h]; ring⟩
  exact absurd (show primeP % 4 = 3 by decide) (ZMod.exists_sq_eq_neg_one_iff.1 hs)

/-- a² + b² is not 0 but at (0, 0) (42_fp2.md R153). -/
theorem norm2_ne_zero {a b : ZMod primeP} (h : a * a + b * b = 0) : a = 0 ∧ b = 0 := by
  have := fact_prime
  have hf := fact2.out
  have hb : b = 0 := by
    by_contra hb
    refine hf (a / b) ?_
    field_simp
    linear_combination h
  subst hb
  simpa using h

/-- `fp2_inv` is the inverse of the field, 0 at 0 (42_fp2.md R146). -/
theorem to2_inv (x : Fp2) : haveI := fact_prime; haveI := fact2; to2 (fp2Inv x) = (to2 x)⁻¹ := by
  have := fact_prime
  have := fact2
  have hi := to1_inv (fpAdd (fpSqr x.a) (fpSqr x.b))
  simp only [to1_add, to1_sqr] at hi
  by_cases h : to2 x = 0
  · have ha : to1 x.a = 0 := congrArg QuadraticAlgebra.re h
    have hb : to1 x.b = 0 := congrArg QuadraticAlgebra.im h
    rw [h, inv_zero]
    ext <;> simp [to2, fp2Inv, fp2ConjScale, ha, hb]
  · apply eq_inv_of_mul_eq_one_left
    have hn : to1 x.a * to1 x.a + to1 x.b * to1 x.b ≠ 0 := by
      intro h0
      obtain ⟨ha, hb⟩ := norm2_ne_zero h0
      exact h (by ext <;> simp [to2, ha, hb])
    ext
    · simp only [to2, fp2Inv, fp2ConjScale, to1_mul, to1_neg, hi, QuadraticAlgebra.re_mul, QuadraticAlgebra.re_one]
      linear_combination mul_inv_cancel₀ hn
    · simp only [to2, fp2Inv, fp2ConjScale, to1_mul, to1_neg, hi, QuadraticAlgebra.im_mul, QuadraticAlgebra.im_one]
      ring

theorem to2_eq_zero {x : Fp2} : to2 x = 0 ↔ x = fp2Zero := by rw [← to2_eq, to2_zero]

/-! ### Numbers that are no squares or cubes modulo p -/

/-- Euler's criterion for a numeral, by the kernel. -/
theorem ne_pow_of_powMod {k c : Nat} (hk : k ∣ primeP - 1) (hc : c % primeP ≠ 0)
    (h : powMod primeP 256 c ((primeP - 1) / k) ≠ 1) (r : ZMod primeP) : r ^ k ≠ c := by
  have := fact_prime
  intro e
  have hk0 : (primeP - 1) / k < 2 ^ 256 := lt_of_le_of_lt (Nat.div_le_self _ _) (by decide)
  rw [powMod_eq _ _ _ _ hk0] at h
  have hone : ((c ^ ((primeP - 1) / k) : Nat) : ZMod primeP) = ((1 : Nat) : ZMod primeP) := by
    push_cast
    rw [← e, ← pow_mul, Nat.mul_div_cancel' hk]
    apply ZMod.pow_card_sub_one_eq_one
    rintro rfl
    have h0 : ((c : Nat) : ZMod primeP) = ((0 : Nat) : ZMod primeP) := by
      rw [← e, zero_pow, Nat.cast_zero]
      rintro rfl
      simp at hk
      exact absurd hk (by decide)
    rw [ZMod.natCast_eq_natCast_iff'] at h0
    exact hc (h0.trans (Nat.zero_mod _))
  rw [ZMod.natCast_eq_natCast_iff'] at hone
  exact h (hone.trans (by decide))

/-- 82 = N(9 + u) is no square. -/
theorem not_square_82 (r : ZMod primeP) : r ^ 2 ≠ 82 := by
  exact_mod_cast ne_pow_of_powMod (c := 82) (by decide +kernel) (by decide +kernel) (by decide +kernel) r

/-- 82 is no cube. -/
theorem not_cube_82 (r : ZMod primeP) : r ^ 3 ≠ 82 := by
  exact_mod_cast ne_pow_of_powMod (c := 82) (by decide +kernel) (by decide +kernel) (by decide +kernel) r

/-- −3 is no cube, so no point of y² = x³ + 3 has y = 0. -/
theorem not_cube_neg3 (r : ZMod primeP) : r ^ 3 ≠ ((primeP - 3 : Nat) : ZMod primeP) :=
  ne_pow_of_powMod (by decide +kernel) (by decide +kernel) (by decide +kernel) r

theorem norm_xi : QuadraticAlgebra.norm xiF = 82 := by
  rw [QuadraticAlgebra.norm_def]
  simp only [xiF]
  norm_num

/-- 9 + u is no square of Fp2. -/
theorem xi_not_square (z : F2) : z ^ 2 ≠ xiF := by
  intro h
  refine not_square_82 (QuadraticAlgebra.norm z) ?_
  rw [← map_pow, h, norm_xi]

/-- 9 + u is no cube of Fp2. -/
theorem xi_not_cube (z : F2) : z ^ 3 ≠ xiF := by
  intro h
  refine not_cube_82 (QuadraticAlgebra.norm z) ?_
  rw [← map_pow, h, norm_xi]

theorem xi_ne_zero : xiF ≠ 0 := fun h => xi_not_square 0 (by rw [h]; ring)

/-! ### Fp6 -/

/-- v³ − (9 + u). -/
noncomputable def polyV : F2[X] := X ^ 3 - C xiF

/-- Fp2[v]/(v³ − (9 + u)). -/
abbrev F6 := AdjoinRoot polyV

/-- The element v. -/
noncomputable def vF : F6 := AdjoinRoot.root polyV

/-- The embedding of Fp2. -/
noncomputable def em : F2 →+* F6 := AdjoinRoot.of polyV

theorem vF_cube : vF ^ 3 = em xiF := by
  have h : AdjoinRoot.mk polyV (X ^ 3 - C xiF) = 0 := AdjoinRoot.mk_self
  rw [map_sub, map_pow, AdjoinRoot.mk_X, AdjoinRoot.mk_C, sub_eq_zero] at h
  exact h

/-- An Fp6 value as an element of F6. -/
noncomputable def to6 (x : Fp6) : F6 := em (to2 x.c0) + em (to2 x.c1) * vF + em (to2 x.c2) * vF ^ 2

theorem polyV_monic : polyV.Monic := monic_X_pow_sub_C xiF (by decide)

theorem polyV_degree : polyV.natDegree = 3 := by
  have := fact_prime
  exact natDegree_X_pow_sub_C

theorem em_combination_eq_zero {a b c : F2} (h : em a + em b * vF + em c * vF ^ 2 = 0) : a = 0 ∧ b = 0 ∧ c = 0 := by
  have := fact_prime
  have hp : AdjoinRoot.mk polyV (C a + C b * X + C c * X ^ 2) = 0 := by
    simpa [em, vF, AdjoinRoot.mk_C, AdjoinRoot.mk_X] using h
  have hz : (C a + C b * X + C c * X ^ 2 : F2[X]) = 0 := by
    by_contra hne
    refine AdjoinRoot.mk_ne_zero_of_natDegree_lt polyV_monic hne ?_ hp
    rw [polyV_degree]
    have : (C a + C b * X + C c * X ^ 2 : F2[X]).natDegree ≤ 2 := by compute_degree
    omega
  have h0 := congrArg (fun q => coeff q 0) hz
  have h1 := congrArg (fun q => coeff q 1) hz
  have h2 := congrArg (fun q => coeff q 2) hz
  simp [coeff_X, coeff_C] at h0 h1 h2
  exact ⟨h0, h1, h2⟩

theorem to6_injective : Function.Injective to6 := by
  intro x y h
  have h' : em (to2 x.c0 - to2 y.c0) + em (to2 x.c1 - to2 y.c1) * vF + em (to2 x.c2 - to2 y.c2) * vF ^ 2 = 0 := by
    simp only [map_sub]
    simp only [to6] at h
    linear_combination h
  obtain ⟨h0, h1, h2⟩ := em_combination_eq_zero h'
  rw [sub_eq_zero, to2_eq] at h0 h1 h2
  cases x; cases y
  simp_all

theorem to6_eq {x y : Fp6} : to6 x = to6 y ↔ x = y := to6_injective.eq_iff

theorem to6_surjective (z : F6) : ∃ x, to6 x = z := by
  obtain ⟨q, rfl⟩ := AdjoinRoot.mk_surjective z
  have hd : (q %ₘ polyV).natDegree < 3 := by
    have := natDegree_modByMonic_lt q polyV_monic (by
      intro h
      have := polyV_degree
      rw [h] at this
      simp at this)
    rwa [polyV_degree] at this
  have hq : AdjoinRoot.mk polyV q = AdjoinRoot.mk polyV (q %ₘ polyV) := by
    rw [AdjoinRoot.mk_eq_mk, modByMonic_eq_sub_mul_div]
    simp
  obtain ⟨x0, h0⟩ := to2_surjective ((q %ₘ polyV).coeff 0)
  obtain ⟨x1, h1⟩ := to2_surjective ((q %ₘ polyV).coeff 1)
  obtain ⟨x2, h2⟩ := to2_surjective ((q %ₘ polyV).coeff 2)
  refine ⟨⟨x0, x1, x2⟩, ?_⟩
  rw [hq, as_sum_range' (q %ₘ polyV) 3 hd, to6, h0, h1, h2]
  simp [Finset.sum_range_succ, ← C_mul_X_pow_eq_monomial, em, vF, AdjoinRoot.mk_C, AdjoinRoot.mk_X]

@[simp] theorem to6_zero : to6 fp6Zero = 0 := by simp [to6, fp6Zero]
@[simp] theorem to6_one : to6 fp6One = 1 := by simp [to6, fp6One]
@[simp] theorem to6_add (x y : Fp6) : to6 (fp6Add x y) = to6 x + to6 y := by simp [to6, fp6Add]; ring
@[simp] theorem to6_sub (x y : Fp6) : to6 (fp6Sub x y) = to6 x - to6 y := by simp [to6, fp6Sub]; ring
@[simp] theorem to6_neg (x : Fp6) : to6 (fp6Neg x) = -to6 x := by simp [to6, fp6Neg]; ring

@[simp] theorem to6_mul (x y : Fp6) : to6 (fp6Mul x y) = to6 x * to6 y := by
  simp only [to6, fp6Mul, fp6MulWith, fp2Cross, to2_add, to2_sub, to2_mul, to2_mnr, map_add, map_sub, map_mul]
  rw [← vF_cube]
  ring

@[simp] theorem to6_sqr (x : Fp6) : to6 (fp6Sqr x) = to6 x * to6 x := to6_mul x x

@[simp] theorem to6_mulV (x : Fp6) : to6 (fp6MulV x) = vF * to6 x := by
  simp only [to6, fp6MulV, to2_mnr, map_mul]
  rw [← vF_cube]
  ring

theorem irreducible_polyV : haveI := fact_prime; haveI := fact2; Irreducible polyV := by
  have := fact_prime
  have := fact2
  exact X_pow_sub_C_irreducible_of_prime Nat.prime_three xi_not_cube

theorem fact6 : haveI := fact_prime; haveI := fact2; Fact (Irreducible polyV) := by
  have := fact_prime
  have := fact2
  exact ⟨irreducible_polyV⟩

theorem to6_eq_zero {x : Fp6} : to6 x = 0 ↔ x = fp6Zero := by rw [← to6_eq, to6_zero]

/-- The cofactors times the value are the norm (43_fp6.md R166). -/
theorem to6_cofactors (x : Fp6) (n : Fp2) : to6 x * to6 (fp6CofScale x n) = em (to2 (fp6Norm x) * to2 n) := by
  simp only [to6, fp6CofScale, fp6CofA, fp6CofB, fp6CofC, fp6Norm, to2_add, to2_sub, to2_mul, to2_sqr, to2_mnr,
    map_add, map_sub, map_mul]
  rw [← vF_cube]
  ring

/-- The norm is 0 only at 0: 9 + u is no cube. -/
theorem norm6_eq_zero {x : Fp6} (h : to2 (fp6Norm x) = 0) : x = fp6Zero := by
  have := fact_prime
  have := fact2
  have := fact6
  have hc := to6_cofactors x fp2One
  rw [h, zero_mul, map_zero, mul_eq_zero, to6_eq_zero] at hc
  rcases hc with hx | hc
  · exact hx
  · simp only [to6, fp6CofScale, to2_mul, to2_one, mul_one] at hc
    obtain ⟨hA, hB, hC⟩ := em_combination_eq_zero hc
    simp only [fp6CofA, fp6CofB, fp6CofC, to2_sub, to2_mul, to2_sqr, to2_mnr] at hA hB hC
    have h1 : to2 x.c1 = 0 := by
      by_contra h1
      refine xi_not_cube (to2 x.c0 / to2 x.c1) ?_
      field_simp
      linear_combination to2 x.c0 * hA - xiF * to2 x.c1 * hC
    have h0 : to2 x.c0 = 0 := by simpa [h1] using hA
    have h2 : to2 x.c2 = 0 := by simpa [h0, h1, xi_ne_zero] using hB
    rw [← to6_eq_zero, to6, h0, h1, h2]
    simp

/-- `fp6_inv` is the inverse of the field, 0 at 0 (43_fp6.md R166). -/
theorem to6_inv (x : Fp6) :
    haveI := fact_prime; haveI := fact2; haveI := fact6; to6 (fp6Inv x) = (to6 x)⁻¹ := by
  have := fact_prime
  have := fact2
  have := fact6
  by_cases h : x = fp6Zero
  · subst h
    rw [to6_zero, inv_zero, to6_eq_zero]
    decide +kernel
  · apply eq_inv_of_mul_eq_one_right
    rw [fp6Inv, to6_cofactors, to2_inv, mul_inv_cancel₀, map_one]
    exact fun h0 => h (norm6_eq_zero h0)

/-! ### Fp12 -/

/-- Fp6[w]/(w² − v). -/
abbrev F12 := QuadraticAlgebra F6 vF 0

/-- An Fp12 value as an element of F12. -/
noncomputable def to12 (x : Fp12) : F12 := ⟨to6 x.c0, to6 x.c1⟩

theorem to12_injective : Function.Injective to12 := by
  intro x y h
  have ha := to6_injective (congrArg QuadraticAlgebra.re h)
  have hb := to6_injective (congrArg QuadraticAlgebra.im h)
  cases x; cases y
  simp_all

theorem to12_eq {x y : Fp12} : to12 x = to12 y ↔ x = y := to12_injective.eq_iff

theorem to12_surjective (z : F12) : ∃ x, to12 x = z := by
  obtain ⟨a, ha⟩ := to6_surjective z.re
  obtain ⟨b, hb⟩ := to6_surjective z.im
  exact ⟨⟨a, b⟩, by ext <;> simp [to12, ha, hb]⟩

@[simp] theorem to12_zero : to12 fp12Zero = 0 := by ext <;> simp [to12, fp12Zero]
@[simp] theorem to12_one : to12 fp12One = 1 := by
  ext <;> simp [to12, fp12One, QuadraticAlgebra.re_one, QuadraticAlgebra.im_one]
@[simp] theorem to12_add (x y : Fp12) : to12 (fp12Add x y) = to12 x + to12 y := by ext <;> simp [to12, fp12Add]
@[simp] theorem to12_sub (x y : Fp12) : to12 (fp12Sub x y) = to12 x - to12 y := by ext <;> simp [to12, fp12Sub]
@[simp] theorem to12_neg (x : Fp12) : to12 (fp12Neg x) = -to12 x := by ext <;> simp [to12, fp12Neg]
@[simp] theorem to12_mul (x y : Fp12) : to12 (fp12Mul x y) = to12 x * to12 y := by
  ext
  · simp only [to12, fp12Mul, fp12MulWith, to6_add, to6_mul, to6_mulV, QuadraticAlgebra.re_mul]
    ring
  · simp only [to12, fp12Mul, fp12MulWith, to6_add, to6_sub, to6_mul, QuadraticAlgebra.im_mul]
    ring
@[simp] theorem to12_sqr (x : Fp12) : to12 (fp12Sqr x) = to12 x * to12 x := to12_mul x x

/-- `fp12_conj` is the conjugation w ↦ −w (44_fp12.md R190). -/
@[simp] theorem to12_conj (x : Fp12) : to12 (fp12Conj x) = star (to12 x) := by
  ext <;> simp [to12, fp12Conj]

theorem to12_eq_zero {x : Fp12} : to12 x = 0 ↔ x = fp12Zero := by rw [← to12_eq, to12_zero]

/-- v is no square of Fp6: its norm is 9 + u. -/
theorem v_not_square (z : F6) : z ^ 2 ≠ vF := by
  intro h
  obtain ⟨x, rfl⟩ := to6_surjective z
  have e := h
  simp only [to6] at e
  have e' : em (to2 x.c0 ^ 2 + 2 * xiF * to2 x.c1 * to2 x.c2) +
      em (2 * to2 x.c0 * to2 x.c1 + xiF * to2 x.c2 ^ 2 - 1) * vF +
      em (to2 x.c1 ^ 2 + 2 * to2 x.c0 * to2 x.c2) * vF ^ 2 = 0 := by
    simp only [map_add, map_sub, map_mul, map_pow, map_one, map_ofNat]
    rw [← vF_cube]
    linear_combination e
  obtain ⟨h0, h1, h2⟩ := em_combination_eq_zero e'
  refine xi_not_square (to2 x.c0 ^ 3 + xiF * to2 x.c1 ^ 3 + xiF ^ 2 * to2 x.c2 ^ 3 -
    3 * xiF * to2 x.c0 * to2 x.c1 * to2 x.c2) ?_
  generalize to2 x.c0 = a at *
  generalize to2 x.c1 = b at *
  generalize to2 x.c2 = c at *
  generalize xiF = k at *
  -- N(z)² = N(z²) = A³ + ξB³ + ξ²C³ − 3ξABC with A = C = 0 and B = 1
  have key : (a ^ 3 + k * b ^ 3 + k ^ 2 * c ^ 3 - 3 * k * a * b * c) ^ 2 =
      (a ^ 2 + 2 * k * b * c) ^ 3 + k * (2 * a * b + k * c ^ 2) ^ 3 + k ^ 2 * (b ^ 2 + 2 * a * c) ^ 3 -
        3 * k * (a ^ 2 + 2 * k * b * c) * (2 * a * b + k * c ^ 2) * (b ^ 2 + 2 * a * c) := by ring
  have h1' : 2 * a * b + k * c ^ 2 = 1 := by linear_combination h1
  rw [key, h0, h1', h2]
  ring

theorem fact12 : haveI := fact_prime; haveI := fact2; haveI := fact6; Fact (∀ r : F6, r ^ 2 ≠ vF + 0 * r) := by
  have := fact_prime
  have := fact2
  have := fact6
  exact ⟨fun r h => v_not_square r (by rw [h]; ring)⟩

/-- The value times its inverse's shape is the norm (44_fp12.md R186). -/
theorem to12_conjScale (x : Fp12) (n : Fp6) :
    to12 x * to12 (fp12ConjScale x n) = QuadraticAlgebra.C (to6 (fp12Norm x) * to6 n) := by
  ext
  · simp only [to12, fp12ConjScale, fp12Norm, to6_mul, to6_neg, to6_sub, to6_sqr, to6_mulV, QuadraticAlgebra.re_mul,
      QuadraticAlgebra.re_C]
    ring
  · simp only [to12, fp12ConjScale, to6_mul, to6_neg, QuadraticAlgebra.im_mul, QuadraticAlgebra.im_C]
    ring

theorem norm12_ne_zero {x : Fp12} (h : x ≠ fp12Zero) : to6 (fp12Norm x) ≠ 0 := by
  have := fact_prime
  have := fact2
  have := fact6
  have := fact12
  intro h0
  refine h (to12_eq_zero.1 (QuadraticAlgebra.norm_eq_zero_iff_eq_zero.1 ?_))
  refine Eq.trans ?_ h0
  rw [QuadraticAlgebra.norm_def]
  simp only [to12, fp12Norm, to6_sub, to6_sqr, to6_mulV]
  ring

/-- `fp12_inv` is the inverse of the field, 0 at 0 (44_fp12.md R186). -/
theorem to12_inv (x : Fp12) :
    haveI := fact_prime; haveI := fact2; haveI := fact6; haveI := fact12; to12 (fp12Inv x) = (to12 x)⁻¹ := by
  have := fact_prime
  have := fact2
  have := fact6
  have := fact12
  by_cases h : x = fp12Zero
  · subst h
    rw [to12_zero, inv_zero, to12_eq_zero]
    decide +kernel
  · apply eq_inv_of_mul_eq_one_right
    rw [fp12Inv, to12_conjScale, to6_inv, mul_inv_cancel₀ (norm12_ne_zero h), QuadraticAlgebra.C_one]

/-- The scan of `D.EXP` computes the power (44_fp12.md R195). -/
theorem to12_exp (x : Fp12) (e : Nat) : to12 (fp12Exp x e) = to12 x ^ e :=
  scanBits_pow to12 to12_mul to12_sqr _ _ to12_one e

/-- Collapse of the final exponentiation (47_pairing.md R248). -/
theorem finalPower_eq (f : Fp12) (e : Nat) (he : e ≠ 0) :
    fp12Exp (fp12Mul (fp12Conj (fp12Mul (fp12Conj f) (fp12Inv f))) (fp12Mul (fp12Conj f) (fp12Inv f))) e =
      if f = fp12Zero then fp12Zero else fp12One := by
  have := fact_prime
  have := fact2
  have := fact6
  have := fact12
  rw [← to12_eq, to12_exp, to12_mul, to12_conj, to12_mul, to12_conj, to12_inv]
  split
  · subst f
    rw [to12_zero]
    simp [he]
  · rename_i h
    rw [to12_one]
    have hf : to12 f ≠ 0 := fun h0 => h (to12_eq_zero.1 h0)
    have hs : star (to12 f) ≠ 0 := by simpa using hf
    have h1 : star ((to12 f)⁻¹) * star (to12 f) = 1 := by
      rw [← star_mul', inv_mul_cancel₀ hf, star_one]
    have h2 : star (star (to12 f) * (to12 f)⁻¹) * (star (to12 f) * (to12 f)⁻¹) = 1 := by
      rw [star_mul', star_star]
      calc to12 f * star ((to12 f)⁻¹) * (star (to12 f) * (to12 f)⁻¹)
          = (star ((to12 f)⁻¹) * star (to12 f)) * (to12 f * (to12 f)⁻¹) := by ring
        _ = 1 := by rw [h1, mul_inv_cancel₀ hf, one_mul]
    rw [h2, one_pow]

/-- B2 is 3/(9 + u) (00_scope.md R5). -/
theorem coeffB2_eq : fp2Mul coeffB2 xi = fp2OfNat 3 0 := by decide +kernel

end Sys2Proof.Laws
end

