-- ==== Sys2Proof/Laws/Schoolbook.lean ====
section
/-! SUPPORT. The schoolbook arithmetic of Safety.lean in the fields of Laws/Tower.lean, so that a claim about a command's
result is an identity of fields. -/

namespace Sys2Proof.Laws

open Sys2Proof.Machine Sys2Proof.Safety

@[simp] theorem to1_modP (z : Int) : to1 (modP z) = (z : ZMod primeP) := by
  have hp : (0 : Int) < (primeP : Int) := by exact_mod_cast primeP_pos
  have h0 := Int.emod_nonneg z (Int.ne_of_gt hp)
  have h1 : (((z % (primeP : Int)).toNat : Nat) : Int) = z % (primeP : Int) := Int.toNat_of_nonneg h0
  show (((z % (primeP : Int)).toNat : Nat) : ZMod primeP) = _
  rw [← Int.cast_natCast, h1]
  exact ZMod.intCast_mod z primeP

/-- A stored value is the canonical representative of itself. -/
theorem cast_val (a : Fp) : ((a.val : Int) : ZMod primeP) = to1 a := by
  rw [Int.cast_natCast]
  rfl

@[simp] theorem natCast_val (a : Fp) : ((a.val : Nat) : ZMod primeP) = to1 a := rfl

@[simp] theorem modP_val (a : Fp) : modP a.val = a := by rw [← to1_eq, to1_modP, cast_val]

theorem modP_val_of_lt {n : Nat} (h : n < primeP) : (modP n).val = n := by
  have : ((n : Int) % (primeP : Int)).toNat = n := by
    rw [← Int.natCast_emod, Int.toNat_natCast, Nat.mod_eq_of_lt h]
  exact this

theorem modP_natCast (n : Nat) : modP n = fpOfNat n := by rw [← to1_eq, to1_modP, to1_ofNat, Int.cast_natCast]

theorem modP_zero : modP 0 = fpOfNat 0 := modP_natCast 0
theorem modP_one : modP 1 = fpOfNat 1 := modP_natCast 1

theorem zero2_eq : zero2 = fp2Zero := by rw [zero2, modP_zero]; rfl
theorem one2_eq : one2 = fp2One := by rw [one2, modP_zero, modP_one]; rfl
theorem zero6_eq : zero6 = fp6Zero := by rw [zero6, zero2_eq]; rfl
theorem one6_eq : one6 = fp6One := by rw [one6, zero2_eq, one2_eq]; rfl
theorem zero12_eq : zero12 = fp12Zero := by rw [zero12, zero6_eq]; rfl
theorem one12_eq : one12 = fp12One := by rw [one12, zero6_eq, one6_eq]; rfl

/-! ### Fp2 -/

@[simp] theorem to2_zero2 : to2 zero2 = 0 := by rw [zero2_eq, to2_zero]
@[simp] theorem to2_one2 : to2 one2 = 1 := by rw [one2_eq, to2_one]
@[simp] theorem to2_xi2 : to2 xi2 = xiF := by ext <;> simp [to2, xi2, xiF]
@[simp] theorem to2_ofFp2 (a : Fp) : to2 (ofFp2 a) = QuadraticAlgebra.C (to1 a) := by ext <;> simp [to2, ofFp2]
@[simp] theorem to2_ofFp (a : Fp) : to2 (fp2OfFp a) = QuadraticAlgebra.C (to1 a) := by ext <;> simp [to2, fp2OfFp]
@[simp] theorem to2_add2 (x y : Fp2) : to2 (add2 x y) = to2 x + to2 y := by
  ext <;> simp [to2, add2]
@[simp] theorem to2_sub2 (x y : Fp2) : to2 (sub2 x y) = to2 x - to2 y := by
  ext <;> simp [to2, sub2]
@[simp] theorem to2_neg2 (x : Fp2) : to2 (neg2 x) = -to2 x := by ext <;> simp [to2, neg2]
@[simp] theorem to2_mul2 (x y : Fp2) : to2 (mul2 x y) = to2 x * to2 y := by
  ext <;> simp [to2, mul2]
  ring
@[simp] theorem to2_scale2 (k : Int) (x : Fp2) : to2 (scale2 k x) = QuadraticAlgebra.C (k : ZMod primeP) * to2 x := by
  ext <;> simp [to2, scale2]

theorem add2_eq (x y : Fp2) : add2 x y = fp2Add x y := by rw [← to2_eq]; simp
theorem sub2_eq (x y : Fp2) : sub2 x y = fp2Sub x y := by rw [← to2_eq]; simp
theorem neg2_eq (x : Fp2) : neg2 x = fp2Neg x := by rw [← to2_eq]; simp
theorem mul2_eq (x y : Fp2) : mul2 x y = fp2Mul x y := by rw [← to2_eq]; simp

/-! ### Fp6 -/

@[simp] theorem to6_zero6 : to6 zero6 = 0 := by rw [zero6_eq, to6_zero]
@[simp] theorem to6_one6 : to6 one6 = 1 := by rw [one6_eq, to6_one]
@[simp] theorem to6_v6 : to6 v6 = vF := by simp [to6, v6]
@[simp] theorem to6_add6 (x y : Fp6) : to6 (add6 x y) = to6 x + to6 y := by simp [to6, add6]; ring
@[simp] theorem to6_sub6 (x y : Fp6) : to6 (sub6 x y) = to6 x - to6 y := by simp [to6, sub6]; ring
@[simp] theorem to6_neg6 (x : Fp6) : to6 (neg6 x) = -to6 x := by simp [to6, neg6]; ring
@[simp] theorem to6_mul6 (x y : Fp6) : to6 (mul6 x y) = to6 x * to6 y := by
  simp only [to6, mul6, to2_add2, to2_mul2, to2_xi2, map_add, map_mul]
  rw [← vF_cube]
  ring

theorem add6_eq (x y : Fp6) : add6 x y = fp6Add x y := by rw [← to6_eq]; simp
theorem sub6_eq (x y : Fp6) : sub6 x y = fp6Sub x y := by rw [← to6_eq]; simp
theorem neg6_eq (x : Fp6) : neg6 x = fp6Neg x := by rw [← to6_eq]; simp
theorem mul6_eq (x y : Fp6) : mul6 x y = fp6Mul x y := by rw [← to6_eq]; simp

/-! ### Fp12 -/

@[simp] theorem to12_zero12 : to12 zero12 = 0 := by rw [zero12_eq, to12_zero]
@[simp] theorem to12_one12 : to12 one12 = 1 := by rw [one12_eq, to12_one]
@[simp] theorem to12_add12 (x y : Fp12) : to12 (add12 x y) = to12 x + to12 y := by ext <;> simp [to12, add12]
@[simp] theorem to12_sub12 (x y : Fp12) : to12 (sub12 x y) = to12 x - to12 y := by ext <;> simp [to12, sub12]
@[simp] theorem to12_neg12 (x : Fp12) : to12 (neg12 x) = -to12 x := by ext <;> simp [to12, neg12]
@[simp] theorem to12_mul12 (x y : Fp12) : to12 (mul12 x y) = to12 x * to12 y := by
  ext
  · simp only [to12, mul12, to6_add6, to6_mul6, to6_v6, QuadraticAlgebra.re_mul]
    ring
  · simp only [to12, mul12, to6_add6, to6_mul6, QuadraticAlgebra.im_mul]
    ring
@[simp] theorem to12_conj12 (x : Fp12) : to12 (conj12 x) = star (to12 x) := by ext <;> simp [to12, conj12]
@[simp] theorem to12_pow12 (x : Fp12) (e : Nat) : to12 (pow12 x e) = to12 x ^ e := by
  induction e with
  | zero => simp [pow12]
  | succ e ih => rw [pow12, to12_mul12, ih, pow_succ]

theorem add12_eq (x y : Fp12) : add12 x y = fp12Add x y := by rw [← to12_eq]; simp
theorem sub12_eq (x y : Fp12) : sub12 x y = fp12Sub x y := by rw [← to12_eq]; simp
theorem neg12_eq (x : Fp12) : neg12 x = fp12Neg x := by rw [← to12_eq]; simp
theorem mul12_eq (x y : Fp12) : mul12 x y = fp12Mul x y := by rw [← to12_eq]; simp
theorem conj12_eq (x : Fp12) : conj12 x = fp12Conj x := by rw [← to12_eq]; simp

end Sys2Proof.Laws
end

