-- ==== Sys2Proof/Laws/Codec.lean ====
section
/-! SUPPORT. The codec as the spec words it (Safety.lean) is that of the model: integers and fields read from DMEM, the bytes of
an encoding, and what each decode test answers (48_codec.md R260, R270). -/

namespace Sys2Proof.Laws

open Sys2Proof.Machine Sys2Proof.Safety

/-! ### Integers in memory -/

/-- `int(MemRead(a, n))` as a sum is the fold of the model (00_scope.md R7). -/
theorem intAt_eq (m : Dmem) (a n : Nat) : intAt m a n = beInt (readBytes m a n) := by
  induction n generalizing a with
  | zero => rfl
  | succ n ih =>
    rw [readBytes, beInt_cons, readBytes_length, ← ih (a + 1), intAt, intAt, List.range_succ_eq_map, List.map_cons,
      List.sum_cons, List.map_map]
    congr 1
    refine congrArg List.sum (List.map_congr_left fun k _ => ?_)
    simp only [Function.comp]
    rw [show a + (k + 1) = a + 1 + k by omega, show n + 1 - 1 - (k + 1) = n - 1 - k by omega]

theorem fieldAt_eq (m : Dmem) (a : Nat) : fieldAt m a = fieldInt m a := intAt_eq m a 32

/-- Byte `k` of `BE_n(v)`. -/
theorem beBytes_get (n v k : Nat) (h : k < n) :
    (beBytes n v)[k]'(by simpa using h) = BitVec.ofNat 8 (v / 256 ^ (n - 1 - k)) := by
  induction n generalizing v with
  | zero => omega
  | succ n ih =>
    unfold beBytes
    by_cases hk : k < n
    · rw [List.getElem_append_left (by simpa using hk), ih _ hk, Nat.div_div_eq_div_mul]
      congr 2
      rw [show n + 1 - 1 - k = (n - 1 - k) + 1 by omega, Nat.pow_succ', Nat.mul_comm]
    · have : k = n := by omega
      subst this
      rw [List.getElem_append_right (by simp)]
      simp

/-- The big-endian fields of a list, end to end (48_codec.md R260). -/
def encFields (l : List Fp) : List Byte := l.flatMap encFp

theorem encFields_length (l : List Fp) : (encFields l).length = 32 * l.length := by
  induction l with
  | nil => rfl
  | cons v l ih =>
    rw [encFields, List.flatMap_cons, List.length_append, encFp_length, ← encFields, ih, List.length_cons]
    omega

/-- Byte `k` of the fields as Safety.lean words it. -/
theorem encFields_get (l : List Fp) (k : Nat) (h : k < 32 * l.length) :
    (encFields l)[k]'(by rw [encFields_length]; exact h) = fieldsByte l k := by
  induction l generalizing k with
  | nil => simp at h
  | cons v l ih =>
    rw [List.length_cons] at h
    simp only [encFields, List.flatMap_cons]
    by_cases hk : k < 32
    · rw [List.getElem_append_left (by rw [encFp_length]; exact hk)]
      have := beBytes_get 32 v.val k hk
      rw [show (encFp v)[k]'(by rw [encFp_length]; exact hk) = _ from this, fieldsByte,
        show k / 32 = 0 by omega, show k % 32 = k by omega]
      rfl
    · rw [List.getElem_append_right (by rw [encFp_length]; omega)]
      have h32 : k - (encFp v).length = k - 32 := by rw [encFp_length]
      simp only [h32]
      have := ih (k - 32) (by omega)
      refine Eq.trans this ?_
      rw [fieldsByte, fieldsByte,
        show k / 32 = (k - 32) / 32 + 1 by omega, show (k - 32) % 32 = k % 32 by omega, List.getElem?_cons_succ]

theorem encG1_eq (A : G1pt) : encG1 A = encFields (fieldsOfG1 A) := by simp [encG1, encFields, fieldsOfG1]
theorem encG2_eq (A : G2pt) : encG2 A = encFields (fieldsOfG2 A) := by
  simp [encG2, encFp2, encFields, fieldsOfG2]
theorem encGt_eq (x : Fp12) : encGt x = encFields (fieldsOf12 x) := by
  simp [encGt, encFp6, encFp2, encFields, fieldsOf12, fieldsOf2]
theorem encFp_eq (v : Fp) : encFp v = encFields [v] := by simp [encFields]

/-! ### Stores -/

/-- A store of fields, byte by byte (48_codec.md R261, R263, R265, R268). -/
theorem ruleStore_of {α : Type} {op n : Nat} {opc : BitVec 8} {src : File α} {mk : RegIdx → Addr → Instr}
    {fields : α → List Fp} (enc : α → List Byte) (hop : opc.toNat = op)
    (he : ∀ r addr, encode (mk r addr) = wordM opc (idx3 r) addr 0)
    (hx : ∀ r addr s, exec (mk r addr) s = opStore src (encode (mk r addr)) r addr n enc s)
    (hf : ∀ v, enc v = encFields (fields v)) (hn : ∀ v, 32 * (fields v).length = n) : RuleStore op n src mk fields := by
  have hl : ∀ v, (enc v).length = n := fun v => by rw [hf, encFields_length, hn]
  refine fun r addr => ⟨he r addr ▸ word_formatM hop r addr 0, fun s => ⟨fun h => ?_, fun v h hb => ?_, fun v h hb hw => ?_⟩⟩
  · rw [hx, opStore, withReg_none h]
    rfl
  · rw [hx, opStore, withReg_some h, withAccess_past hb]
    rfl
  · refine ⟨writeBytes s.dmem addr.toNat (enc v), ?_, fun b => ?_⟩
    · rw [hx, opStore, withReg_some h, withAccess_fits hb]
      rfl
    · rw [readByte_writeBytes hw _ (by rw [hl]; exact hb)]
      by_cases hc : addr.toNat ≤ b ∧ b < addr.toNat + n
      · rw [dif_pos (by rw [hl]; exact hc), if_pos hc]
        simp only [hf]
        exact encFields_get _ _ (by rw [hn]; omega)
      · rw [dif_neg (by rw [hl]; exact hc), if_neg hc]

/-! ### Loads -/

theorem fp_mk_eq {n m : Nat} (h : n < primeP) (e : m = n) : (⟨n, h⟩ : Fp) = modP m := by
  subst e
  exact Fin.ext (modP_val_of_lt h).symm

theorem withField_good {a : Nat} {s : State} {k : Fp → Result} (h : fieldAt s.dmem a < primeP) :
    withField a s k = k (modP (fieldAt s.dmem a)) := by
  have e := fieldAt_eq s.dmem a
  have h' : fieldInt s.dmem a < primeP := e ▸ h
  unfold withField
  split
  · exact congrArg k (fp_mk_eq _ e)
  · exact absurd h' ‹_›

theorem withField_bad {a : Nat} {s : State} {k : Fp → Result} (h : primeP ≤ fieldAt s.dmem a) :
    withField a s k = .next (faulted .invalidEncoding (BitVec.ofNat 32 a) s) := by
  have h' : ¬ fieldInt s.dmem a < primeP := fieldAt_eq s.dmem a ▸ Nat.not_lt.2 h
  rw [withField, dif_neg h']
  rfl

theorem canonical_shift {m : Dmem} {a n j l : Nat} (h : FieldsCanonical m a n) (hl : j + l ≤ n) :
    FieldsCanonical m (a + 32 * j) l := by
  intro k hk
  have := h (j + k) (by omega)
  rwa [show a + 32 * (j + k) = a + 32 * j + 32 * k by omega] at this

theorem firstBad_shift {m : Dmem} {a k j : Nat} (h : FirstBadField m a k) (hj : j ≤ k) :
    FirstBadField m (a + 32 * j) (k - j) := by
  refine ⟨?_, canonical_shift h.2 (by omega)⟩
  rw [show a + 32 * j + 32 * (k - j) = a + 32 * k by omega]
  exact h.1

theorem withField2_good {a : Nat} {s : State} {k : Fp2 → Result} (h : FieldsCanonical s.dmem a 2) :
    withField2 a s k = k (field2At s.dmem a) := by
  rw [withField2, withField_good (a := a) (h 0 (by omega)), withField_good (a := a + 32) (h 1 (by omega))]
  rfl

/-- Two fields of which one is bad: the fault names the first bad one. -/
theorem withField2_bad {a j : Nat} {s : State} {k : Fp2 → Result} (h : FirstBadField s.dmem a j) (hj : j < 2) :
    withField2 a s k = .next (faulted .invalidEncoding (BitVec.ofNat 32 (a + 32 * j)) s) := by
  obtain ⟨h1, h2⟩ := h
  rcases (show j = 0 ∨ j = 1 by omega) with rfl | rfl
  · rw [withField2, withField_bad (a := a) h1, Nat.mul_zero, Nat.add_zero]
  · rw [withField2, withField_good (a := a) (h2 0 (by omega)), withField_bad (a := a + 32) h1]

theorem withField6_good {a : Nat} {s : State} {k : Fp6 → Result} (h : FieldsCanonical s.dmem a 6) :
    withField6 a s k = k (field6At s.dmem a) := by
  rw [withField6, withField2_good (a := a) (canonical_shift (j := 0) h (by omega)),
    withField2_good (a := a + 64) (canonical_shift (j := 2) h (by omega)),
    withField2_good (a := a + 128) (canonical_shift (j := 4) h (by omega))]
  rfl

/-- Six fields of which one is bad: the fault names the first bad one. -/
theorem withField6_bad {a j : Nat} {s : State} {k : Fp6 → Result} (h : FirstBadField s.dmem a j) (hj : j < 6) :
    withField6 a s k = .next (faulted .invalidEncoding (BitVec.ofNat 32 (a + 32 * j)) s) := by
  rw [withField6]
  by_cases h2 : j < 2
  · exact withField2_bad h h2
  · rw [withField2_good (a := a) (canonical_shift (j := 0) h.2 (by omega))]
    by_cases h4 : j < 4
    · have hb : FirstBadField s.dmem (a + 64) (j - 2) := firstBad_shift (j := 2) h (by omega)
      rw [withField2_bad (a := a + 64) (j := j - 2) hb (by omega),
        show a + 64 + 32 * (j - 2) = a + 32 * j by omega]
    · have hb : FirstBadField s.dmem (a + 128) (j - 4) := firstBad_shift (j := 4) h (by omega)
      rw [withField2_good (a := a + 64) (canonical_shift (j := 2) h.2 (by omega)),
        withField2_bad (a := a + 128) (j := j - 4) hb (by omega),
        show a + 128 + 32 * (j - 4) = a + 32 * j by omega]

end Sys2Proof.Laws
end

