-- ==== Sys2Proof/Laws/CurveGroup.lean ====
section
/-! SUPPORT. The curve y² = x³ + b over any field where −b is no cube, with (0, 0) for infinity: the formulas of 45_g1.md R204
to R206 are the group law of Mathlib's Weierstrass curves. `Rep` says that a pair of coordinates stands for a point. -/

namespace Sys2Proof.Laws

open WeierstrassCurve

variable {K : Type} [Field K] [DecidableEq K] {b : K}

/-- y² = x³ + b. -/
abbrev shortCurve (b : K) : WeierstrassCurve.Affine K := ⟨0, 0, 0, 0, b⟩

/-- The coordinates (x, y) stand for the point P. -/
def Rep (b x y : K) : (shortCurve b).Point → Prop
  | .zero => x = 0 ∧ y = 0
  | .some x' y' _ => x = x' ∧ y = y'

omit [DecidableEq K] in
theorem shortCurve_equation {x y : K} : (shortCurve b).Equation x y ↔ y * y = x * x * x + b := by
  rw [Affine.equation_iff]
  constructor <;> intro h <;> linear_combination h

/-- What is asked of a field and of b: 2 ≠ 0, and −b is no cube, so that no point has y = 0. -/
structure GoodCurve (b : K) : Prop where
  two : (2 : K) ≠ 0
  noCube : ∀ z : K, z * z * z ≠ -b
  noZero : b ≠ 0

omit [DecidableEq K] in
theorem y_ne_zero (g : GoodCurve b) {x y : K} (h : (shortCurve b).Equation x y) : y ≠ 0 := by
  rintro rfl
  rw [shortCurve_equation] at h
  exact g.noCube x (by linear_combination -h)

omit [DecidableEq K] in
theorem shortCurve_nonsingular (g : GoodCurve b) {x y : K} (h : (shortCurve b).Equation x y) :
    (shortCurve b).Nonsingular x y := by
  rw [Affine.nonsingular_iff]
  refine ⟨h, .inr fun e => y_ne_zero g h ?_⟩
  have : (2 : K) * y = 0 := by linear_combination e
  exact (mul_eq_zero.1 this).resolve_left g.two

omit [DecidableEq K] in
theorem rep_zero : Rep b 0 0 0 := ⟨rfl, rfl⟩

omit [DecidableEq K] in
theorem rep_of_equation (g : GoodCurve b) {x y : K} (h : y * y = x * x * x + b) : ∃ P, Rep b x y P :=
  ⟨.some x y (shortCurve_nonsingular g (shortCurve_equation.2 h)), rfl, rfl⟩

omit [DecidableEq K] in
theorem rep_valid {x y : K} {P : (shortCurve b).Point} (h : Rep b x y P) :
    (x = 0 ∧ y = 0) ∨ y * y = x * x * x + b := by
  cases P with
  | zero => exact .inl h
  | some x' y' h' =>
    obtain ⟨rfl, rfl⟩ := h
    exact .inr (shortCurve_equation.1 h'.1)

omit [DecidableEq K] in
theorem rep_coordinates {x y x' y' : K} {P : (shortCurve b).Point} (h : Rep b x y P) (h' : Rep b x' y' P) :
    x = x' ∧ y = y' := by
  cases P with
  | zero => exact ⟨h.1.trans h'.1.symm, h.2.trans h'.2.symm⟩
  | some _ _ _ => exact ⟨h.1.trans h'.1.symm, h.2.trans h'.2.symm⟩

omit [DecidableEq K] in
theorem rep_point {x y : K} {P Q : (shortCurve b).Point} (hP : Rep b x y P) (hQ : Rep b x y Q) (hp : P ≠ 0)
    (hq : Q ≠ 0) : P = Q := by
  cases P with
  | zero => exact absurd rfl hp
  | some _ _ _ =>
    cases Q with
    | zero => exact absurd rfl hq
    | some _ _ _ =>
      obtain ⟨rfl, rfl⟩ := hP
      obtain ⟨e1, e2⟩ := hQ
      subst e1 e2
      rfl

omit [DecidableEq K] in
theorem rep_eq_zero (g : GoodCurve b) {x y : K} {P : (shortCurve b).Point} (h : Rep b x y P) :
    P = 0 ↔ x = 0 ∧ y = 0 := by
  cases P with
  | zero => exact ⟨fun _ => h, fun _ => rfl⟩
  | some x' y' h' =>
    constructor
    · intro e
      cases e
    · rintro ⟨-, rfl⟩
      exact absurd h.2.symm (y_ne_zero g h'.1)

omit [DecidableEq K] in
/-- −(x, y) = (x, −y) (R206). -/
theorem rep_neg {x y : K} {P : (shortCurve b).Point} (h : Rep b x y P) : Rep b x (-y) (-P) := by
  cases P with
  | zero =>
    obtain ⟨rfl, rfl⟩ := h
    exact ⟨rfl, neg_zero⟩
  | some x' y' h' =>
    obtain ⟨rfl, rfl⟩ := h
    rw [Affine.Point.neg_some]
    exact ⟨rfl, by simp [Affine.negY]⟩

/-- Two points on a vertical line that are not equal cancel (R204). -/
theorem rep_vertical {x y y' : K} {P Q : (shortCurve b).Point} (hP : Rep b x y P) (hQ : Rep b x y' Q)
    (hy : y ≠ y') (hp : P ≠ 0) (hq : Q ≠ 0) : P + Q = 0 := by
  cases P with
  | zero => exact absurd rfl hp
  | some x1 y1 h1 =>
    cases Q with
    | zero => exact absurd rfl hq
    | some x2 y2 h2 =>
      obtain ⟨rfl, rfl⟩ := hP
      obtain ⟨rfl, rfl⟩ := hQ
      have e1 := shortCurve_equation.1 h1.1
      have e2 := shortCurve_equation.1 h2.1
      have e : (y - y') * (y + y') = 0 := by linear_combination e1 - e2
      have hs : y + y' = 0 := (mul_eq_zero.1 e).resolve_left (sub_ne_zero.2 hy)
      refine Affine.Point.add_of_Y_eq rfl ?_
      simp only [Affine.negY]
      linear_combination hs

/-- The chord formulas (R204). -/
theorem rep_chord {x1 y1 x2 y2 l x3 y3 : K} {P Q : (shortCurve b).Point} (hP : Rep b x1 y1 P)
    (hQ : Rep b x2 y2 Q) (hp : P ≠ 0) (hq : Q ≠ 0) (hx : x1 ≠ x2) (hl : l * (x2 - x1) = y2 - y1)
    (hx3 : x3 = l * l - x1 - x2) (hy3 : y3 = l * (x1 - x3) - y1) : Rep b x3 y3 (P + Q) := by
  cases P with
  | zero => exact absurd rfl hp
  | some x1' y1' h1 =>
    cases Q with
    | zero => exact absurd rfl hq
    | some x2' y2' h2 =>
      obtain ⟨rfl, rfl⟩ := hP
      obtain ⟨rfl, rfl⟩ := hQ
      rw [Affine.Point.add_of_X_ne hx]
      have hs : (shortCurve b).slope x1 x2 y1 y2 = l := by
        rw [Affine.slope_of_X_ne hx, div_eq_iff (sub_ne_zero.2 hx)]
        linear_combination hl
      have ex : x3 = (shortCurve b).addX x1 x2 l := by
        simp only [Affine.addX]
        linear_combination hx3
      refine ⟨by rw [hs]; exact ex, ?_⟩
      rw [hs, hy3, ex]
      simp only [Affine.addY, Affine.negAddY, Affine.negY, Affine.addX]
      ring

/-- The tangent formulas, at infinity too, where the slope is 0 (R205). -/
theorem rep_tangent (g : GoodCurve b) {x y l x3 y3 : K} {P : (shortCurve b).Point} (hP : Rep b x y P)
    (h0 : y = 0 → l = 0) (hl : y ≠ 0 → l * (2 * y) = 3 * (x * x)) (hx3 : x3 = l * l - x - x)
    (hy3 : y3 = l * (x - x3) - y) : Rep b x3 y3 (P + P) := by
  cases P with
  | zero =>
    obtain ⟨rfl, rfl⟩ := hP
    have e := h0 rfl
    subst e hx3 hy3
    exact ⟨by ring, by ring⟩
  | some x' y' h1 =>
    obtain ⟨rfl, rfl⟩ := hP
    have hy := y_ne_zero g h1.1
    have hn : y ≠ (shortCurve b).negY x y := by
      intro e
      simp only [Affine.negY] at e
      have : (2 : K) * y = 0 := by linear_combination e
      exact hy ((mul_eq_zero.1 this).resolve_left g.two)
    rw [Affine.Point.add_self_of_Y_ne hn]
    have hs : (shortCurve b).slope x x y y = l := by
      rw [Affine.slope_of_Y_ne rfl hn]
      have hd : y - (shortCurve b).negY x y ≠ 0 := sub_ne_zero.2 hn
      rw [div_eq_iff hd]
      simp only [Affine.negY]
      linear_combination -hl hy
    have ex : x3 = (shortCurve b).addX x x l := by
      simp only [Affine.addX]
      linear_combination hx3
    refine ⟨by rw [hs]; exact ex, ?_⟩
    rw [hs, hy3, ex]
    simp only [Affine.addY, Affine.negAddY, Affine.negY, Affine.addX]
    ring

end Sys2Proof.Laws
end

