-- ==== Sys2Proof/Laws/Inverse.lean ====
section
/-! SUPPORT. The four inversions said without the fields' own inverse: 0 at 0, and the product is one elsewhere (41_fp.md
R126, 42_fp2.md R146, 43_fp6.md R166, 44_fp12.md R186). -/

namespace Sys2Proof.Laws

open Sys2Proof.Machine Sys2Proof.Safety

theorem fpInv_zero : fpInv (fpOfNat 0) = fpOfNat 0 := by decide +kernel

theorem to1_mul_inv {a : Fp} (h : a ≠ fpOfNat 0) : to1 a * to1 (fpInv a) = 1 := by
  have := fact_prime
  rw [to1_inv]
  exact mul_inv_cancel₀ fun h0 => h (to1_eq_zero.1 h0)

theorem fp2Inv_zero : fp2Inv fp2Zero = fp2Zero := by decide +kernel

theorem to2_mul_inv {x : Fp2} (h : x ≠ fp2Zero) : to2 x * to2 (fp2Inv x) = 1 := by
  have := fact_prime
  have := fact2
  rw [to2_inv]
  exact mul_inv_cancel₀ fun h0 => h (to2_eq_zero.1 h0)

theorem fp6Inv_zero : fp6Inv fp6Zero = fp6Zero := by decide +kernel

theorem to6_mul_inv {x : Fp6} (h : x ≠ fp6Zero) : to6 x * to6 (fp6Inv x) = 1 := by
  have := fact_prime
  have := fact2
  have := fact6
  rw [to6_inv]
  exact mul_inv_cancel₀ fun h0 => h (to6_eq_zero.1 h0)

theorem fp12Inv_zero : fp12Inv fp12Zero = fp12Zero := by decide +kernel

theorem to12_mul_inv {x : Fp12} (h : x ≠ fp12Zero) : to12 x * to12 (fp12Inv x) = 1 := by
  have := fact_prime
  have := fact2
  have := fact6
  have := fact12
  rw [to12_inv]
  exact mul_inv_cancel₀ fun h0 => h (to12_eq_zero.1 h0)

/-- The fields have no zero divisors, said of the values. -/
theorem to1_mul_eq_zero {a b : Fp} (h : to1 a * to1 b = 0) : a = fpOfNat 0 ∨ b = fpOfNat 0 := by
  have := fact_prime
  rcases mul_eq_zero.1 h with h | h
  · exact .inl (to1_eq_zero.1 h)
  · exact .inr (to1_eq_zero.1 h)

theorem to2_mul_eq_zero {x y : Fp2} (h : to2 x * to2 y = 0) : x = fp2Zero ∨ y = fp2Zero := by
  have := fact_prime
  have := fact2
  rcases mul_eq_zero.1 h with h | h
  · exact .inl (to2_eq_zero.1 h)
  · exact .inr (to2_eq_zero.1 h)

end Sys2Proof.Laws
end

