-- ==== Sys2Proof/Laws/Curves.lean ====
section
/-! SUPPORT. The points of G1 and G2 with the functions of Machine/G1.lean and Machine/G2.lean stand for the points of the two
curves of CurveGroup.lean, so closure and the group laws (45_g1.md R213, 46_g2.md R233) are laws of groups. -/

namespace Sys2Proof.Laws

open Sys2Proof.Machine Sys2Proof.Safety

/-! ### Scalar multiples (45_g1.md R207, 46_g2.md R227) -/

/-- The bit scan computes a multiple under any relation to an additive monoid that the addition and the doubling respect. -/
theorem scanLsb_nsmul {α M : Type} [AddCommMonoid M] {R : α → M → Prop} {comb : α → α → α} {dbl : α → α}
    (hc : ∀ {a b m n}, R a m → R b n → R (comb a b) (m + n)) (hd : ∀ {a m}, R a m → R (dbl a) (m + m)) (n e : Nat)
    (h : e < 2 ^ n) {acc base : α} {m q : M} (ha : R acc m) (hb : R base q) :
    R (scanLsb comb dbl n e acc base) (m + e • q) := by
  induction n generalizing e acc base m q with
  | zero =>
    have : e = 0 := by simpa using h
    subst this
    simpa [scanLsb] using ha
  | succ n ih =>
    have h2 : e / 2 < 2 ^ n := by rw [Nat.pow_succ] at h; omega
    have e2 : (e / 2) • (q + q) = (2 * (e / 2)) • q := by rw [← two_nsmul, ← mul_nsmul]
    rw [scanLsb]
    by_cases he : e % 2 = 1
    · rw [if_pos he]
      have := ih (e / 2) h2 (hc ha hb) (hd hb)
      have e3 : m + e • q = m + q + (e / 2) • (q + q) := by
        rw [e2, add_assoc]
        congr 1
        conv_lhs => rw [show e = 1 + 2 * (e / 2) by omega, add_nsmul, one_nsmul]
      rwa [e3]
    · rw [if_neg he]
      have := ih (e / 2) h2 ha (hd hb)
      rwa [e2, show 2 * (e / 2) = e by omega] at this

theorem scanBits_nsmul {α M : Type} [AddCommMonoid M] {R : α → M → Prop} {comb : α → α → α} {dbl : α → α}
    (hc : ∀ {a b m n}, R a m → R b n → R (comb a b) (m + n)) (hd : ∀ {a m}, R a m → R (dbl a) (m + m)) {unit base : α}
    {q : M} (hu : R unit 0) (hb : R base q) (e : Nat) : R (scanBits comb dbl unit base e) (e • q) := by
  have := scanLsb_nsmul hc hd _ e (lt_two_pow_bitlen e) hu hb
  rwa [zero_add] at this

/-! ### G1 -/

theorem two_ne_zero1 : (2 : ZMod primeP) ≠ 0 := by
  intro h
  have h' : ((2 : Nat) : ZMod primeP) = ((0 : Nat) : ZMod primeP) := by simpa using h
  rw [ZMod.natCast_eq_natCast_iff'] at h'
  exact absurd h' (by decide)

theorem goodCurve1 : haveI := fact_prime; GoodCurve (3 : ZMod primeP) := by
  have := fact_prime
  refine ⟨two_ne_zero1, fun z h => not_cube_neg3 z ?_, fun h => ?_⟩
  · rw [Nat.cast_sub (by decide), ZMod.natCast_self]
    push_cast
    linear_combination h
  · have h' : ((3 : Nat) : ZMod primeP) = ((0 : Nat) : ZMod primeP) := by simpa using h
    rw [ZMod.natCast_eq_natCast_iff'] at h'
    exact absurd h' (by decide)

theorem inf1_eq : inf1 = g1Infinity := by rw [inf1, modP_zero]; rfl

theorem g1pt_eq {A B : G1pt} : A = B ↔ to1 A.X = to1 B.X ∧ to1 A.Y = to1 B.Y := by
  rw [to1_eq, to1_eq]
  cases A
  cases B
  simp

theorem onCurve1_iff {A : G1pt} : OnCurve1 A ↔ to1 A.Y * to1 A.Y = to1 A.X * to1 A.X * to1 A.X + 3 := by
  rw [OnCurve1, ← to1_eq, to1_modP, to1_modP]
  push_cast
  simp only [natCast_val]

theorem g1OnCurve_iff {A : G1pt} : g1OnCurve A = true ↔ OnCurve1 A := by
  rw [g1OnCurve, decide_eq_true_iff, onCurve1_iff, ← to1_eq]
  simp [coeffB1]

theorem g1IsInf_iff {A : G1pt} : g1IsInf A = true ↔ A = inf1 := by
  rw [g1IsInf, decide_eq_true_iff, inf1_eq]

section

variable [Fact (Nat.Prime primeP)]

/-- A stored G1 point stands for a point of the curve. -/
def Rep1 (A : G1pt) (P : (shortCurve (3 : ZMod primeP)).Point) : Prop := Rep 3 (to1 A.X) (to1 A.Y) P

theorem rep1_infinity : Rep1 g1Infinity 0 := by
  show Rep 3 (to1 (fpOfNat 0)) (to1 (fpOfNat 0)) 0
  rw [to1_ofNat, Nat.cast_zero]
  exact rep_zero

theorem rep1_exists {A : G1pt} (h : A = inf1 ∨ OnCurve1 A) : ∃ P, Rep1 A P := by
  rcases h with rfl | h
  · exact ⟨0, inf1_eq ▸ rep1_infinity⟩
  · exact rep_of_equation goodCurve1 (onCurve1_iff.1 h)

theorem rep1_valid {A : G1pt} {P} (h : Rep1 A P) : A = inf1 ∨ OnCurve1 A := by
  rcases rep_valid h with h | h
  · left
    rw [inf1_eq, g1pt_eq]
    simpa [g1Infinity] using h
  · exact .inr (onCurve1_iff.2 h)

theorem rep1_unique {A B : G1pt} {P} (h : Rep1 A P) (h' : Rep1 B P) : A = B := g1pt_eq.2 (rep_coordinates h h')

theorem rep1_eq_zero {A : G1pt} {P} (h : Rep1 A P) : P = 0 ↔ A = inf1 := by
  rw [rep_eq_zero goodCurve1 h, inf1_eq, g1pt_eq]
  simp [g1Infinity]

theorem rep1_neg {A : G1pt} {P} (h : Rep1 A P) : Rep1 (g1Neg A) (-P) := by
  have := rep_neg h
  rwa [← to1_neg] at this

omit [Fact (Nat.Prime primeP)] in
/-- The tangent slope as R205 words it. -/
theorem tangent1_iff {A : G1pt} {l : Fp} : Tangent1 A l ↔ l = g1Tangent A := by
  unfold Tangent1 g1Tangent
  rw [modP_zero]
  by_cases h : A.Y = fpOfNat 0
  · rw [if_pos h, h]
    have : fpMul (fpOfNat 2) (fpOfNat 0) = fpOfNat 0 := by decide +kernel
    rw [this, fpInv_zero, ← to1_eq, ← to1_eq]
    simp
  · rw [if_neg h]
    have h2 : fpMul (fpOfNat 2) A.Y ≠ fpOfNat 0 := by
      intro e
      rcases to1_mul_eq_zero (a := fpOfNat 2) (b := A.Y) (by rw [← to1_mul, e]; simp) with e | e
      · exact absurd e (by decide +kernel)
      · exact h e
    have hi := to1_mul_inv h2
    rw [← to1_eq, ← to1_eq, to1_modP, to1_modP]
    push_cast
    simp only [natCast_val, to1_mul, to1_sqr, to1_ofNat, Nat.cast_ofNat] at hi ⊢
    constructor
    · intro e
      linear_combination (to1 (fpInv (fpMul (fpOfNat 2) A.Y))) * e - to1 l * hi
    · intro e
      linear_combination (2 * to1 A.Y) * e + 3 * (to1 A.X * to1 A.X) * hi

omit [Fact (Nat.Prime primeP)] in
/-- The third point as R204 words it. -/
theorem third1_iff {l : Fp} {A C : G1pt} {x2 : Fp} : Third1 l A x2 C ↔ C = g1Third l A x2 := by
  unfold Third1 g1Third
  rw [g1pt_eq, ← to1_eq, ← to1_eq, to1_modP, to1_modP]
  push_cast
  simp only [natCast_val, to1_sub, to1_sqr, to1_mul]
  constructor
  · rintro ⟨e1, e2⟩
    exact ⟨e1, by rw [e2, e1]⟩
  · rintro ⟨e1, e2⟩
    exact ⟨e1, by rw [e2, e1]⟩

theorem rep1_dbl {A : G1pt} {P} (h : Rep1 A P) : Rep1 (g1Dbl A) (P + P) := by
  have ht := tangent1_iff.2 (rfl : g1Tangent A = g1Tangent A)
  unfold Tangent1 at ht
  rw [modP_zero] at ht
  refine rep_tangent goodCurve1 (l := to1 (g1Tangent A)) h ?_ ?_ ?_ ?_
  · intro h0
    rw [if_pos (to1_eq_zero.1 h0)] at ht
    rw [ht]
    simp
  · intro h0
    rw [if_neg fun e => h0 (to1_eq_zero.2 e), ← to1_eq, to1_modP, to1_modP] at ht
    push_cast at ht
    simpa only [natCast_val] using ht
  · simp [g1Dbl, g1Third]
  · simp [g1Dbl, g1Third]

/-- The chord slope where the abscissas differ (R204). -/
theorem chord1_mul {A B : G1pt} (h : A.X ≠ B.X) :
    to1 (g1Chord A B) * (to1 B.X - to1 A.X) = to1 B.Y - to1 A.Y := by
  have hd : fpSub B.X A.X ≠ fpOfNat 0 := by
    intro e
    rw [← to1_eq_zero, to1_sub, sub_eq_zero, to1_eq] at e
    exact h e.symm
  have hi := to1_mul_inv hd
  simp only [g1Chord, to1_mul, to1_sub] at hi ⊢
  linear_combination (to1 B.Y - to1 A.Y) * hi

theorem rep1_add {A B : G1pt} {P Q} (hA : Rep1 A P) (hB : Rep1 B Q) : Rep1 (g1Add A B) (P + Q) := by
  unfold g1Add
  by_cases h1 : g1IsInf A = true
  · rw [if_pos h1, (rep1_eq_zero hA).2 (g1IsInf_iff.1 h1), zero_add]
    exact hB
  · rw [if_neg h1]
    by_cases h2 : g1IsInf B = true
    · rw [if_pos h2, (rep1_eq_zero hB).2 (g1IsInf_iff.1 h2), add_zero]
      exact hA
    · rw [if_neg h2]
      have hp : P ≠ 0 := fun e => h1 (g1IsInf_iff.2 ((rep1_eq_zero hA).1 e))
      have hq : Q ≠ 0 := fun e => h2 (g1IsInf_iff.2 ((rep1_eq_zero hB).1 e))
      by_cases hx : A.X = B.X
      · rw [if_pos hx]
        by_cases hy : A.Y = B.Y
        · rw [if_pos hy]
          have e : A = B := g1pt_eq.2 ⟨congrArg to1 hx, congrArg to1 hy⟩
          subst e
          have e' : P = Q := rep_point hA hB hp hq
          subst e'
          exact rep1_dbl hA
        · rw [if_neg hy]
          have hB' : Rep 3 (to1 A.X) (to1 B.Y) Q := by rw [hx]; exact hB
          rw [rep_vertical hA hB' (fun e => hy (to1_eq.1 e)) hp hq]
          exact rep1_infinity
      · rw [if_neg hx]
        refine rep_chord hA hB hp hq (fun e => hx (to1_eq.1 e)) (chord1_mul hx) ?_ ?_
        · simp [g1Third]
        · simp [g1Third]

theorem rep1_smul {A : G1pt} {P} (h : Rep1 A P) (k : Nat) : Rep1 (g1Smul A k) (k • P) :=
  scanBits_nsmul rep1_add rep1_dbl rep1_infinity h k

end

/-! ### G2 -/

theorem to2_two : to2 (fp2OfNat 2 0) = 2 := by
  ext <;> simp [to2, fp2OfNat, QuadraticAlgebra.re_ofNat, QuadraticAlgebra.im_ofNat]

theorem to2_three : to2 (fp2OfNat 3 0) = 3 := by
  ext <;> simp [to2, fp2OfNat, QuadraticAlgebra.re_ofNat, QuadraticAlgebra.im_ofNat]

theorem to2_scale_two (x : Fp2) : to2 (scale2 2 x) = 2 * to2 x := by
  rw [to2_scale2, ← to2_two]
  congr 1

theorem to2_scale_three (x : Fp2) : to2 (scale2 3 x) = 3 * to2 x := by
  rw [to2_scale2, ← to2_three]
  congr 1

theorem two_ne_zero2 : (2 : F2) ≠ 0 := by
  rw [← to2_two, ← to2_zero, Ne, to2_eq]
  decide +kernel

/-- The norm of B2, 9/82. -/
def normB2 : Nat := 21087453498479301738505683583845423561061080261299122796980902361914303298513

/-- −B2 is no cube: its norm is none. -/
theorem coeffB2_not_cube (z : F2) : z * z * z ≠ -to2 coeffB2 := by
  intro h
  have hn : QuadraticAlgebra.norm (to2 coeffB2) = ((normB2 : Nat) : ZMod primeP) := by
    rw [QuadraticAlgebra.norm_def, ← to1_ofNat, ← show fpAdd (fpSqr coeffB2.a) (fpSqr coeffB2.b) = fpOfNat normB2 by decide +kernel]
    simp [to2]
  refine ne_pow_of_powMod (c := normB2) (k := 3) (by decide +kernel) (by decide +kernel) (by decide +kernel)
    (QuadraticAlgebra.norm z) ?_
  rw [← map_pow, ← hn, show z ^ 3 = -to2 coeffB2 by rw [← h]; ring, QuadraticAlgebra.norm_def, QuadraticAlgebra.norm_def,
    QuadraticAlgebra.re_neg, QuadraticAlgebra.im_neg]
  ring

theorem goodCurve2 : haveI := fact_prime; haveI := fact2; GoodCurve (to2 coeffB2) := by
  have := fact_prime
  have := fact2
  exact ⟨two_ne_zero2, coeffB2_not_cube, fun h => coeffB2_not_cube 0 (by rw [h]; ring)⟩

theorem inf2_eq : inf2 = g2Infinity := by rw [inf2, zero2_eq]; rfl

theorem g2pt_eq {A B : G2pt} : A = B ↔ to2 A.X = to2 B.X ∧ to2 A.Y = to2 B.Y := by
  rw [to2_eq, to2_eq]
  cases A
  cases B
  simp

theorem onCurve2_iff {A : G2pt} : OnCurve2 A ↔ to2 A.Y * to2 A.Y = to2 A.X * to2 A.X * to2 A.X + to2 coeffB2 := by
  rw [OnCurve2, ← to2_eq, to2_mul2, to2_add2, to2_mul2, to2_mul2]

theorem g2OnCurve_iff {A : G2pt} : g2OnCurve A = true ↔ OnCurve2 A := by
  rw [g2OnCurve, decide_eq_true_iff, onCurve2_iff, ← to2_eq]
  simp

theorem g2IsInf_iff {A : G2pt} : g2IsInf A = true ↔ A = inf2 := by
  rw [g2IsInf, decide_eq_true_iff, inf2_eq]

section

variable [Fact (Nat.Prime primeP)] [Fact (∀ r : ZMod primeP, r ^ 2 ≠ -1 + 0 * r)]

/-- A stored G2 point stands for a point of the curve. -/
def Rep2 (A : G2pt) (P : (shortCurve (to2 coeffB2)).Point) : Prop := Rep (to2 coeffB2) (to2 A.X) (to2 A.Y) P

theorem rep2_infinity : Rep2 g2Infinity 0 := by
  show Rep (to2 coeffB2) (to2 (fp2Zero)) (to2 (fp2Zero)) 0
  rw [to2_zero]
  exact rep_zero

theorem rep2_exists {A : G2pt} (h : A = inf2 ∨ OnCurve2 A) : ∃ P, Rep2 A P := by
  rcases h with rfl | h
  · exact ⟨0, inf2_eq ▸ rep2_infinity⟩
  · exact rep_of_equation goodCurve2 (onCurve2_iff.1 h)

theorem rep2_valid {A : G2pt} {P} (h : Rep2 A P) : A = inf2 ∨ OnCurve2 A := by
  rcases rep_valid h with h | h
  · left
    rw [inf2_eq, g2pt_eq]
    simp only [g2Infinity, to2_zero]
    exact h
  · exact .inr (onCurve2_iff.2 h)

theorem rep2_unique {A B : G2pt} {P} (h : Rep2 A P) (h' : Rep2 B P) : A = B := g2pt_eq.2 (rep_coordinates h h')

theorem rep2_eq_zero {A : G2pt} {P} (h : Rep2 A P) : P = 0 ↔ A = inf2 := by
  rw [rep_eq_zero goodCurve2 h, inf2_eq, g2pt_eq]
  simp only [g2Infinity, to2_zero]

theorem rep2_neg {A : G2pt} {P} (h : Rep2 A P) : Rep2 (g2Neg A) (-P) := by
  have := rep_neg h
  rwa [← to2_neg] at this

/-- The tangent slope as R225 words it. -/
theorem tangent2_iff {A : G2pt} {l : Fp2} : Tangent2 A l ↔ l = g2Tangent A := by
  unfold Tangent2 g2Tangent
  rw [zero2_eq]
  by_cases h : A.Y = fp2Zero
  · rw [if_pos h, h, show fp2Mul (fp2OfNat 2 0) fp2Zero = fp2Zero by decide +kernel, fp2Inv_zero, ← to2_eq, ← to2_eq,
      to2_mul, to2_zero, mul_zero]
  · rw [if_neg h]
    have h2 : fp2Mul (fp2OfNat 2 0) A.Y ≠ fp2Zero := by
      intro e
      rcases to2_mul_eq_zero (x := fp2OfNat 2 0) (y := A.Y) (by rw [← to2_mul, e, to2_zero]) with e | e
      · exact absurd e (by decide +kernel)
      · exact h e
    have hi := to2_mul_inv h2
    rw [← to2_eq, ← to2_eq, to2_mul2, to2_scale_two, to2_scale_three, to2_mul2, to2_mul, to2_mul, to2_sqr, to2_three]
    rw [to2_mul, to2_two] at hi
    constructor
    · intro e
      linear_combination (to2 (fp2Inv (fp2Mul (fp2OfNat 2 0) A.Y))) * e - to2 l * hi
    · intro e
      linear_combination (2 * to2 A.Y) * e + 3 * (to2 A.X * to2 A.X) * hi

omit [Fact (Nat.Prime primeP)] [Fact (∀ r : ZMod primeP, r ^ 2 ≠ -1 + 0 * r)] in
/-- The third point as R224 words it. -/
theorem third2_iff {l : Fp2} {A C : G2pt} {x2 : Fp2} : Third2 l A x2 C ↔ C = g2Third l A x2 := by
  unfold Third2 g2Third
  simp only [sub2_eq, mul2_eq]
  rw [← show fp2Mul l l = fp2Sqr l by rw [← to2_eq, to2_mul, to2_sqr]]
  constructor
  · rintro ⟨e1, e2⟩
    rw [g2pt_eq, e2, e1]
    exact ⟨rfl, rfl⟩
  · rintro rfl
    exact ⟨rfl, rfl⟩

/-- The chord slope where the abscissas differ (R224). -/
theorem chord2_mul {A B : G2pt} (h : A.X ≠ B.X) :
    to2 (g2Chord A B) * (to2 B.X - to2 A.X) = to2 B.Y - to2 A.Y := by
  have hd : fp2Sub B.X A.X ≠ fp2Zero := by
    intro e
    rw [← to2_eq_zero, to2_sub, sub_eq_zero, to2_eq] at e
    exact h e.symm
  have hi := to2_mul_inv hd
  simp only [g2Chord, to2_mul, to2_sub] at hi ⊢
  linear_combination (to2 B.Y - to2 A.Y) * hi

variable [DecidableEq F2]

theorem rep2_dbl {A : G2pt} {P} (h : Rep2 A P) : Rep2 (g2Dbl A) (P + P) := by
  have ht := tangent2_iff.2 (rfl : g2Tangent A = g2Tangent A)
  unfold Tangent2 at ht
  rw [zero2_eq] at ht
  refine rep_tangent goodCurve2 (l := to2 (g2Tangent A)) h ?_ ?_ ?_ ?_
  · intro h0
    rw [if_pos (to2_eq_zero.1 h0)] at ht
    rw [ht, to2_zero]
  · intro h0
    rw [if_neg fun e => h0 (to2_eq_zero.2 e), ← to2_eq, to2_mul2, to2_scale_two, to2_scale_three, to2_mul2] at ht
    exact ht
  · simp [g2Dbl, g2Third]
  · simp [g2Dbl, g2Third]

theorem rep2_add {A B : G2pt} {P Q} (hA : Rep2 A P) (hB : Rep2 B Q) : Rep2 (g2Add A B) (P + Q) := by
  unfold g2Add
  by_cases h1 : g2IsInf A = true
  · rw [if_pos h1, (rep2_eq_zero hA).2 (g2IsInf_iff.1 h1), zero_add]
    exact hB
  · rw [if_neg h1]
    by_cases h2 : g2IsInf B = true
    · rw [if_pos h2, (rep2_eq_zero hB).2 (g2IsInf_iff.1 h2), add_zero]
      exact hA
    · rw [if_neg h2]
      have hp : P ≠ 0 := fun e => h1 (g2IsInf_iff.2 ((rep2_eq_zero hA).1 e))
      have hq : Q ≠ 0 := fun e => h2 (g2IsInf_iff.2 ((rep2_eq_zero hB).1 e))
      by_cases hx : A.X = B.X
      · rw [if_pos hx]
        by_cases hy : A.Y = B.Y
        · rw [if_pos hy]
          have e : A = B := g2pt_eq.2 ⟨congrArg to2 hx, congrArg to2 hy⟩
          subst e
          have e' : P = Q := rep_point hA hB hp hq
          subst e'
          exact rep2_dbl hA
        · rw [if_neg hy]
          have hB' : Rep (to2 coeffB2) (to2 A.X) (to2 B.Y) Q := by rw [hx]; exact hB
          rw [rep_vertical hA hB' (fun e => hy (to2_eq.1 e)) hp hq]
          exact rep2_infinity
      · rw [if_neg hx]
        refine rep_chord hA hB hp hq (fun e => hx (to2_eq.1 e)) (chord2_mul hx) ?_ ?_
        · simp [g2Third]
        · simp [g2Third]

theorem rep2_smul {A : G2pt} {P} (h : Rep2 A P) (k : Nat) : Rep2 (g2Smul A k) (k • P) :=
  scanBits_nsmul rep2_add rep2_dbl rep2_infinity h k

end

end Sys2Proof.Laws
end

