-- ==== Sys2Proof/Laws/HostPort.lean ====
section
/-! SUPPORT. Everything a host operation can do, said once (70_reset_and_hazards.md R315), and the valid bits under a register
write. -/

namespace Sys2Proof.Laws

open Sys2Proof.Machine Sys2Proof.Safety

/-! ### Registers -/

theorem regFile_set_same {α : Type} (v : RegFile α) (i : RegIdx) (x : α) :
    (v.set i.val (some x) i.isLt)[i] = some x := by
  show (v.set i.val (some x) i.isLt)[i.val]'i.isLt = _
  rw [Vector.getElem_set]
  simp

theorem regFile_set_other {α : Type} (v : RegFile α) {i j : RegIdx} (x : α) (h : i ≠ j) :
    (v.set i.val (some x) i.isLt)[j] = v[j] := by
  show (v.set i.val (some x) i.isLt)[j.val]'j.isLt = v[j.val]'j.isLt
  rw [Vector.getElem_set, if_neg fun e => h (Fin.ext e)]

/-- A write never clears a valid bit (10_state.md R27). -/
theorem regFile_set_valid {α : Type} (v : RegFile α) (i j : RegIdx) (x : α) (h : (v[j]).isSome = true) :
    ((v.set i.val (some x) i.isLt)[j]).isSome = true := by
  by_cases e : i = j
  · subst e
    rw [regFile_set_same]
    rfl
  · rw [regFile_set_other v x e]
    exact h

/-! ### The control register -/

/-- A write of `CTRL` stores IE and then does one of three things: nothing, an accepted CLR, an accepted GO (R38). -/
theorem writeCtrl_cases (v : BitVec 32) (s : State) :
    (writeCtrl v s = { s with ie := v.getLsbD 2 } ∧
      ((v.getLsbD 1 = true → s.run = .idle ∨ s.run = .run) ∧
        (v.getLsbD 1 = false → v.getLsbD 0 = true → s.run = .run ∨ s.run = .fault))) ∨
    (writeCtrl v s = acknowledge { s with ie := v.getLsbD 2 } ∧ v.getLsbD 1 = true ∧ (s.run = .halt ∨ s.run = .fault)) ∨
    (writeCtrl v s = launch { s with ie := v.getLsbD 2 } ∧ v.getLsbD 1 = false ∧ v.getLsbD 0 = true ∧
      (s.run = .idle ∨ s.run = .halt)) := by
  unfold writeCtrl writeClr writeGo
  generalize v.getLsbD 1 = clr
  generalize v.getLsbD 0 = go
  generalize v.getLsbD 2 = enable
  cases clr <;> cases go <;> cases s.run <;> simp

/-! ### Host operations -/

theorem withStopped_next {s t : State} {k : Result} (h : withStopped s k = .next t) : s.run ≠ .run ∧ k = .next t := by
  unfold withStopped at h
  split at h <;> simp_all

/-- What a host operation that answers `t` did: nothing, or one of the five writes. -/
theorem hostStep_cases {op : HostOp} {s t : State} (h : hostStep op s = .next t) :
    t = s ∨
    (∃ i w, op = .writeImem i w ∧ i < 1024 ∧ s.run ≠ .run ∧ t = { s with imem := writeWord s.imem i w }) ∨
    (∃ a b, op = .writeDmem a b ∧ a < 4096 ∧ s.run ≠ .run ∧ t = { s with dmem := writeByte s.dmem a b }) ∨
    (∃ v, op = .writeReg .entry v ∧ s.run ≠ .run ∧ t = writeEntry v s) ∨
    (∃ v, op = .writeReg .ctrl v ∧ t = writeCtrl v s) ∨
    (∃ im dm, op = .reset im dm ∧ t = State.resetWith (cellsOfList Config.imemFill Config.IMEM_WORDS im)
      (cellsOfList Config.dmemFill Config.DMEM_BYTES dm)) := by
  cases op with
  | readImem i =>
    simp only [hostStep, withImemIndex] at h
    split at h
    · cases (withStopped_next h).2
      exact .inl rfl
    · cases h
  | writeImem i w =>
    simp only [hostStep, withImemIndex] at h
    split at h
    · obtain ⟨hr, e⟩ := withStopped_next h
      cases e
      exact .inr (.inl ⟨_, _, rfl, ‹_›, hr, rfl⟩)
    · cases h
  | readDmem a =>
    simp only [hostStep, withDmemAddress] at h
    split at h
    · cases (withStopped_next h).2
      exact .inl rfl
    · cases h
  | writeDmem a b =>
    simp only [hostStep, withDmemAddress] at h
    split at h
    · obtain ⟨hr, e⟩ := withStopped_next h
      cases e
      exact .inr (.inr (.inl ⟨_, _, rfl, ‹_›, hr, rfl⟩))
    · cases h
  | readReg r =>
    cases r <;> simp only [hostStep, hostRegReadStep] at h
    case entry =>
      cases (withStopped_next h).2
      exact .inl rfl
    all_goals
      cases h
      exact .inl rfl
  | writeReg r v =>
    cases r <;> simp only [hostStep, hostRegWrite] at h
    case entry =>
      obtain ⟨hr, e⟩ := withStopped_next h
      cases e
      exact .inr (.inr (.inr (.inl ⟨_, rfl, hr, rfl⟩)))
    case ctrl =>
      cases h
      exact .inr (.inr (.inr (.inr (.inl ⟨_, rfl, rfl⟩))))
    all_goals
      cases h
      exact .inl rfl
  | observeIrq =>
    cases h
    exact .inl rfl
  | reset im dm =>
    cases h
    exact .inr (.inr (.inr (.inr (.inr ⟨_, _, rfl, rfl⟩))))

theorem cellsRead_cellsOfList {β : Type} [DecidableEq β] {fill : β} {size : Nat} (l : List (Nat × β)) {i : Nat}
    (hi : i < size) : cellsRead fill (cellsOfList fill size l) i = match l.lookup i with | some b => b | none => fill := by
  induction l with
  | nil => rfl
  | cons x l ih =>
    obtain ⟨k, v⟩ := x
    unfold cellsOfList
    by_cases hk : k < size
    · rw [if_pos hk, cellsRead_cellsWrite (cellsOfList_wf l), List.lookup_cons]
      by_cases e : i = k
      · simp [e]
      · rw [if_neg e, ih, show (i == k) = false by simpa using e]
    · rw [if_neg hk, ih, List.lookup_cons, show (i == k) = false by simp; omega]

end Sys2Proof.Laws
end

