-- ==== Sys2Proof/Laws/Pairing.lean ====
section
/-! SUPPORT. The loops and the pairing engine as the spec words them (Safety.lean) are those of the model: the bit scans, the
line functions, the Miller loop, the final exponentiation and the product of a pairing check. -/

namespace Sys2Proof.Laws

open Sys2Proof.Machine Sys2Proof.Safety

/-! ### Bit scans -/

theorem scanLsb_eq_foldl {α : Type} (add : α → α → α) (dbl : α → α) (n i k : Nat) (acc base : α) :
    scanLsb add dbl n (k / 2 ^ i) acc base =
      ((List.range' i n).foldl (fun st j => (if k.testBit j then add st.1 st.2 else st.1, dbl st.2)) (acc, base)).1 := by
  induction n generalizing i acc base with
  | zero => rfl
  | succ n ih =>
    have hb : (k / 2 ^ i % 2 = 1) = (k.testBit i = true) := by
      rw [Nat.testBit, Nat.shiftRight_eq_div_pow]
      simp
    have hd : k / 2 ^ i / 2 = k / 2 ^ (i + 1) := by rw [Nat.div_div_eq_div_mul, ← Nat.pow_succ]
    rw [scanLsb, List.range'_succ, List.foldl_cons, hd, ih]
    simp only [hb]

/-- The loop of R195, R207 and R227 is the bit scan. -/
theorem doubleAndAdd_eq {α : Type} (add : α → α → α) (dbl : α → α) (unit base : α) (k : Nat) :
    doubleAndAdd add dbl unit base k = scanBits add dbl unit base k := by
  have := scanLsb_eq_foldl add dbl (bitlen k) 0 k unit base
  rw [Nat.pow_zero, Nat.div_one] at this
  rw [doubleAndAdd, scanBits, this, List.range_eq_range']

/-! ### The final exponentiation -/

theorem pow12_eq (x : Fp12) (e : Nat) : pow12 x e = fp12Exp x e := by rw [← to12_eq, to12_pow12, to12_exp]

/-- The final exponentiation as R244 words it. -/
theorem finalExp_iff {f v : Fp12} : FinalExp f v ↔ v = finalExp f := by
  have key : ∀ t0, (if f = zero12 then t0 = zero12 else mul12 t0 f = conj12 f) ↔ t0 = finalEasy1 f := by
    intro t0
    rw [zero12_eq]
    unfold finalEasy1
    by_cases h : f = fp12Zero
    · rw [if_pos h, h, fp12Inv_zero, ← to12_eq, ← to12_eq, to12_mul, to12_zero, mul_zero]
    · rw [if_neg h, ← to12_eq, ← to12_eq, to12_mul12, to12_mul, to12_conj12, to12_conj]
      have hi := to12_mul_inv h
      constructor
      · intro e
        linear_combination (to12 (fp12Inv f)) * e - to12 t0 * hi
      · intro e
        linear_combination (to12 f) * e + star (to12 f) * hi
  unfold FinalExp
  simp only [key, exists_eq_left]
  rw [mul12_eq, conj12_eq, pow12_eq]
  rfl

/-- The collapse of R248, for the steps of R244: 0 at 0, else 1. -/
theorem finalExp_eq (f : Fp12) : finalExp f = if f = fp12Zero then fp12Zero else fp12One :=
  finalPower_eq f hardExp (by decide +kernel)

/-- A pairing check holds exactly where the product of the Miller values is not 0. -/
theorem pairingCheck_eq (l : List (G1pt × G2pt)) : pairingCheck l = decide (millerProduct fp12One l ≠ fp12Zero) := by
  unfold pairingCheck
  rw [finalExp_eq]
  refine decide_eq_decide.2 ⟨fun h e => ?_, fun h => if_neg h⟩
  rw [if_pos e] at h
  exact absurd h (by decide +kernel)

/-! ### Lines -/

theorem lineValue_eq (l : Fp2) (R : G2pt) (A : G1pt) : lineValue l R A = lineAt l R A := by
  have e : ∀ a, ofFp2 a = fp2OfFp a := fun a => by rw [← to2_eq, to2_ofFp2, to2_ofFp]
  simp only [lineValue, lineAt, lineEmbed, mul2_eq, sub2_eq, neg2_eq, zero2_eq, e]

/-- The chord slope as R242 words it. -/
theorem chord2_iff {A B : G2pt} {l : Fp2} : Chord2 A B l ↔ l = g2Chord A B := by
  unfold Chord2
  by_cases h : A.X = B.X
  · have hz : fp2Sub B.X A.X = fp2Zero := by rw [← to2_eq_zero, to2_sub, h, sub_self]
    rw [if_pos h, zero2_eq, g2Chord, hz, fp2Inv_zero, ← to2_eq, ← to2_eq, to2_mul, to2_zero, mul_zero]
  · rw [if_neg h, ← to2_eq, ← to2_eq, to2_mul2, to2_sub2, to2_sub2]
    have := fact_prime
    have := fact2
    have hi := chord2_mul h
    have hd : to2 B.X - to2 A.X ≠ 0 := sub_ne_zero.2 fun e => h (to2_eq.1 e).symm
    constructor
    · intro e
      exact mul_right_cancel₀ hd (e.trans hi.symm)
    · intro e
      rw [e, hi]

/-! ### The Miller loop -/

theorem g1IsInf_or (A : G1pt) (B : G2pt) : ((g1IsInf A || g2IsInf B) = true) ↔ (A = inf1 ∨ B = inf2) := by
  rw [Bool.or_eq_true, g1IsInf_iff, g2IsInf_iff]

theorem millerRounds_eq (A : G1pt) (B : G2pt) (n : Nat) (R : G2pt) (f : Fp12) :
    millerRounds A B n R f = ((List.range n).reverse.foldl (millerBody A B) (R, f)).2 := by
  have hl : loopParam = loopNumeral := by decide
  induction n generalizing R f with
  | zero => rfl
  | succ n ih =>
    rw [List.range_succ, List.reverse_append, List.reverse_singleton, List.singleton_append, List.foldl_cons, millerRounds]
    have hs : fp12Sqr f = fp12Mul f f := rfl
    simp only [hl, millerBody, mul12_eq, hs]
    by_cases h : loopNumeral.testBit n = true
    · rw [if_pos h, if_pos h, ih]
    · rw [if_neg h, if_neg h, ih]

/-- The Miller value as R243 words it. -/
theorem millerValue_eq (A : G1pt) (B : G2pt) : millerValue A B = miller A B := by
  unfold millerValue miller
  by_cases h : A = inf1 ∨ B = inf2
  · rw [if_pos h, if_pos ((g1IsInf_or A B).2 h), one12_eq]
  · rw [if_neg h, if_neg fun e => h ((g1IsInf_or A B).1 e), one12_eq, show bitlen loopParam - 1 = 64 by decide,
      millerRounds_eq]

theorem millerProduct_eq (acc : Fp12) (l : List (G1pt × G2pt)) :
    millerProduct acc l = l.foldl (fun acc x => mul12 acc (millerValue x.1 x.2)) acc := by
  induction l generalizing acc with
  | nil => rfl
  | cons x l ih =>
    obtain ⟨A, B⟩ := x
    rw [millerProduct, ih, List.foldl_cons, mul12_eq, millerValue_eq]

/-- The product of a pairing check as R246 words it. -/
theorem pairsProduct_eq (l : List (G1pt × G2pt)) : pairsProduct l = millerProduct fp12One l := by
  rw [millerProduct_eq, ← one12_eq]
  rfl

/-! ### The registers of a pairing check (40_control.md R100, 47_pairing.md R246) -/

/-- A successful read of pairs gives the value of each register, in order. -/
theorem readPairs_some {s : State} {is : List RegIdx} {l : List (G1pt × G2pt)} :
    readPairs s is = some l ↔ List.Forall₂ (fun i x => s.P[i] = some x.1 ∧ s.W[i] = some x.2) is l := by
  induction is generalizing l with
  | nil => simp [readPairs, eq_comm]
  | cons i is ih =>
    unfold readPairs
    simp only [readReg_fileP, readReg_fileW]
    constructor
    · intro h
      split at h
      · cases h
      · rename_i a ha
        split at h
        · cases h
        · rename_i b hb
          split at h
          · cases h
          · rename_i l' hl
            cases h
            exact .cons ⟨ha, hb⟩ (ih.1 hl)
    · intro h
      cases h with
      | cons h1 h2 => rw [h1.1, h1.2, ih.2 h2]

/-- A read of pairs fails exactly where one of the registers is not valid. -/
theorem readPairs_none {s : State} {is : List RegIdx} :
    readPairs s is = none ↔ ∃ i ∈ is, s.P[i] = none ∨ s.W[i] = none := by
  induction is with
  | nil => simp [readPairs]
  | cons i is ih =>
    unfold readPairs
    simp only [readReg_fileP, readReg_fileW, List.exists_mem_cons_iff]
    cases hp : s.P[i] with
    | none => simp
    | some a =>
      cases hw : s.W[i] with
      | none => simp
      | some b =>
        cases hr : readPairs s is with
        | none => simpa using ih.1 hr
        | some l => simpa [hr] using ih

theorem pairRegs_length {n : Nat} (h : n ≤ 8) : (pairRegs n).length = n := by simp [pairRegs, h]

theorem eight_get : ∀ (k : Nat) (h : k < 8), ([0, 1, 2, 3, 4, 5, 6, 7] : List RegIdx)[k] = ⟨k, h⟩ := by decide

theorem pairRegs_get {n k : Nat} (hn : n ≤ 8) (h : k < n) :
    (pairRegs n)[k]'(by rw [pairRegs_length hn]; exact h) = ⟨k, Nat.lt_of_lt_of_le h hn⟩ := by
  simp only [pairRegs, List.getElem_take]
  exact eight_get k (Nat.lt_of_lt_of_le h hn)

theorem mem_pairRegs {n : Nat} (hn : n ≤ 8) {i : RegIdx} : i ∈ pairRegs n ↔ i.val < n := by
  rw [List.mem_iff_getElem]
  constructor
  · rintro ⟨k, hk, e⟩
    rw [pairRegs_length hn] at hk
    rw [pairRegs_get hn hk] at e
    subst e
    exact hk
  · intro h
    exact ⟨i.val, by rw [pairRegs_length hn]; exact h, pairRegs_get hn h⟩

/-- The pairs a check reads, as Safety.lean words it. -/
theorem pairsAre_iff {s : State} {n : Nat} (hn : n ≤ 8) {l : List (G1pt × G2pt)} :
    PairsAre s n l ↔ readPairs s (pairRegs n) = some l := by
  rw [readPairs_some, List.forall₂_iff_get]
  have hp := pairRegs_length hn
  constructor
  · rintro ⟨hl, h⟩
    refine ⟨hp.trans hl.symm, fun k h1 h2 => ?_⟩
    have hk : k < n := hp ▸ h1
    have := h ⟨k, Nat.lt_of_lt_of_le hk hn⟩ (l.get ⟨k, h2⟩).1 (l.get ⟨k, h2⟩).2 (by simp [h2])
    simp only [List.get_eq_getElem, pairRegs_get hn hk]
    exact this
  · rintro ⟨hl, h⟩
    refine ⟨hl.symm.trans hp, fun i A B e => ?_⟩
    obtain ⟨hi, e⟩ := List.getElem?_eq_some_iff.1 e
    have hin : i.val < n := by omega
    have := h i.val (by omega) hi
    simp only [List.get_eq_getElem, pairRegs_get hn hin, e] at this
    exact this

end Sys2Proof.Laws
end

