-- ==== Sys2Proof/Laws/PerInstr.lean ====
section
/-! SUPPORT. Statements about every instruction as syntax, one lemma per constructor. -/

namespace Sys2Proof.Laws.OpcodeByte

open Sys2Proof.Safety

-- one theorem after the other: 96 at once would each ask for a stack of its own
set_option Elab.async false

/-- The opcode byte of the row with this mnemonic (30_encoding.md R80, R87). -/
def opcodeNamed (m : String) : Option (BitVec 8) :=
  (tableRows.find? fun r => r.mnemonic == m).map fun r => opField r.value

/-- The opcode byte of an instruction's word is that of its row. -/
def Statement (i : Instr) : Prop := opcodeNamed (nameOf i) = some (opField (encode i))

theorem named {m : String} {op : BitVec 8} {w : Word} (h : opcodeNamed m = some op) (hw : opField w = op) :
    opcodeNamed m = some (opField w) := hw ▸ h

theorem ofR {m : String} {op : BitVec 8} {rd ra rb rc : BitVec 6} (h : opcodeNamed m = some op) :
    opcodeNamed m = some (opField (wordR op rd ra rb rc)) := named h (opField_wordR op rd ra rb rc)

theorem ofI {m : String} {op : BitVec 8} {rd : BitVec 6} {imm : BitVec 16} (h : opcodeNamed m = some op) :
    opcodeNamed m = some (opField (wordI op rd imm)) := named h (opField_wordI op rd imm)

theorem ofM {m : String} {op : BitVec 8} {f : BitVec 3} {addr : Addr} {len : BitVec 9} (h : opcodeNamed m = some op) :
    opcodeNamed m = some (opField (wordM op f addr len)) := named h (opField_wordM op f addr len)

theorem nop : Statement (.nop) :=
  ofR (m := "NOP") (op := 0x00) (by decide +kernel)
theorem halt : Statement (.halt) :=
  ofR (m := "HALT") (op := 0x01) (by decide +kernel)
theorem jmp (target : BitVec 16) : Statement (.jmp target) :=
  ofI (m := "JMP") (op := 0x02) (by decide +kernel)
theorem bt (target : BitVec 16) : Statement (.bt target) :=
  ofI (m := "BT") (op := 0x03) (by decide +kernel)
theorem bf (target : BitVec 16) : Statement (.bf target) :=
  ofI (m := "BF") (op := 0x04) (by decide +kernel)
theorem kLi (rd : RegIdx) (imm : BitVec 16) : Statement (.kLi rd imm) :=
  ofI (m := "K.LI") (op := 0x08) (by decide +kernel)
theorem kMov (rd : RegIdx) (ra : RegIdx) : Statement (.kMov rd ra) :=
  ofR (m := "K.MOV") (op := 0x09) (by decide +kernel)
theorem fAdd (rd : RegIdx) (ra : RegIdx) (rb : RegIdx) : Statement (.fAdd rd ra rb) :=
  ofR (m := "F.ADD") (op := 0x10) (by decide +kernel)
theorem fSub (rd : RegIdx) (ra : RegIdx) (rb : RegIdx) : Statement (.fSub rd ra rb) :=
  ofR (m := "F.SUB") (op := 0x11) (by decide +kernel)
theorem fMul (rd : RegIdx) (ra : RegIdx) (rb : RegIdx) : Statement (.fMul rd ra rb) :=
  ofR (m := "F.MUL") (op := 0x12) (by decide +kernel)
theorem fSqr (rd : RegIdx) (ra : RegIdx) : Statement (.fSqr rd ra) :=
  ofR (m := "F.SQR") (op := 0x13) (by decide +kernel)
theorem fNeg (rd : RegIdx) (ra : RegIdx) : Statement (.fNeg rd ra) :=
  ofR (m := "F.NEG") (op := 0x14) (by decide +kernel)
theorem fInv (rd : RegIdx) (ra : RegIdx) : Statement (.fInv rd ra) :=
  ofR (m := "F.INV") (op := 0x15) (by decide +kernel)
theorem fEq (ra : RegIdx) (rb : RegIdx) : Statement (.fEq ra rb) :=
  ofR (m := "F.EQ") (op := 0x16) (by decide +kernel)
theorem fIsZ (ra : RegIdx) : Statement (.fIsZ ra) :=
  ofR (m := "F.ISZ") (op := 0x17) (by decide +kernel)
theorem fMov (rd : RegIdx) (ra : RegIdx) : Statement (.fMov rd ra) :=
  ofR (m := "F.MOV") (op := 0x18) (by decide +kernel)
theorem fLi (rd : RegIdx) (imm : BitVec 16) : Statement (.fLi rd imm) :=
  ofI (m := "F.LI") (op := 0x19) (by decide +kernel)
theorem qAdd (rd : RegIdx) (ra : RegIdx) (rb : RegIdx) : Statement (.qAdd rd ra rb) :=
  ofR (m := "Q.ADD") (op := 0x20) (by decide +kernel)
theorem qSub (rd : RegIdx) (ra : RegIdx) (rb : RegIdx) : Statement (.qSub rd ra rb) :=
  ofR (m := "Q.SUB") (op := 0x21) (by decide +kernel)
theorem qMul (rd : RegIdx) (ra : RegIdx) (rb : RegIdx) : Statement (.qMul rd ra rb) :=
  ofR (m := "Q.MUL") (op := 0x22) (by decide +kernel)
theorem qSqr (rd : RegIdx) (ra : RegIdx) : Statement (.qSqr rd ra) :=
  ofR (m := "Q.SQR") (op := 0x23) (by decide +kernel)
theorem qNeg (rd : RegIdx) (ra : RegIdx) : Statement (.qNeg rd ra) :=
  ofR (m := "Q.NEG") (op := 0x24) (by decide +kernel)
theorem qInv (rd : RegIdx) (ra : RegIdx) : Statement (.qInv rd ra) :=
  ofR (m := "Q.INV") (op := 0x25) (by decide +kernel)
theorem qEq (ra : RegIdx) (rb : RegIdx) : Statement (.qEq ra rb) :=
  ofR (m := "Q.EQ") (op := 0x26) (by decide +kernel)
theorem qIsZ (ra : RegIdx) : Statement (.qIsZ ra) :=
  ofR (m := "Q.ISZ") (op := 0x27) (by decide +kernel)
theorem qMov (rd : RegIdx) (ra : RegIdx) : Statement (.qMov rd ra) :=
  ofR (m := "Q.MOV") (op := 0x28) (by decide +kernel)
theorem qMnr (rd : RegIdx) (ra : RegIdx) : Statement (.qMnr rd ra) :=
  ofR (m := "Q.MNR") (op := 0x29) (by decide +kernel)
theorem qPack (rd : RegIdx) (ra : RegIdx) (rb : RegIdx) : Statement (.qPack rd ra rb) :=
  ofR (m := "Q.PACK") (op := 0x2A) (by decide +kernel)
theorem qGet (rd : RegIdx) (ra : RegIdx) (sel : BitVec 6) : Statement (.qGet rd ra sel) :=
  ofR (m := "Q.GET") (op := 0x2B) (by decide +kernel)
theorem sAdd (rd : RegIdx) (ra : RegIdx) (rb : RegIdx) : Statement (.sAdd rd ra rb) :=
  ofR (m := "S.ADD") (op := 0x30) (by decide +kernel)
theorem sSub (rd : RegIdx) (ra : RegIdx) (rb : RegIdx) : Statement (.sSub rd ra rb) :=
  ofR (m := "S.SUB") (op := 0x31) (by decide +kernel)
theorem sMul (rd : RegIdx) (ra : RegIdx) (rb : RegIdx) : Statement (.sMul rd ra rb) :=
  ofR (m := "S.MUL") (op := 0x32) (by decide +kernel)
theorem sSqr (rd : RegIdx) (ra : RegIdx) : Statement (.sSqr rd ra) :=
  ofR (m := "S.SQR") (op := 0x33) (by decide +kernel)
theorem sNeg (rd : RegIdx) (ra : RegIdx) : Statement (.sNeg rd ra) :=
  ofR (m := "S.NEG") (op := 0x34) (by decide +kernel)
theorem sInv (rd : RegIdx) (ra : RegIdx) : Statement (.sInv rd ra) :=
  ofR (m := "S.INV") (op := 0x35) (by decide +kernel)
theorem sEq (ra : RegIdx) (rb : RegIdx) : Statement (.sEq ra rb) :=
  ofR (m := "S.EQ") (op := 0x36) (by decide +kernel)
theorem sIsZ (ra : RegIdx) : Statement (.sIsZ ra) :=
  ofR (m := "S.ISZ") (op := 0x37) (by decide +kernel)
theorem sMov (rd : RegIdx) (ra : RegIdx) : Statement (.sMov rd ra) :=
  ofR (m := "S.MOV") (op := 0x38) (by decide +kernel)
theorem sMulV (rd : RegIdx) (ra : RegIdx) : Statement (.sMulV rd ra) :=
  ofR (m := "S.MULV") (op := 0x39) (by decide +kernel)
theorem sPack (rd : RegIdx) (ra : RegIdx) (rb : RegIdx) (rc : RegIdx) : Statement (.sPack rd ra rb rc) :=
  ofR (m := "S.PACK") (op := 0x3A) (by decide +kernel)
theorem sGet (rd : RegIdx) (ra : RegIdx) (sel : BitVec 6) : Statement (.sGet rd ra sel) :=
  ofR (m := "S.GET") (op := 0x3B) (by decide +kernel)
theorem dAdd (rd : RegIdx) (ra : RegIdx) (rb : RegIdx) : Statement (.dAdd rd ra rb) :=
  ofR (m := "D.ADD") (op := 0x40) (by decide +kernel)
theorem dSub (rd : RegIdx) (ra : RegIdx) (rb : RegIdx) : Statement (.dSub rd ra rb) :=
  ofR (m := "D.SUB") (op := 0x41) (by decide +kernel)
theorem dMul (rd : RegIdx) (ra : RegIdx) (rb : RegIdx) : Statement (.dMul rd ra rb) :=
  ofR (m := "D.MUL") (op := 0x42) (by decide +kernel)
theorem dSqr (rd : RegIdx) (ra : RegIdx) : Statement (.dSqr rd ra) :=
  ofR (m := "D.SQR") (op := 0x43) (by decide +kernel)
theorem dNeg (rd : RegIdx) (ra : RegIdx) : Statement (.dNeg rd ra) :=
  ofR (m := "D.NEG") (op := 0x44) (by decide +kernel)
theorem dInv (rd : RegIdx) (ra : RegIdx) : Statement (.dInv rd ra) :=
  ofR (m := "D.INV") (op := 0x45) (by decide +kernel)
theorem dEq (ra : RegIdx) (rb : RegIdx) : Statement (.dEq ra rb) :=
  ofR (m := "D.EQ") (op := 0x46) (by decide +kernel)
theorem dIsZ (ra : RegIdx) : Statement (.dIsZ ra) :=
  ofR (m := "D.ISZ") (op := 0x47) (by decide +kernel)
theorem dMov (rd : RegIdx) (ra : RegIdx) : Statement (.dMov rd ra) :=
  ofR (m := "D.MOV") (op := 0x48) (by decide +kernel)
theorem dConj (rd : RegIdx) (ra : RegIdx) : Statement (.dConj rd ra) :=
  ofR (m := "D.CONJ") (op := 0x49) (by decide +kernel)
theorem dPack (rd : RegIdx) (ra : RegIdx) (rb : RegIdx) : Statement (.dPack rd ra rb) :=
  ofR (m := "D.PACK") (op := 0x4A) (by decide +kernel)
theorem dGet (rd : RegIdx) (ra : RegIdx) (sel : BitVec 6) : Statement (.dGet rd ra sel) :=
  ofR (m := "D.GET") (op := 0x4B) (by decide +kernel)
theorem dOne (rd : RegIdx) : Statement (.dOne rd) :=
  ofR (m := "D.ONE") (op := 0x4C) (by decide +kernel)
theorem dIsOne (ra : RegIdx) : Statement (.dIsOne ra) :=
  ofR (m := "D.ISONE") (op := 0x4D) (by decide +kernel)
theorem dExp (rd : RegIdx) (ra : RegIdx) (rb : RegIdx) : Statement (.dExp rd ra rb) :=
  ofR (m := "D.EXP") (op := 0x4E) (by decide +kernel)
theorem g1New (rd : RegIdx) (ra : RegIdx) (rb : RegIdx) : Statement (.g1New rd ra rb) :=
  ofR (m := "G1.NEW") (op := 0x50) (by decide +kernel)
theorem g1Inf (rd : RegIdx) : Statement (.g1Inf rd) :=
  ofR (m := "G1.INF") (op := 0x51) (by decide +kernel)
theorem g1Gen (rd : RegIdx) : Statement (.g1Gen rd) :=
  ofR (m := "G1.GEN") (op := 0x52) (by decide +kernel)
theorem g1Add (rd : RegIdx) (ra : RegIdx) (rb : RegIdx) : Statement (.g1Add rd ra rb) :=
  ofR (m := "G1.ADD") (op := 0x53) (by decide +kernel)
theorem g1Dbl (rd : RegIdx) (ra : RegIdx) : Statement (.g1Dbl rd ra) :=
  ofR (m := "G1.DBL") (op := 0x54) (by decide +kernel)
theorem g1Neg (rd : RegIdx) (ra : RegIdx) : Statement (.g1Neg rd ra) :=
  ofR (m := "G1.NEG") (op := 0x55) (by decide +kernel)
theorem g1Smul (rd : RegIdx) (ra : RegIdx) (rb : RegIdx) : Statement (.g1Smul rd ra rb) :=
  ofR (m := "G1.SMUL") (op := 0x56) (by decide +kernel)
theorem g1Eq (ra : RegIdx) (rb : RegIdx) : Statement (.g1Eq ra rb) :=
  ofR (m := "G1.EQ") (op := 0x57) (by decide +kernel)
theorem g1IsInf (ra : RegIdx) : Statement (.g1IsInf ra) :=
  ofR (m := "G1.ISINF") (op := 0x58) (by decide +kernel)
theorem g1Mov (rd : RegIdx) (ra : RegIdx) : Statement (.g1Mov rd ra) :=
  ofR (m := "G1.MOV") (op := 0x59) (by decide +kernel)
theorem g1GetX (rd : RegIdx) (ra : RegIdx) : Statement (.g1GetX rd ra) :=
  ofR (m := "G1.GETX") (op := 0x5A) (by decide +kernel)
theorem g1GetY (rd : RegIdx) (ra : RegIdx) : Statement (.g1GetY rd ra) :=
  ofR (m := "G1.GETY") (op := 0x5B) (by decide +kernel)
theorem g2New (rd : RegIdx) (ra : RegIdx) (rb : RegIdx) : Statement (.g2New rd ra rb) :=
  ofR (m := "G2.NEW") (op := 0x60) (by decide +kernel)
theorem g2Inf (rd : RegIdx) : Statement (.g2Inf rd) :=
  ofR (m := "G2.INF") (op := 0x61) (by decide +kernel)
theorem g2Gen (rd : RegIdx) : Statement (.g2Gen rd) :=
  ofR (m := "G2.GEN") (op := 0x62) (by decide +kernel)
theorem g2Add (rd : RegIdx) (ra : RegIdx) (rb : RegIdx) : Statement (.g2Add rd ra rb) :=
  ofR (m := "G2.ADD") (op := 0x63) (by decide +kernel)
theorem g2Dbl (rd : RegIdx) (ra : RegIdx) : Statement (.g2Dbl rd ra) :=
  ofR (m := "G2.DBL") (op := 0x64) (by decide +kernel)
theorem g2Neg (rd : RegIdx) (ra : RegIdx) : Statement (.g2Neg rd ra) :=
  ofR (m := "G2.NEG") (op := 0x65) (by decide +kernel)
theorem g2Smul (rd : RegIdx) (ra : RegIdx) (rb : RegIdx) : Statement (.g2Smul rd ra rb) :=
  ofR (m := "G2.SMUL") (op := 0x66) (by decide +kernel)
theorem g2Eq (ra : RegIdx) (rb : RegIdx) : Statement (.g2Eq ra rb) :=
  ofR (m := "G2.EQ") (op := 0x67) (by decide +kernel)
theorem g2IsInf (ra : RegIdx) : Statement (.g2IsInf ra) :=
  ofR (m := "G2.ISINF") (op := 0x68) (by decide +kernel)
theorem g2Mov (rd : RegIdx) (ra : RegIdx) : Statement (.g2Mov rd ra) :=
  ofR (m := "G2.MOV") (op := 0x69) (by decide +kernel)
theorem g2GetX (rd : RegIdx) (ra : RegIdx) : Statement (.g2GetX rd ra) :=
  ofR (m := "G2.GETX") (op := 0x6A) (by decide +kernel)
theorem g2GetY (rd : RegIdx) (ra : RegIdx) : Statement (.g2GetY rd ra) :=
  ofR (m := "G2.GETY") (op := 0x6B) (by decide +kernel)
theorem lineDbl (rd : RegIdx) (ra : RegIdx) (rb : RegIdx) : Statement (.lineDbl rd ra rb) :=
  ofR (m := "LINE.DBL") (op := 0x70) (by decide +kernel)
theorem lineAdd (rd : RegIdx) (ra : RegIdx) (rb : RegIdx) (rc : RegIdx) : Statement (.lineAdd rd ra rb rc) :=
  ofR (m := "LINE.ADD") (op := 0x71) (by decide +kernel)
theorem mloop (rd : RegIdx) (ra : RegIdx) (rb : RegIdx) : Statement (.mloop rd ra rb) :=
  ofR (m := "MLOOP") (op := 0x72) (by decide +kernel)
theorem fexp (rd : RegIdx) (ra : RegIdx) : Statement (.fexp rd ra) :=
  ofR (m := "FEXP") (op := 0x73) (by decide +kernel)
theorem pair (rd : RegIdx) (ra : RegIdx) (rb : RegIdx) : Statement (.pair rd ra rb) :=
  ofR (m := "PAIR") (op := 0x74) (by decide +kernel)
theorem pchk (n : BitVec 16) : Statement (.pchk n) :=
  ofI (m := "PCHK") (op := 0x75) (by decide +kernel)
theorem pchke (n : BitVec 16) : Statement (.pchke n) :=
  ofI (m := "PCHKE") (op := 0x76) (by decide +kernel)
theorem g1Enc (r : RegIdx) (addr : Addr) : Statement (.g1Enc r addr) :=
  ofM (m := "G1.ENC") (op := 0x80) (by decide +kernel)
theorem g1Dec (r : RegIdx) (addr : Addr) (len : BitVec 9) : Statement (.g1Dec r addr len) :=
  ofM (m := "G1.DEC") (op := 0x81) (by decide +kernel)
theorem g2Enc (r : RegIdx) (addr : Addr) : Statement (.g2Enc r addr) :=
  ofM (m := "G2.ENC") (op := 0x82) (by decide +kernel)
theorem g2Dec (r : RegIdx) (addr : Addr) (len : BitVec 9) : Statement (.g2Dec r addr len) :=
  ofM (m := "G2.DEC") (op := 0x83) (by decide +kernel)
theorem gtEnc (r : RegIdx) (addr : Addr) : Statement (.gtEnc r addr) :=
  ofM (m := "GT.ENC") (op := 0x84) (by decide +kernel)
theorem gtDec (r : RegIdx) (addr : Addr) (len : BitVec 9) : Statement (.gtDec r addr len) :=
  ofM (m := "GT.DEC") (op := 0x85) (by decide +kernel)
theorem fLd (r : RegIdx) (addr : Addr) : Statement (.fLd r addr) :=
  ofM (m := "F.LD") (op := 0x86) (by decide +kernel)
theorem fSt (r : RegIdx) (addr : Addr) : Statement (.fSt r addr) :=
  ofM (m := "F.ST") (op := 0x87) (by decide +kernel)
theorem kLd (r : RegIdx) (addr : Addr) (len : BitVec 9) : Statement (.kLd r addr len) :=
  ofM (m := "K.LD") (op := 0x88) (by decide +kernel)

end Sys2Proof.Laws.OpcodeByte
end

