-- ==== Sys2Proof/Tests/Slice0.lean ====
section
/-! SUPPORT. Tests. Every expected value is one the spec states: the examples of its rules, the worked encodings of
30_encoding.md R87 and R88, the vectors of 95_test_vectors.md part 2 (named by its section) and the large operands of
41_fp.md section 3. A command is given as the word its row of the opcode table makes of its fields, and runs as one step.
The last part shows, for every obligation with hypotheses, a state and operands that meet them. -/

namespace Sys2Proof.Tests

set_option Elab.async false

open Sys2Proof.Machine Sys2Proof.Safety

/-! ### Well-formed terms: each check refuses a term that breaks it (30_encoding.md R86) -/

theorem test_wf_qGet : WellFormed (.qGet 0 0 1) ∧ ¬ WellFormed (.qGet 0 0 2) := by decide
theorem test_wf_sGet : WellFormed (.sGet 0 0 2) ∧ ¬ WellFormed (.sGet 0 0 3) := by decide
theorem test_wf_dGet : WellFormed (.dGet 0 0 1) ∧ ¬ WellFormed (.dGet 0 0 2) := by decide
theorem test_wf_pchk : WellFormed (.pchk 8) ∧ ¬ WellFormed (.pchk 9) := by decide
theorem test_wf_pchke : WellFormed (.pchke 8) ∧ ¬ WellFormed (.pchke 9) := by decide
theorem test_wf_kLd : WellFormed (.kLd 0 0 384) ∧ ¬ WellFormed (.kLd 0 0 385) := by decide

/-! ### Decoding -/

/-- The worked encodings of 30_encoding.md R87. -/
theorem test_decode_worked :
    decode 0x100420C0 = .ok (.fAdd 1 2 3) ∧ decode 0x71001083 = .ok (.lineAdd 0 1 2 3) ∧
    decode 0x3B105080 = .ok (.sGet 4 5 2) ∧ decode 0x2B042040 = .ok (.qGet 1 2 1) ∧
    decode 0x4C140000 = .ok (.dOne 5) ∧ decode 0x080C0005 = .ok (.kLi 3 5) ∧ decode 0x03000007 = .ok (.bt 7) ∧
    decode 0x75000002 = .ok (.pchk 2) ∧ decode 0x01000000 = .ok .halt ∧
    decode 0x81420040 = .ok (.g1Dec 2 0x100 64) ∧ decode 0x84240000 = .ok (.gtEnc 1 0x200) ∧
    decode 0x86FFC000 = .ok (.fLd 7 4064) ∧ decode 0x88008020 = .ok (.kLd 0 0x40 32) := by decide +kernel

/-- 95_test_vectors.md 2.1. -/
theorem test_decode_vectors :
    decode 0x02000400 = .ok (.jmp 1024) ∧ decode 0x04000004 = .ok (.bf 4) ∧ decode 0x08000005 = .ok (.kLi 0 5) ∧
    decode 0x081CFFFF = .ok (.kLi 7 65535) ∧ decode 0x09041000 = .ok (.kMov 1 1) ∧
    decode 0x12080040 = .ok (.fMul 2 0 1) ∧ decode 0x3A0C0042 = .ok (.sPack 3 0 1 2) ∧
    decode 0x3B000080 = .ok (.sGet 0 0 2) ∧ decode 0x71040083 = .ok (.lineAdd 1 0 2 3) ∧
    decode 0x75000008 = .ok (.pchk 8) ∧ decode 0x81020040 = .ok (.g1Dec 0 0x100 64) ∧
    decode 0x88207E21 = .ok (.kLd 1 0x3F 33) ∧ decode 0x88000180 = .ok (.kLd 0 0 384) := by decide +kernel

/-- The illegal words of 95_test_vectors.md 2.1. -/
theorem test_decode_illegal :
    decode 0x12088040 = .error .registerOutOfRange ∧ decode 0x12080041 = .error .unusedFieldNotZero ∧
    decode 0x3B0000C0 = .error .selectorOutOfRange ∧ decode 0x2B000080 = .error .selectorOutOfRange ∧
    decode 0x75000009 = .error .pairCountOutOfRange ∧ decode 0x75040002 = .error .unusedFieldNotZero ∧
    decode 0x88000181 = .error .lengthOutOfRange ∧ decode 0x80000001 = .error .unusedFieldNotZero ∧
    decode 0x05000000 = .error .unknownOpcode ∧ decode 0x4F000000 = .error .unknownOpcode ∧
    decode 0x89000000 = .error .unknownOpcode ∧ decode 0xFFFFFFFF = .error .unknownOpcode := by decide +kernel

/-! Every command, its fields 7, 6, 5, 4 (rd, ra, rb, rc) or as written, placed by formats R, I and M (R81 to R83). -/

theorem test_decode_control :
    decode 0x00000000 = .ok .nop ∧ decode 0x01000000 = .ok .halt ∧ decode 0x0200ABCD = .ok (.jmp 0xABCD) ∧
    decode 0x0300ABCD = .ok (.bt 0xABCD) ∧ decode 0x0400ABCD = .ok (.bf 0xABCD) ∧
    decode 0x081C1234 = .ok (.kLi 7 0x1234) ∧ decode 0x091C6000 = .ok (.kMov 7 6) := by decide +kernel

theorem test_decode_fp :
    decode 0x101C6140 = .ok (.fAdd 7 6 5) ∧ decode 0x111C6140 = .ok (.fSub 7 6 5) ∧
    decode 0x121C6140 = .ok (.fMul 7 6 5) ∧ decode 0x131C6000 = .ok (.fSqr 7 6) ∧
    decode 0x141C6000 = .ok (.fNeg 7 6) ∧ decode 0x151C6000 = .ok (.fInv 7 6) ∧ decode 0x16006140 = .ok (.fEq 6 5) ∧
    decode 0x17006000 = .ok (.fIsZ 6) ∧ decode 0x181C6000 = .ok (.fMov 7 6) ∧
    decode 0x191C1234 = .ok (.fLi 7 0x1234) := by decide +kernel

theorem test_decode_fp2 :
    decode 0x201C6140 = .ok (.qAdd 7 6 5) ∧ decode 0x211C6140 = .ok (.qSub 7 6 5) ∧
    decode 0x221C6140 = .ok (.qMul 7 6 5) ∧ decode 0x231C6000 = .ok (.qSqr 7 6) ∧
    decode 0x241C6000 = .ok (.qNeg 7 6) ∧ decode 0x251C6000 = .ok (.qInv 7 6) ∧ decode 0x26006140 = .ok (.qEq 6 5) ∧
    decode 0x27006000 = .ok (.qIsZ 6) ∧ decode 0x281C6000 = .ok (.qMov 7 6) ∧ decode 0x291C6000 = .ok (.qMnr 7 6) ∧
    decode 0x2A1C6140 = .ok (.qPack 7 6 5) ∧ decode 0x2B1C6040 = .ok (.qGet 7 6 1) := by decide +kernel

theorem test_decode_fp6 :
    decode 0x301C6140 = .ok (.sAdd 7 6 5) ∧ decode 0x311C6140 = .ok (.sSub 7 6 5) ∧
    decode 0x321C6140 = .ok (.sMul 7 6 5) ∧ decode 0x331C6000 = .ok (.sSqr 7 6) ∧
    decode 0x341C6000 = .ok (.sNeg 7 6) ∧ decode 0x351C6000 = .ok (.sInv 7 6) ∧ decode 0x36006140 = .ok (.sEq 6 5) ∧
    decode 0x37006000 = .ok (.sIsZ 6) ∧ decode 0x381C6000 = .ok (.sMov 7 6) ∧ decode 0x391C6000 = .ok (.sMulV 7 6) ∧
    decode 0x3A1C6144 = .ok (.sPack 7 6 5 4) ∧ decode 0x3B1C6040 = .ok (.sGet 7 6 1) := by decide +kernel

theorem test_decode_fp12 :
    decode 0x401C6140 = .ok (.dAdd 7 6 5) ∧ decode 0x411C6140 = .ok (.dSub 7 6 5) ∧
    decode 0x421C6140 = .ok (.dMul 7 6 5) ∧ decode 0x431C6000 = .ok (.dSqr 7 6) ∧
    decode 0x441C6000 = .ok (.dNeg 7 6) ∧ decode 0x451C6000 = .ok (.dInv 7 6) ∧ decode 0x46006140 = .ok (.dEq 6 5) ∧
    decode 0x47006000 = .ok (.dIsZ 6) ∧ decode 0x481C6000 = .ok (.dMov 7 6) ∧ decode 0x491C6000 = .ok (.dConj 7 6) ∧
    decode 0x4A1C6140 = .ok (.dPack 7 6 5) ∧ decode 0x4B1C6040 = .ok (.dGet 7 6 1) ∧
    decode 0x4C1C0000 = .ok (.dOne 7) ∧ decode 0x4D006000 = .ok (.dIsOne 6) ∧
    decode 0x4E1C6140 = .ok (.dExp 7 6 5) := by decide +kernel

theorem test_decode_g1 :
    decode 0x501C6140 = .ok (.g1New 7 6 5) ∧ decode 0x511C0000 = .ok (.g1Inf 7) ∧
    decode 0x521C0000 = .ok (.g1Gen 7) ∧ decode 0x531C6140 = .ok (.g1Add 7 6 5) ∧
    decode 0x541C6000 = .ok (.g1Dbl 7 6) ∧ decode 0x551C6000 = .ok (.g1Neg 7 6) ∧
    decode 0x561C6140 = .ok (.g1Smul 7 6 5) ∧ decode 0x57006140 = .ok (.g1Eq 6 5) ∧
    decode 0x58006000 = .ok (.g1IsInf 6) ∧ decode 0x591C6000 = .ok (.g1Mov 7 6) ∧
    decode 0x5A1C6000 = .ok (.g1GetX 7 6) ∧ decode 0x5B1C6000 = .ok (.g1GetY 7 6) := by decide +kernel

theorem test_decode_g2 :
    decode 0x601C6140 = .ok (.g2New 7 6 5) ∧ decode 0x611C0000 = .ok (.g2Inf 7) ∧
    decode 0x621C0000 = .ok (.g2Gen 7) ∧ decode 0x631C6140 = .ok (.g2Add 7 6 5) ∧
    decode 0x641C6000 = .ok (.g2Dbl 7 6) ∧ decode 0x651C6000 = .ok (.g2Neg 7 6) ∧
    decode 0x661C6140 = .ok (.g2Smul 7 6 5) ∧ decode 0x67006140 = .ok (.g2Eq 6 5) ∧
    decode 0x68006000 = .ok (.g2IsInf 6) ∧ decode 0x691C6000 = .ok (.g2Mov 7 6) ∧
    decode 0x6A1C6000 = .ok (.g2GetX 7 6) ∧ decode 0x6B1C6000 = .ok (.g2GetY 7 6) := by decide +kernel

theorem test_decode_pairing :
    decode 0x701C6140 = .ok (.lineDbl 7 6 5) ∧ decode 0x711C6144 = .ok (.lineAdd 7 6 5 4) ∧
    decode 0x721C6140 = .ok (.mloop 7 6 5) ∧ decode 0x731C6000 = .ok (.fexp 7 6) ∧
    decode 0x741C6140 = .ok (.pair 7 6 5) ∧ decode 0x75000007 = .ok (.pchk 7) ∧
    decode 0x76000007 = .ok (.pchke 7) := by decide +kernel

theorem test_decode_codec :
    decode 0x80B00200 = .ok (.g1Enc 5 0x801) ∧ decode 0x81B00301 = .ok (.g1Dec 5 0x801 0x101) ∧
    decode 0x82B00200 = .ok (.g2Enc 5 0x801) ∧ decode 0x83B00301 = .ok (.g2Dec 5 0x801 0x101) ∧
    decode 0x84B00200 = .ok (.gtEnc 5 0x801) ∧ decode 0x85B00301 = .ok (.gtDec 5 0x801 0x101) ∧
    decode 0x86B00200 = .ok (.fLd 5 0x801) ∧ decode 0x87B00200 = .ok (.fSt 5 0x801) ∧
    decode 0x88B00301 = .ok (.kLd 5 0x801 0x101) := by decide +kernel

/-- Laying a table word out and decoding it is decoding the word (30_encoding.md R80). -/
theorem test_decodeTableWord : decodeTableWord 32 0x100420C0 = some (.fAdd 1 2 3) ∧ decodeTableWord 32 0x05000000 = none := by
  decide +kernel

/-! ### Small states -/

/-- n mod p. -/
def n1 (a : Int) : Fp := modP a
def n2 (a b : Int) : Fp2 := ⟨n1 a, n1 b⟩
def n6 (a b c d e f : Int) : Fp6 := ⟨n2 a b, n2 c d, n2 e f⟩

/-- Registers of one file set to values, from register 0 on. -/
def withRegs {α : Type} (fl : File α) (s : State) (vs : List α) : State :=
  (vs.zip ([0, 1, 2, 3, 4, 5, 6, 7] : List RegIdx)).foldl (fun s x => writeReg fl s x.2 x.1) s

/-- DMEM holding bytes from an address on, and 0 elsewhere. -/
def cellsAt (a : Nat) (bs : List Byte) : Dmem := ((bs.zipIdx a).map fun x => (x.2, x.1)).filter fun x => x.2 ≠ 0

/-- Run the command with this word at `s`. -/
def run1 (w : Nat) (s : State) : Result := step (s.withFetchWord 32 w)

/-- The state a command leaves. -/
def after : Result → State
  | .next t => t
  | .fault _ | .refused _ => State.reset

/-- A register afterwards, `none` where it is not valid or the machine is in FAULT. -/
def reg {α : Type} (fl : File α) (i : RegIdx) (r : Result) : Option α :=
  if (after r).run = .fault then none else readReg fl (after r) i

/-- T afterwards, with the run state. -/
def flag (r : Result) : Bool × RunState := ((after r).T, (after r).run)

/-- The fault record afterwards: CAUSE, EPC, INFO; `none` outside FAULT. -/
def record (r : Result) : Option (Cause × Nat × Nat) :=
  if (after r).run = .fault then some ((after r).cause, (after r).epc.toNat, (after r).info.toNat) else none

/-- A core that runs at index 0, all registers invalid. -/
def s0 : State := { State.reset with run := .run }

/-- F0 .. F7 = 5, 7, p-1, 0, 2, 1 and the large a and b of 41_fp.md section 3. -/
def sF : State := withRegs fileF s0 [n1 5, n1 7, n1 (-1), n1 0, n1 2, n1 1,
  n1 0x123456789abcdef0123456789abcdef0123456789abcdef0123456789abcdef0,
  n1 0x0fedcba9876543210fedcba9876543210fedcba9876543210fedcba987654321]

/-- Q0 .. Q7 = (1,2), (3,4), (p-1,p-1), (0,0), (0,1), (9,1), (0,5), (1,3), and F0, F1 = 3, 4. -/
def sQ : State := withRegs fileF (withRegs fileQ s0
  [n2 1 2, n2 3 4, n2 (-1) (-1), n2 0 0, n2 0 1, n2 9 1, n2 0 5, n2 1 3]) [n1 3, n1 4]

def x6 : Fp6 := n6 1 2 3 4 5 6
def y6 : Fp6 := n6 7 8 9 10 11 12
def xiInv : Fp2 := n2 0x2e9f1362305ea3ab50ca36acb4f65e7fa1928902b8ea81948e3855034733bbd1
  0x20753adca9c6bfb81499be5e509e8f8ff21b7c8d3cb039cf1ef69c66bce9b020

/-- S0 .. S4 = x, y, v, 0, 1 of 2.4, and Q0 .. Q2 the components of x. -/
def sS : State := withRegs fileQ (withRegs fileS s0 [x6, y6, n6 0 0 1 0 0 0, n6 0 0 0 0 0 0, n6 1 0 0 0 0 0])
  [n2 1 2, n2 3 4, n2 5 6]

def z6 : Fp6 := n6 0 0 0 0 0 0
def o6 : Fp6 := n6 1 0 0 0 0 0

/-- D0 .. D3 = X, w, 0, 1 of 2.5; S0, S1 = x, y; K0 .. K3 = 0, 6, 12, 1. -/
def sD : State := withRegs fileK (withRegs fileS (withRegs fileD s0 [⟨x6, y6⟩, ⟨z6, o6⟩, ⟨z6, z6⟩, ⟨o6, z6⟩]) [x6, y6])
  [0, 6, 12, 1]

def G : G1pt := ⟨n1 1, n1 2⟩
def O1 : G1pt := ⟨n1 0, n1 0⟩
def G2x : G1pt := ⟨n1 0x030644e72e131a029b85045b68181585d97816a916871ca8d3c208c16d87cfd3,
  n1 0x15ed738c0e0a7c92e7845f96b2ae9c0a68a6a449e3538fc7ff3ebf7a5a18a2c4⟩
def G3x : G1pt := ⟨n1 0x0769bf9ac56bea3ff40232bcb1b6bd159315d84715b8e679f2d355961915abf0,
  n1 0x2ab799bee0489429554fdb7c8d086475319e63b40b9c5b57cdf1ff3dd9fe2261⟩
def G5x : G1pt := ⟨n1 0x17c139df0efee0f766bc0204762b774362e4ded88953a39ce849a8a7fa163fa9,
  n1 0x01e0559bacb160664764a357af8a9fe70baa9258e0b959273ffc5718c6d4cc7c⟩

/-- P0 .. P3 = G, O, -G, 2G; F0 .. F4 = 1, 2, 0, 3, p-2; K0 .. K2 = 0, 5, r-1. -/
def sP : State := withRegs fileK (withRegs fileF (withRegs fileP s0 [G, O1, ⟨n1 1, n1 (-2)⟩, G2x])
  [n1 1, n1 2, n1 0, n1 3, n1 (-2)])
  [0, 5, 0x30644e72e131a029b85045b68181585d2833e84879b9709143e1f593f0000000]

def Hx : Fp2 := n2 0x1800deef121f1e76426a00665e5c4479674322d4f75edadd46debd5cd992f6ed
  0x198e9393920d483a7260bfb731fb5d25f1aa493335a9e71297e485b7aef312c2
def Hy : Fp2 := n2 0x12c85ea5db8c6deb4aab71808dcb408fe3d1e7690c43d37b4ce6cc0166fa7daa
  0x090689d0585ff075ec9e99ad690c3395bc4b313370b38ef355acdadcd122975b
def Hny : Fp2 := n2 0x1d9befcd05a5323e6da4d435f3b617cdb3af83285c2df711ef39c01571827f9d
  0x275dc4a288d1afb3cbb1ac09187524c7db36395df7be3b99e673b13a075a65ec
def H : G2pt := ⟨Hx, Hy⟩
def O2 : G2pt := ⟨n2 0 0, n2 0 0⟩
def H2x : G2pt := ⟨n2 0x27dc7234fd11d3e8c36c59277c3e6f149d5cd3cfa9a62aee49f8130962b4b3b9
    0x203e205db4f19b37b60121b83a7333706db86431c6d835849957ed8c3928ad79,
  n2 0x04bb53b8977e5f92a0bc372742c4830944a59b4fe6b1c0466e2a6dad122b5d2e
    0x195e8aa5b7827463722b8c153931579d3505566b4edf48d498e185f0509de152⟩
def H3x : G2pt := ⟨n2 0x06064e784db10e9051e52826e192715e8d7e478cb09a5e0012defa0694fbc7f5
    0x1014772f57bb9742735191cd5dcfe4ebbc04156b6878a0a7c9824f32ffb66e85,
  n2 0x058e1d5681b5b9e0074b0f9c8d2c68a069b920d74521e79765036d57666c5597
    0x021e2335f3354bb7922ffcc2f38d3323dd9453ac49b55441452aeaca147711b2⟩
/-- The twist point N of 2.7, outside the order-r subgroup. -/
def N2 : G2pt := ⟨n2 1 0, n2 0x2869111d5381f072f8e2728fdb825a51aadd70e52c9830e9ab4b871c0531f1bb
  0x0d1271953ed9ea0836846e70a1934187998c7f790cb4d7511b7f8da82de048a4⟩

/-- W0 .. W4 = H, O, -H, 2H, ((0,0),(0,1)); Q0 .. Q4 = the coordinates of H, of N, and (0,0); K0 .. K1 = 0, 3. -/
def sW : State := withRegs fileK (withRegs fileQ (withRegs fileW s0 [H, O2, ⟨Hx, Hny⟩, H2x, ⟨n2 0 0, n2 0 1⟩])
  [Hx, Hy, N2.X, N2.Y, n2 0 0]) [0, 3]

/-- The pairs (G, H), (-G, H), (O, O); D0 = X of 2.5, D1 = 0. -/
def sE : State := withRegs fileD (withRegs fileW (withRegs fileP s0 [G, ⟨n1 1, n1 (-2)⟩, O1]) [H, H, O2])
  [⟨x6, y6⟩, ⟨z6, z6⟩]

/-! ### Single steps -/

-- control and integers (2.1; 40_control.md R101 to R107)
theorem test_nop : (after (run1 0x00000000 s0)).pc = 1 := by decide +kernel
theorem test_halt :
    (after (run1 0x01000000 { s0 with pc := 9 })).pc = 9 ∧ (after (run1 0x01000000 s0)).run = .halt := by decide +kernel
theorem test_jmp :
    (after (run1 0x02000400 s0)).pc = 1024 ∧ (after (run1 0x02000003 { s0 with pc := 3 })).pc = 3 := by decide +kernel
theorem test_bt :
    (after (run1 0x03000007 { s0 with pc := 3 })).pc = 4 ∧
    (after (run1 0x03000007 { s0 with pc := 3, T := true })).pc = 7 := by decide +kernel
theorem test_bf :
    (after (run1 0x04000007 { s0 with pc := 3 })).pc = 7 ∧
    (after (run1 0x04000007 { s0 with pc := 3, T := true })).pc = 4 := by decide +kernel
theorem test_kLi :
    reg fileK 7 (run1 0x081CFFFF s0) = some 65535 ∧ reg fileK 0 (run1 0x08000000 s0) = some 0 := by decide +kernel
theorem test_kMov :
    reg fileK 3 (run1 0x090C1000 sP) = some 5 ∧
    record (run1 0x09040000 s0) = some (.uninitRegister, 0, 0x09040000) := by decide +kernel

-- Fp (2.2; 41_fp.md section 3)
theorem test_fAdd :
    reg fileF 3 (run1 0x100C2140 sF) = some (n1 0) ∧
    reg fileF 0 (run1 0x100061C0 sF) = some 
      (n1 0x2222222222222211222222222222221122222222222222112222222222222211) := by decide +kernel
theorem test_fSub :
    reg fileF 3 (run1 0x110C0040 sF) = some (n1 (-2)) ∧
    reg fileF 0 (run1 0x11007180 sF) = some 
      (n1 0x2e1dc3a3cdda045ab609bae76e29bc8e953adfc2551a2ebe39da0147c5256178) := by decide +kernel
theorem test_fMul :
    reg fileF 3 (run1 0x120C2080 sF) = some (n1 1) ∧
    reg fileF 0 (run1 0x120061C0 sF) = some 
      (n1 0x1fdedf85d485b2906c648df42780c8f574ef5c3d0ef10b67ccb79475977366b8) := by decide +kernel
theorem test_fSqr :
    reg fileF 3 (run1 0x130C4000 sF) = some (n1 4) ∧
    reg fileF 6 (run1 0x13186000 sF) = some 
      (n1 0x09e49b29e22274652ae939ff180be7c516b862037d9522355783c06cd3453107) := by decide +kernel
theorem test_fNeg :
    reg fileF 1 (run1 0x14043000 sF) = some (n1 0) ∧
    reg fileF 0 (run1 0x14006000 sF) = some 
      (n1 0x1e2ff7fa4674c139a61bef3de6c4796d854d1418cdb4eb9d29ec359e3dc01e57) := by decide +kernel
theorem test_fInv :
    reg fileF 1 (run1 0x15043000 sF) = some (n1 0) ∧
    reg fileF 0 (run1 0x15006000 sF) = some 
      (n1 0x07e9b3e84f016e16e1c65187a5ce582d56ef265994d0f9824cf890b81ba63ebe) := by decide +kernel
theorem test_fEq :
    flag (run1 0x16000000 sF) = (true, .run) ∧
    flag (run1 0x16000040 { sF with T := true }) = (false, .run) := by decide +kernel
theorem test_fIsZ :
    flag (run1 0x17003000 sF) = (true, .run) ∧
    flag (run1 0x17005000 { sF with T := true }) = (false, .run) := by decide +kernel
theorem test_fMov :
    reg fileF 5 (run1 0x18141000 sF) = some (n1 7) ∧ reg fileF 1 (run1 0x18141000 sF) = some (n1 7) := by decide +kernel
theorem test_fLi :
    reg fileF 1 (run1 0x1904FFFF s0) = some (n1 65535) ∧
    reg fileF 1 (run1 0x19040002 s0) = some (n1 2) := by decide +kernel

-- Fp2 (2.3)
theorem test_qAdd : reg fileQ 7 (run1 0x201C0040 sQ) = some (n2 4 6) := by decide +kernel
theorem test_qSub : reg fileQ 7 (run1 0x211C0040 sQ) = some (n2 (-2) (-2)) := by decide +kernel
theorem test_qMul :
    reg fileQ 7 (run1 0x221C0040 sQ) = some (n2 (-5) 10) ∧
    reg fileQ 2 (run1 0x22082080 sQ) = some (n2 0 2) := by decide +kernel
theorem test_qSqr :
    reg fileQ 7 (run1 0x231C0000 sQ) = some (n2 (-3) 4) ∧
    reg fileQ 7 (run1 0x231C4000 sQ) = some (n2 (-1) 0) := by decide +kernel
theorem test_qNeg : reg fileQ 7 (run1 0x241C6000 sQ) = some (n2 0 (-5)) := by decide +kernel
theorem test_qInv :
    reg fileQ 7 (run1 0x251C5000 sQ) = some xiInv ∧
    reg fileQ 7 (run1 0x251C3000 sQ) = some (n2 0 0) := by decide +kernel
theorem test_qEq :
    flag (run1 0x260001C0 { sQ with T := true }) = (false, .run) ∧
    flag (run1 0x26000000 sQ) = (true, .run) := by decide +kernel
theorem test_qIsZ :
    flag (run1 0x27004000 { sQ with T := true }) = (false, .run) ∧
    flag (run1 0x27003000 sQ) = (true, .run) := by decide +kernel
theorem test_qMov : reg fileQ 7 (run1 0x281C1000 sQ) = some (n2 3 4) := by decide +kernel
theorem test_qMnr :
    reg fileQ 7 (run1 0x291C0000 sQ) = some (n2 7 19) ∧
    reg fileQ 7 (run1 0x291C4000 sQ) = some (n2 (-1) 9) := by decide +kernel
theorem test_qPack : reg fileQ 7 (run1 0x2A1C0040 sQ) = some (n2 3 4) := by decide +kernel
theorem test_qGet :
    reg fileF 2 (run1 0x2B081000 sQ) = some (n1 3) ∧ reg fileF 2 (run1 0x2B081040 sQ) = some (n1 4) := by decide +kernel

-- Fp6 (2.4)
theorem test_sAdd : reg fileS 7 (run1 0x301C0040 sS) = some (n6 8 10 12 14 16 18) := by decide +kernel
theorem test_sSub : reg fileS 7 (run1 0x311C0040 sS) = some (n6 (-6) (-6) (-6) (-6) (-6) (-6)) := by decide +kernel
theorem test_sMul : reg fileS 7 (run1 0x321C0040 sS) = some (n6 (-463) 1648 (-301) 1197 (-39) 182) := by decide +kernel
theorem test_sSqr : reg fileS 7 (run1 0x331C0000 sS) = some (n6 (-241) 670 (-169) 549 (-21) 56) := by decide +kernel
theorem test_sNeg : reg fileS 7 (run1 0x341C0000 sS) = some (n6 (-1) (-2) (-3) (-4) (-5) (-6)) := by decide +kernel
theorem test_sInv :
    reg fileS 7 (run1 0x351C2000 sS) = some ⟨n2 0 0, n2 0 0, xiInv⟩ ∧
    reg fileS 7 (run1 0x351C3000 sS) = some z6 := by decide +kernel
theorem test_sEq :
    flag (run1 0x36000040 { sS with T := true }) = (false, .run) ∧
    flag (run1 0x36001040 sS) = (true, .run) := by decide +kernel
theorem test_sIsZ :
    flag (run1 0x37003000 sS) = (true, .run) ∧
    flag (run1 0x37002000 { sS with T := true }) = (false, .run) := by decide +kernel
theorem test_sMov : reg fileS 7 (run1 0x381C1000 sS) = some y6 := by decide +kernel
theorem test_sMulV :
    reg fileS 7 (run1 0x391C0000 sS) = some (n6 39 59 1 2 3 4) ∧
    reg fileS 7 (run1 0x391C4000 sS) = some (n6 0 0 1 0 0 0) := by decide +kernel
theorem test_sPack : reg fileS 7 (run1 0x3A1C0042 sS) = some x6 := by decide +kernel
theorem test_sGet :
    reg fileQ 7 (run1 0x3B1C0080 sS) = some (n2 5 6) ∧
    reg fileQ 7 (run1 0x3B1C0000 sS) = some (n2 1 2) := by decide +kernel

-- Fp12 (2.5)
theorem test_dAdd : reg fileD 7 (run1 0x401C00C0 sD) = some ⟨n6 2 2 3 4 5 6, y6⟩ := by decide +kernel
theorem test_dSub :
    reg fileD 7 (run1 0x411C3000 sD) = some ⟨n6 0 (-2) (-3) (-4) (-5) (-6), n6 (-7) (-8) (-9) (-10) (-11) (-12)⟩ := by decide +kernel
theorem test_dMul :
    reg fileD 7 (run1 0x421C0000 sD) = some 
      ⟨n6 (-1278) 5329 (-998) 4543 (-526) 2693, n6 (-926) 3296 (-602) 2394 (-78) 364⟩ ∧
    reg fileD 7 (run1 0x421C1040 sD) = some ⟨n6 0 0 1 0 0 0, z6⟩ := by decide +kernel
theorem test_dSqr :
    reg fileD 7 (run1 0x431C0000 sD) = some 
      ⟨n6 (-1278) 5329 (-998) 4543 (-526) 2693, n6 (-926) 3296 (-602) 2394 (-78) 364⟩ := by decide +kernel
theorem test_dNeg :
    reg fileD 7 (run1 0x441C0000 sD) = some ⟨n6 (-1) (-2) (-3) (-4) (-5) (-6), n6 (-7) (-8) (-9) (-10) (-11) (-12)⟩ := by decide +kernel
theorem test_dInv :
    reg fileD 7 (run1 0x451C1000 sD) = some ⟨z6, ⟨n2 0 0, n2 0 0, xiInv⟩⟩ ∧
    reg fileD 7 (run1 0x451C2000 sD) = some ⟨z6, z6⟩ := by decide +kernel
theorem test_dInv_large :
    (reg fileD 7 (run1 0x451C0000 sD)).map (fun v => v.c0.c0) =
      some (n2 0x125226679dc081dc1506b07a700b3952206e710f34750f9f614d4eb252eb0b6c
        0x27c0a917e8efaa8cfbafe22386be9f32651dad735696b7a8279bdd0537b474e0) := by decide +kernel
theorem test_dEq :
    flag (run1 0x46000040 { sD with T := true }) = (false, .run) ∧
    flag (run1 0x46000000 sD) = (true, .run) := by decide +kernel
theorem test_dIsZ :
    flag (run1 0x47002000 sD) = (true, .run) ∧
    flag (run1 0x47001000 { sD with T := true }) = (false, .run) := by decide +kernel
theorem test_dMov : reg fileD 7 (run1 0x481C0000 sD) = some ⟨x6, y6⟩ := by decide +kernel
theorem test_dConj :
    reg fileD 7 (run1 0x491C0000 sD) = some ⟨x6, n6 (-7) (-8) (-9) (-10) (-11) (-12)⟩ := by decide +kernel
theorem test_dPack : reg fileD 7 (run1 0x4A1C0040 sD) = some ⟨x6, y6⟩ := by decide +kernel
theorem test_dGet :
    reg fileS 7 (run1 0x4B1C0040 sD) = some y6 ∧ reg fileS 7 (run1 0x4B1C0000 sD) = some x6 := by decide +kernel
theorem test_dOne : reg fileD 7 (run1 0x4C1C0000 s0) = some ⟨o6, z6⟩ := by decide +kernel
theorem test_dIsOne :
    flag (run1 0x4D003000 sD) = (true, .run) ∧
    flag (run1 0x4D002000 { sD with T := true }) = (false, .run) := by decide +kernel
theorem test_dExp :
    reg fileD 7 (run1 0x4E1C1080 sD) = some ⟨n6 80 18 0 0 0 0, z6⟩ ∧
    reg fileD 7 (run1 0x4E1C2000 sD) = some ⟨o6, z6⟩ := by decide +kernel

-- G1 (2.6)
theorem test_g1New :
    reg fileP 7 (run1 0x501C0040 sP) = some G ∧
    record (run1 0x501C00C0 sP) = some (.invalidPoint, 0, 0x501C00C0) := by decide +kernel
theorem test_g1Inf : reg fileP 7 (run1 0x511C0000 s0) = some O1 := by decide +kernel
theorem test_g1Gen : reg fileP 7 (run1 0x521C0000 s0) = some G := by decide +kernel
theorem test_g1Add :
    reg fileP 7 (run1 0x531C00C0 sP) = some G3x ∧ reg fileP 7 (run1 0x531C0080 sP) = some O1 := by decide +kernel
theorem test_g1Dbl :
    reg fileP 7 (run1 0x541C0000 sP) = some G2x ∧ reg fileP 7 (run1 0x541C1000 sP) = some O1 := by decide +kernel
theorem test_g1Neg :
    reg fileP 7 (run1 0x551C0000 sP) = some ⟨n1 1, n1 (-2)⟩ ∧
    reg fileP 7 (run1 0x551C1000 sP) = some O1 := by decide +kernel
theorem test_g1Smul :
    reg fileP 7 (run1 0x561C0040 sP) = some G5x ∧
    reg fileP 7 (run1 0x561C0080 sP) = some ⟨n1 1, n1 (-2)⟩ := by decide +kernel
theorem test_g1Eq :
    flag (run1 0x57000080 { sP with T := true }) = (false, .run) ∧
    flag (run1 0x570030C0 sP) = (true, .run) := by decide +kernel
theorem test_g1IsInf :
    flag (run1 0x58001000 sP) = (true, .run) ∧
    flag (run1 0x58000000 { sP with T := true }) = (false, .run) := by decide +kernel
theorem test_g1Mov : reg fileP 7 (run1 0x591C3000 sP) = some G2x := by decide +kernel
theorem test_g1GetX : reg fileF 7 (run1 0x5A1C0000 sP) = some (n1 1) := by decide +kernel
theorem test_g1GetY : reg fileF 7 (run1 0x5B1C0000 sP) = some (n1 2) := by decide +kernel

-- G2 (2.7)
theorem test_g2New :
    reg fileW 7 (run1 0x601C20C0 sW) = some N2 ∧
    record (run1 0x601C4100 sW) = some (.invalidPoint, 0, 0x601C4100) := by decide +kernel
theorem test_g2Inf : reg fileW 7 (run1 0x611C0000 s0) = some O2 := by decide +kernel
theorem test_g2Gen : reg fileW 7 (run1 0x621C0000 s0) = some H := by decide +kernel
theorem test_g2Add :
    reg fileW 7 (run1 0x631C00C0 sW) = some H3x ∧ reg fileW 7 (run1 0x631C0080 sW) = some O2 := by decide +kernel
theorem test_g2Dbl :
    reg fileW 7 (run1 0x641C0000 sW) = some H2x ∧ reg fileW 7 (run1 0x641C1000 sW) = some O2 := by decide +kernel
theorem test_g2Neg : reg fileW 7 (run1 0x651C0000 sW) = some ⟨Hx, Hny⟩ := by decide +kernel
theorem test_g2Smul :
    reg fileW 7 (run1 0x661C0040 sW) = some H3x ∧ reg fileW 7 (run1 0x661C0000 sW) = some O2 := by decide +kernel
theorem test_g2Eq :
    flag (run1 0x67000080 { sW with T := true }) = (false, .run) ∧
    flag (run1 0x670030C0 sW) = (true, .run) := by decide +kernel
theorem test_g2IsInf :
    flag (run1 0x68001000 sW) = (true, .run) ∧
    flag (run1 0x68004000 { sW with T := true }) = (false, .run) := by decide +kernel
theorem test_g2Mov : reg fileW 7 (run1 0x691C3000 sW) = some H2x := by decide +kernel
theorem test_g2GetX : reg fileQ 7 (run1 0x6A1C0000 sW) = some Hx := by decide +kernel
theorem test_g2GetY : reg fileQ 7 (run1 0x6B1C0000 sW) = some Hy := by decide +kernel

-- pairing (2.8)
theorem test_lineDbl :
    reg fileD 7 (run1 0x701C0000 sE) = some 
      ⟨⟨n2 0x03b7178c857630da7676d0000961488f8fbce03349a8dc1dd6e067932b6a7e0d
        0x2b17c2b12c26fdd0e3520b9dfa601ead6f0bf9cd98c81278efe1e96b86397652,
        n2 0 0, n2 0 0⟩, ⟨n2 0x0ce69bdf84ed6d6d204fe74db6b371d37e4615ab1b3d578c32d1af5736582972
        0x1e23d69196b41dbf47d406f500e66ea29c8764b3fd262357407c3d96bb3ba710,
        n2 2 0, n2 0 0⟩⟩ := by decide +kernel
theorem test_lineAdd :
    reg fileD 7 (run1 0x711C0000 sE) = some ⟨⟨Hny, n2 0 0, n2 0 0⟩, ⟨n2 0 0, n2 2 0, n2 0 0⟩⟩ := by decide +kernel
theorem test_mloop_infinity :
    reg fileD 7 (run1 0x721C2000 sE) = some ⟨o6, z6⟩ ∧
    reg fileD 7 (run1 0x721C0080 sE) = some ⟨o6, z6⟩ := by decide +kernel

/-- Two coefficients of miller(G, H). -/
theorem miller_GH : (miller G H).c0.c0.a = n1 0x224db8f574117f3f91aa39c5888274d5b7abc3b9acc2512cd3eb20810a2f97a7 ∧
    (miller G H).c1.c2.b = n1 0x2645cd1825a39edd5083ab25f812933a53aebb3f25a14d87f6c4a88ca646f17d := by decide +kernel

theorem miller_negGH : (miller ⟨n1 1, n1 (-2)⟩ H).c0.c0.a ≠ n1 0 := by decide +kernel

theorem test_fexp : reg fileD 7 (run1 0x731C0000 sE) = some ⟨o6, z6⟩ := by
  rw [show run1 0x731C0000 sE = op1 fileD fileD (encode (.fexp 7 0)) 7 0 finalExp (sE.withFetchWord 32 0x731C0000) from rfl,
    op1_some (a := ⟨x6, y6⟩) (by decide +kernel), Laws.finalExp_eq, if_neg (by decide +kernel)]
  decide +kernel

theorem test_fexp_zero : reg fileD 7 (run1 0x731C1000 sE) = some ⟨z6, z6⟩ := by
  rw [show run1 0x731C1000 sE = op1 fileD fileD (encode (.fexp 7 1)) 7 1 finalExp (sE.withFetchWord 32 0x731C1000) from rfl,
    op1_some (a := ⟨z6, z6⟩) (by decide +kernel), Laws.finalExp_eq, if_pos (by decide +kernel)]
  decide +kernel

theorem miller_GH_ne : miller G H ≠ fp12Zero := fun h => absurd miller_GH.1 (by rw [h]; decide +kernel)

theorem test_pair : reg fileD 7 (run1 0x741C0000 sE) = some ⟨o6, z6⟩ := by
  rw [show run1 0x741C0000 sE = op2 fileP fileW fileD (encode (.pair 7 0 0)) 7 0 0 pairing (sE.withFetchWord 32 0x741C0000)
    from rfl, op2_some (a := G) (b := H) (by decide +kernel) (by decide +kernel), pairing, Laws.finalExp_eq,
    if_neg miller_GH_ne]
  decide +kernel

/-- The two pairs of scenario 4. -/
def scenario4 : List (G1pt × G2pt) := [(G, H), (⟨n1 1, n1 (-2)⟩, H)]

theorem scenario4_read (w : Nat) : readPairs (sE.withFetchWord 32 w) (pairRegs 2) = some scenario4 := by
  rw [Laws.readPairs_some]
  exact .cons ⟨rfl, rfl⟩ (.cons ⟨rfl, rfl⟩ .nil)

theorem scenario4_holds : pairingCheck scenario4 = true := by
  rw [Laws.pairingCheck_eq]
  decide +kernel

/-- What `PCHK n` and `PCHKE n` answer where the pairs are read and the check holds. -/
theorem pchk_holds {n : BitVec 16} {s : State} {l : List (G1pt × G2pt)} (hn : n.toNat ≤ 8)
    (hl : readPairs s (pairRegs n.toNat) = some l) (hc : pairingCheck l = true) :
    exec (.pchk n) s = finishTest true s ∧ exec (.pchke n) s = finishTest true s := by
  constructor
  · show execPchk n s = _
    rw [execPchk, if_pos hn, withPairs, hl]
    simp only [hc]
  · show execPchke n s = _
    rw [execPchke, if_pos hn, withPairs, hl]
    simp only [hc, if_true]

theorem test_pchk : flag (run1 0x75000002 sE) = (true, .run) := by
  rw [run1, Laws.step_withFetchWord (i := .pchk 2) (by decide +kernel) (by decide +kernel) (by decide +kernel),
    (pchk_holds (by decide) (scenario4_read _) scenario4_holds).1]
  decide +kernel

theorem test_pchke : flag (run1 0x76000002 sE) = (true, .run) := by
  rw [run1, Laws.step_withFetchWord (i := .pchke 2) (by decide +kernel) (by decide +kernel) (by decide +kernel),
    (pchk_holds (by decide) (scenario4_read _) scenario4_holds).2]
  decide +kernel

theorem test_pchk_none : flag (run1 0x75000000 s0) = (true, .run) := by
  rw [run1, Laws.step_withFetchWord (i := .pchk 0) (by decide +kernel) (by decide +kernel) (by decide +kernel),
    (pchk_holds (l := []) (by decide) rfl (by rw [Laws.pairingCheck_eq]; decide +kernel)).1]
  decide +kernel

theorem test_pchk_uninit :
    record (run1 0x75000001 s0) = some (.uninitRegister, 0, 0x75000001) ∧
    record (run1 0x76000004 sE) = some (.uninitRegister, 0, 0x76000004) := by decide +kernel
theorem test_mloop :
    (reg fileD 7 (run1 0x721C0000 sE)).map (fun v => v.c0.c0.a) =
      some (n1 0x224db8f574117f3f91aa39c5888274d5b7abc3b9acc2512cd3eb20810a2f97a7) := by decide +kernel

-- codec (2.9), at a = 0x100 where an address is needed

/-- BE_32(p) without its last byte: BE_32(p - 2), BE_32(p - 1), BE_32(p) and BE_32(p + 2) end in 45, 46, 47 and 49. -/
def pHead : List Byte := [0x30, 0x64, 0x4E, 0x72, 0xE1, 0x31, 0xA0, 0x29, 0xB8, 0x50, 0x45, 0xB6, 0x81, 0x81, 0x58, 0x5D,
    0x97, 0x81, 0x6A, 0x91, 0x68, 0x71, 0xCA, 0x8D, 0x3C, 0x20, 0x8C, 0x16, 0xD8, 0x7C, 0xFD]

/-- BE_32(k) of a k below 256. -/
def small (k : Byte) : List Byte := List.replicate 31 0 ++ [k]

/-- The bytes 0x100 .. of DMEM, on a core that holds `s`. -/
def mem (s : State) (bs : List Byte) : State := { s with dmem := cellsAt 0x100 bs }

/-- Old bytes around and inside 64 bytes at 0x100. -/
def old : Dmem := [(0xFF, 0xAA), (0x105, 0x11), (0x140, 0xBB)]

theorem test_g1Enc :
    (after (run1 0x80020000 { sP with dmem := old })).dmem = [(0xFF, 0xAA), (0x11F, 1), (0x13F, 2), (0x140, 0xBB)] ∧
    (after (run1 0x80220000 { sP with dmem := old })).dmem = [(0xFF, 0xAA), (0x140, 0xBB)] := by decide +kernel
theorem test_g1Dec :
    reg fileP 7 (run1 0x81E20040 (mem s0 (small 1 ++ pHead ++ [0x45]))) = some ⟨n1 1, n1 (-2)⟩ ∧
    reg fileP 7 (run1 0x81E20040 s0) = some O1 ∧
    reg fileP 7 (run1 0x81FF8040 { s0 with dmem := cellsAt 4032 (small 1 ++ small 2) }) = some G := by decide +kernel
theorem test_g1Dec_faults :
    record (run1 0x81E20040 (mem s0 (small 1 ++ small 3))) = some (.invalidPoint, 0, 0x100) ∧
    record (run1 0x81E20040 (mem s0 (small 0 ++ small 1))) = some (.invalidPoint, 0, 0x100) ∧
    record (run1 0x81E20040 (mem s0 (small 1 ++ pHead ++ [0x49]))) = some (.invalidEncoding, 0, 0x120) ∧
    record (run1 0x81E20040 (mem s0 (pHead ++ [0x47] ++ pHead ++ [0x47]))) = some (.invalidEncoding, 0, 0x100) ∧
    record (run1 0x81FF903F s0) = some (.invalidEncoding, 0, 63) ∧
    record (run1 0x81FF9040 s0) = some (.dmemAccessFault, 0, 4040) := by decide +kernel

/-- Xa, Xb, Ya, Yb of H, 32 bytes each. -/
def encH : List Byte :=
    [0x18, 0x00, 0xDE, 0xEF, 0x12, 0x1F, 0x1E, 0x76, 0x42, 0x6A, 0x00, 0x66, 0x5E, 0x5C, 0x44, 0x79,
    0x67, 0x43, 0x22, 0xD4, 0xF7, 0x5E, 0xDA, 0xDD, 0x46, 0xDE, 0xBD, 0x5C, 0xD9, 0x92, 0xF6, 0xED,
    0x19, 0x8E, 0x93, 0x93, 0x92, 0x0D, 0x48, 0x3A, 0x72, 0x60, 0xBF, 0xB7, 0x31, 0xFB, 0x5D, 0x25,
    0xF1, 0xAA, 0x49, 0x33, 0x35, 0xA9, 0xE7, 0x12, 0x97, 0xE4, 0x85, 0xB7, 0xAE, 0xF3, 0x12, 0xC2,
    0x12, 0xC8, 0x5E, 0xA5, 0xDB, 0x8C, 0x6D, 0xEB, 0x4A, 0xAB, 0x71, 0x80, 0x8D, 0xCB, 0x40, 0x8F,
    0xE3, 0xD1, 0xE7, 0x69, 0x0C, 0x43, 0xD3, 0x7B, 0x4C, 0xE6, 0xCC, 0x01, 0x66, 0xFA, 0x7D, 0xAA,
    0x09, 0x06, 0x89, 0xD0, 0x58, 0x5F, 0xF0, 0x75, 0xEC, 0x9E, 0x99, 0xAD, 0x69, 0x0C, 0x33, 0x95,
    0xBC, 0x4B, 0x31, 0x33, 0x70, 0xB3, 0x8E, 0xF3, 0x55, 0xAC, 0xDA, 0xDC, 0xD1, 0x22, 0x97, 0x5B]

theorem test_g2Enc :
    (after (run1 0x82020000 { sW with dmem := [(0xFF, 0xAA), (0x105, 0x11)] })).dmem =
      [(0xFF, 0xAA)] ++ cellsAt 0x100 encH := by decide +kernel
theorem test_g2Dec :
    reg fileW 7 (run1 0x83E20080 (mem s0 encH)) = some H ∧
    reg fileW 7 (run1 0x83E20080 s0) = some O2 := by decide +kernel
theorem test_g2Dec_faults :
    record (run1 0x83E20040 s0) = some (.invalidEncoding, 0, 64) ∧
    record (run1 0x83E20080 (mem s0 (small 1))) = some (.invalidPoint, 0, 0x100) ∧
    record (run1 0x83E20080 (mem s0 (small 1 ++ small 0 ++ small 0 ++ pHead ++ [0x47]))) = some (.invalidEncoding, 0, 0x160) := by decide +kernel
theorem test_gtEnc :
    (after (run1 0x84020000 { sD with dmem := old })).dmem =
      [(0xFF, 0xAA), (0x11F, 1), (0x13F, 2), (0x15F, 3), (0x17F, 4), (0x19F, 5), 
        (0x1BF, 6), (0x1DF, 7), (0x1FF, 8), 
        (0x21F, 9), (0x23F, 10), (0x25F, 11), (0x27F, 12)] := by decide +kernel
theorem test_gtDec :
    reg fileD 7 (run1 0x85E20180 (mem s0 ((List.range 12).flatMap fun i => small (BitVec.ofNat 8 (i + 1))))) = some 
      ⟨x6, y6⟩ ∧
    reg fileD 7 (run1 0x85E20180 s0) = some ⟨z6, z6⟩ := by decide +kernel
theorem test_gtDec_faults :
    record (run1 0x85E2017F s0) = some (.invalidEncoding, 0, 383) ∧
    record (run1 0x85E20180 (mem s0 (List.replicate 224 0 ++ pHead ++ [0x47]))) = some (.invalidEncoding, 0, (0x100 + 224)) := by decide +kernel
theorem test_fLd :
    reg fileF 7 (run1 0x86E20000 (mem s0 (pHead ++ [0x46]))) = some (n1 (-1)) ∧
    record (run1 0x86E20000 (mem s0 (pHead ++ [0x47]))) = some (.invalidEncoding, 0, 0x100) := by decide +kernel
theorem test_fLd_bounds :
    record (run1 0x86FFC200 s0) = some (.dmemAccessFault, 0, 4065) ∧
    reg fileF 7 (run1 0x86FF8200 s0) = some (n1 0) := by decide +kernel
theorem test_fSt :
    (after (run1 0x87820000 { sF with dmem := old })).dmem = [(0xFF, 0xAA), (0x11F, 2), (0x140, 0xBB)] := by decide +kernel
theorem test_kLd :
    reg fileK 7 (run1 0x88E20002 (mem s0 [1, 0])) = some 256 ∧ reg fileK 7 (run1 0x88FFFE00 s0) = some 0 ∧
    reg fileK 1 (run1 0x88207E21 { s0 with dmem := cellsAt 0x3F ([1] ++ [0x30, 0x64, 0x4E, 0x72, 0xE1, 0x31, 0xA0, 0x29, 0xB8, 0x50, 0x45, 0xB6, 0x81, 0x81, 0x58, 0x5D,
    0x28, 0x33, 0xE8, 0x48, 0x79, 0xB9, 0x70, 0x91, 0x43, 0xE1, 0xF5, 0x93, 0xF0, 0x00, 0x00, 0x00]) }) = some 
      0x130644e72e131a029b85045b68181585d2833e84879b9709143e1f593f0000000 := by decide +kernel
theorem test_kLd_bounds :
    record (run1 0x88FD0380 s0) = some (.dmemAccessFault, 0, 3713) ∧
    reg fileK 7 (run1 0x88FD0180 s0) = some 0 := by decide +kernel

/-! ### Fetch, decode and fault records (2.1; 60_exceptions.md R284, R287, R290) -/

theorem test_fetch_past : (after (run1 0x00000000 { s0 with pc := 1023 })).pc = 1024 ∧
    record (step { s0 with pc := 1024 }) = some (.imemFetchFault, 1024, 1024) := by decide +kernel

theorem test_illegal_word : record (run1 0x12088040 { s0 with pc := 3 }) = some (.illegalInstruction, 3, 0x12088040) := by
  decide +kernel

/-- A command with an invalid source and a bad operand: the register is tested first (48_codec.md R270). -/
theorem test_fault_order : record (run1 0x801FFE00 s0) = some (.uninitRegister, 0, 0x801FFE00) ∧
    record (run1 0x801FFE00 sP) = some (.dmemAccessFault, 0, 4095) := by decide +kernel

/-- Only the fault record changes (R290). -/
theorem test_fault_writes : after (step { sP with pc := 1024, T := true }) =
    { sP with pc := 1024, T := true, run := .fault, cause := .imemFetchFault, epc := 1024, info := 1024 } := by
  decide +kernel

/-! ### The host (program P5 of 95_test_vectors.md; 10_state.md R33 to R38) -/

/-- The end of the first launch of P5: InvalidPoint at index 0, INFO = 0x100. -/
def p5End : State := { s0 with run := .fault, cause := .invalidPoint, info := 0x100 }

theorem test_host_go_ignored : hostStep (.writeReg .ctrl 1) p5End = .next p5End := rfl

theorem test_host_clr : hostStep (.writeReg .ctrl 2) p5End = .next { p5End with run := .idle } ∧
    hostRegRead .info { p5End with run := .idle } = 0x100 := ⟨rfl, rfl⟩

theorem test_host_launch : hostStep (.writeReg .ctrl 5) { p5End with run := .idle, entry := 7 } =
    .next { s0 with pc := 7, entry := 7, ie := true } := rfl

theorem test_host_status : hostRegRead .status { s0 with run := .halt, T := true } = 6 ∧ hostRegRead .status p5End = 3 ∧
    hostRegRead .cause p5End = 1 ∧ hostRegRead .ctrl { s0 with ie := true } = 4 := by decide +kernel

theorem test_irq : irq { p5End with ie := true } = true ∧ irq p5End = false ∧ irq { s0 with ie := true } = false := by
  decide +kernel

theorem test_host_excluded : hostStep (.writeDmem 0 1) s0 = .refused .hostExclusion ∧
    hostStep (.readImem 1024) s0 = .fault (.hostNoSuchWord 1024) := ⟨rfl, rfl⟩

theorem test_reset : State.reset.run = .idle ∧ State.reset.pc = 0 ∧ State.reset.T = false ∧
    hostRegRead .status State.reset = 0 ∧ hostRegRead .ctrl State.reset = 0 := by decide +kernel

/-! ### The assembler (programs P2 and P6 of 95_test_vectors.md; 30_encoding.md R91, R92) -/

theorem test_assemble : assemble 0 "G1.GEN P0\nloop:\n  G1.ADD P2, P2, P0\n  BF loop ; repeat\nG1.ENC [64], P2" =
    some [0x52000000, 0x53082000, 0x04000001, 0x80408000] := by decide +kernel

theorem test_assemble_pseudo : assemble 0 "Q.GETA F4, Q3\nQ.GETB F5, Q3" = some [0x2B103000, 0x2B143040] := by
  decide +kernel

/-! ### Witnesses

For every obligation with hypotheses, a state and operands that meet them, one for each clause and at the bounds. -/

/-- A command always answers; this is its answer. -/
theorem exec_after (i : Instr) (s : State) : exec i s = .next (after (exec i s)) := by
  obtain ⟨t, h, -⟩ := Laws.exec_answers i s
  rw [h]
  rfl

theorem witness_DecodeEncodeRoundTrip : WellFormed (.kLd 7 4095 384) ∧ WellFormed (.sGet 7 7 2) ∧ WellFormed (.pchk 8) := by decide

theorem witness_EncodeDecodeRoundTrip : decode 0x88FFFF80 = .ok (.kLd 7 4095 384) ∧ decode 0x00000000 = .ok .nop := by decide +kernel

theorem witness_DecodeAcceptsExactlyTheTable :
    ⟨"S.GET", 0x3B000000, 0xFFE38F3F, .rbAtMost 2⟩ ∈ tableRows ∧
    rowMatches ⟨"S.GET", 0x3B000000, 0xFFE38F3F, .rbAtMost 2⟩ 0x3B000080 = true ∧
    rowMatches ⟨"S.GET", 0x3B000000, 0xFFE38F3F, .rbAtMost 2⟩ 0x3B0000C0 = false ∧
    decode 0x3B000080 = .ok (.sGet 0 0 2) := by decide +kernel

/-- A core about to run one word at the last index. -/
def lastWord (w : Word) : State := { s0 with pc := 1023, imem := [(1023, w)] }

theorem witness_IllegalWordsAreRejected :
    ([0x05, 0x07, 0x0A, 0x0F, 0x1A, 0x1F, 0x2C, 0x2F, 0x3C, 0x3F, 0x4F, 0x5C, 0x5F, 0x6C, 0x6F, 0x77, 0x7F, 0x89, 0xFF].all
      fun b => unassignedOpcode (opField (BitVec.ofNat 32 (b * 2 ^ 24 + 1))).toNat) = true ∧
    (∀ r ∈ tableRows, rowMatches r 0xFFFFFFFF = false) ∧ (∀ r ∈ tableRows, rowMatches r 0x880001FF = false) := by
  decide +kernel

theorem witness_IllegalWordsAreRejected_step :
    (lastWord 0x880001FF).run = .run ∧ (lastWord 0x880001FF).pc.toNat < 1024 ∧
    readWord (lastWord 0x880001FF).imem (lastWord 0x880001FF).pc.toNat = 0x880001FF := by decide +kernel

/-- A word of a command's opcode that does not match its row. -/
def offRow (r : TableRow) (w : Word) : Bool :=
  decide (r ∈ tableRows) && decide (opField w = opField r.value) && !rowMatches r w

theorem witness_IllegalWordsAreRejected_rows :
    offRow ⟨"F.ADD", 0x10000000, 0xFFE38E3F, .none⟩ 0x10200000 = true ∧
    offRow ⟨"NOP", 0x00000000, 0xFFFFFFFF, .none⟩ 0x00000001 = true ∧
    offRow ⟨"S.GET", 0x3B000000, 0xFFE38F3F, .rbAtMost 2⟩ 0x3B0000C0 = true ∧
    offRow ⟨"PCHK", 0x75000000, 0xFFFF0000, .immAtMost 8⟩ 0x75000009 = true ∧
    offRow ⟨"K.LD", 0x88000000, 0xFF000000, .lenAtMost 384⟩ 0x88000181 = true := by decide +kernel

theorem witness_StepRunsTheDecodedCommand :
    (lastWord 0x01000000).run = .run ∧ (lastWord 0x01000000).pc.toNat < 1024 ∧
    decode (readWord (lastWord 0x01000000).imem (lastWord 0x01000000).pc.toNat) = .ok .halt := by decide +kernel

theorem witness_FetchPastImemFaults : 1024 ≤ ({ s0 with pc := 1024 } : State).pc.toNat ∧ s0.run = .run ∧
    1024 ≤ ({ s0 with pc := 65535 } : State).pc.toNat := by decide

theorem witness_IllegalWordFaults :
    (lastWord 0x12088040).run = .run ∧ (lastWord 0x12088040).pc.toNat < 1024 ∧
    decode (readWord (lastWord 0x12088040).imem (lastWord 0x12088040).pc.toNat) = .error .registerOutOfRange := by
  decide +kernel

theorem witness_StoppedCoreTouchesNothing : State.reset.run ≠ .run ∧ ({ s0 with run := .halt } : State).run ≠ .run ∧ p5End.run ≠ .run := by decide

theorem witness_UninitRegisterFaults :
    WellFormed (.pchk 8) ∧ (∃ x ∈ sourcesOf (.pchk 8), validBit s0 x = false) ∧
    (∃ x ∈ sourcesOf (.dExp 0 1 7), validBit sD x = false) ∧
    sP.run = .run ∧ (∀ x ∈ sourcesOf (.g1New 7 0 3), validBit sP x = true) ∧
    (after (exec (.g1New 7 0 3) sP)).run = .fault := by decide +kernel

theorem witness_FaultsWriteOnlyTheFaultRecord :
    ({ s0 with pc := 1024 } : State).run = .run ∧
    step { s0 with pc := 1024 } = .next { s0 with pc := 1024, run := .fault, cause := .imemFetchFault, epc := 1024, info := 1024 } ∧
    (lastWord 0x12088040).run = .run ∧ step (lastWord 0x12088040) =
      .next { lastWord 0x12088040 with run := .fault, cause := .illegalInstruction, epc := 1023, info := 0x12088040 } :=
  ⟨rfl, rfl, rfl, rfl⟩

theorem witness_CompletingCommandsWriteOnlyTheirDestination :
    sF.run = .run ∧ Memory.wf sF.dmem = true ∧ (∀ i, exec i sF = .next (after (exec i sF))) ∧
    (destOf .nop = .none ∧ (after (exec .nop sF)).run ≠ .fault) ∧
    (destOf .halt = .none ∧ (after (exec .halt sF)).run ≠ .fault) ∧
    (destOf (.fAdd 7 0 1) = .reg .F 7 ∧ (after (exec (.fAdd 7 0 1) sF)).run ≠ .fault) ∧
    (destOf (.fEq 0 1) = .flag ∧ (after (exec (.fEq 0 1) sF)).run ≠ .fault) ∧
    (destOf (.fSt 4 4064) = .mem 4064 32 ∧ (after (exec (.fSt 4 4064) sF)).run ≠ .fault) :=
  ⟨rfl, rfl, fun i => exec_after i sF, by decide +kernel⟩

theorem witness_ValidBitsAreNeverCleared :
    validBit sF (.F, 7) = true ∧ move (.host (.writeReg .ctrl 2)) sF = .next sF ∧
    move .core { sF with run := .halt } = .next { sF with run := .halt } ∧
    move (.host (.reset [] [])) sF = .next State.reset := ⟨rfl, rfl, rfl, rfl⟩

theorem witness_RunStateTransitions :
    move (.host (.writeReg .ctrl 1)) State.reset = .next s0 ∧
    move .core (lastWord 0x01000000) = .next { lastWord 0x01000000 with run := .halt } ∧
    move .core { s0 with pc := 1024 } =
      .next { s0 with pc := 1024, run := .fault, cause := .imemFetchFault, epc := 1024, info := 1024 } ∧
    move (.host (.writeReg .ctrl 2)) p5End = .next { p5End with run := .idle } ∧
    move (.host (.writeReg .ctrl 1)) p5End = .next p5End ∧
    move (.host (.reset [] [])) sF = .next State.reset := ⟨rfl, rfl, rfl, rfl, rfl, rfl⟩

theorem witness_RightsOfCoreAndHost :
    step (lastWord 0x01000000) = .next { lastWord 0x01000000 with run := .halt } ∧
    hostStep (.writeDmem 4095 1) State.reset = .next { State.reset with dmem := [(4095, 1)] } ∧
    hostStep (.writeImem 1023 1) State.reset = .next { State.reset with imem := [(1023, 1)] } := ⟨rfl, rfl, rfl⟩

theorem witness_ResetLeaves : ([(1023, 7)] : List (Nat × Word)).lookup 1023 = some 7 ∧
    ([(4095, 7)] : List (Nat × Byte)).lookup 4095 = some 7 := by decide

theorem witness_CtrlWrite :
    ((2 : BitVec 32).getLsbD 1 = true ∧ p5End.run ≠ .run) ∧
    ((3 : BitVec 32).getLsbD 1 = true ∧ (3 : BitVec 32).getLsbD 0 = true ∧ s0.run = .run) ∧
    ((5 : BitVec 32).getLsbD 1 = false ∧ (5 : BitVec 32).getLsbD 0 = true ∧ State.reset.run = .idle) ∧
    ((1 : BitVec 32).getLsbD 1 = false ∧ (1 : BitVec 32).getLsbD 0 = true ∧ p5End.run = .fault) ∧
    ((4 : BitVec 32).getLsbD 1 = false ∧ (4 : BitVec 32).getLsbD 0 = false) := by decide

theorem witness_HostMemoryAccess :
    State.reset.run ≠ .run ∧ Imem.wf State.reset.imem = true ∧ Memory.wf State.reset.dmem = true ∧
    p5End.run ≠ .run ∧ Imem.wf (lastWord 1).imem = true ∧ 1023 < 1024 ∧ 4095 < 4096 := by decide

theorem witness_HostExclusion : s0.run = .run ∧ 1023 < 1024 ∧ 1024 ≤ 1024 ∧ 4095 < 4096 ∧ 4096 ≤ 4096 := by decide

/-! The shapes of the command rules: operands readable, and not. -/

theorem witness_IntegerRegisterCommands :
    regOfFile fileK sP 2 = some 0x30644e72e131a029b85045b68181585d2833e84879b9709143e1f593f0000000 ∧
    regOfFile fileK State.reset 0 = none := by decide +kernel

theorem witness_FpArithmetic :
    regOfFile fileF sF 0 = some (n1 5) ∧ regOfFile fileF sF 2 = some (n1 (-1)) ∧ regOfFile fileF State.reset 0 = none ∧
    regOfFile fileF sQ 7 = none := by decide +kernel

theorem witness_FpInverse :
    regOfFile fileF sF 3 = some (modP 0) ∧ regOfFile fileF sF 0 = some (n1 5) ∧ n1 5 ≠ modP 0 ∧
    regOfFile fileF State.reset 0 = none := by decide +kernel

theorem witness_FpTestsMovesAndLiterals :
    regOfFile fileF sF 0 = some (n1 5) ∧ regOfFile fileF sF 1 = some (n1 7) ∧
    regOfFile fileF State.reset 0 = none := by decide +kernel

theorem witness_Fp2Arithmetic :
    regOfFile fileQ sQ 0 = some (n2 1 2) ∧ regOfFile fileQ sQ 2 = some (n2 (-1) (-1)) ∧
    regOfFile fileQ State.reset 0 = none := by decide +kernel

theorem witness_Fp2Inverse :
    regOfFile fileQ sQ 3 = some zero2 ∧ regOfFile fileQ sQ 5 = some xi2 ∧ xi2 ≠ zero2 ∧
    regOfFile fileQ State.reset 0 = none := by decide +kernel

theorem witness_Fp2TestsMovesAndParts :
    regOfFile fileQ sQ 0 = some (n2 1 2) ∧ regOfFile fileF sQ 0 = some (n1 3) ∧ regOfFile fileQ State.reset 0 = none ∧
    regOfFile fileF State.reset 0 = none ∧ (1 : BitVec 6).toNat < 2 ∧ 2 ≤ (2 : BitVec 6).toNat ∧
    2 ≤ (63 : BitVec 6).toNat := by decide +kernel

theorem witness_Fp6Arithmetic :
    regOfFile fileS sS 0 = some x6 ∧ regOfFile fileS sS 1 = some y6 ∧
    regOfFile fileS State.reset 0 = none := by decide +kernel

theorem witness_Fp6Inverse :
    regOfFile fileS sS 3 = some zero6 ∧ regOfFile fileS sS 2 = some v6 ∧ v6 ≠ zero6 ∧
    mul6 v6 ⟨zero2, zero2, xiInv⟩ = one6 ∧ regOfFile fileS State.reset 0 = none := by decide +kernel

theorem witness_Fp6TestsMovesAndParts :
    regOfFile fileS sS 0 = some x6 ∧ regOfFile fileQ sS 2 = some (n2 5 6) ∧ regOfFile fileS State.reset 0 = none ∧
    regOfFile fileQ State.reset 0 = none ∧ (2 : BitVec 6).toNat < 3 ∧ 3 ≤ (3 : BitVec 6).toNat := by decide +kernel

theorem witness_Fp12Arithmetic :
    regOfFile fileD sD 0 = some ⟨x6, y6⟩ ∧ regOfFile fileD sD 3 = some one12 ∧
    regOfFile fileD State.reset 0 = none := by decide +kernel

theorem witness_Fp12Inverse :
    regOfFile fileD sD 2 = some zero12 ∧ regOfFile fileD sD 0 = some ⟨x6, y6⟩ ∧ (⟨x6, y6⟩ : Fp12) ≠ zero12 ∧
    regOfFile fileD State.reset 0 = none := by decide +kernel

theorem witness_Fp12TestsMovesAndParts :
    regOfFile fileD sD 0 = some ⟨x6, y6⟩ ∧ regOfFile fileS sD 1 = some y6 ∧ regOfFile fileD State.reset 0 = none ∧
    regOfFile fileS State.reset 0 = none ∧ (1 : BitVec 6).toNat < 2 ∧ 2 ≤ (2 : BitVec 6).toNat ∧
    2 ≤ (63 : BitVec 6).toNat := by decide +kernel

theorem witness_Fp12Power :
    regOfFile fileD sD 0 = some ⟨x6, y6⟩ ∧ regOfFile fileK sD 2 = some 12 ∧ regOfFile fileK sD 0 = some 0 ∧
    regOfFile fileD State.reset 0 = none ∧ regOfFile fileK State.reset 0 = none := by decide +kernel

/-- The curve tests on concrete points. -/
theorem onCurve_points : OnCurve1 ⟨n1 1, n1 2⟩ ∧ ¬ OnCurve1 ⟨n1 1, n1 3⟩ ∧ OnCurve2 H ∧ OnCurve2 N2 ∧ ¬ OnCurve2 O2 ∧
    OnCurve1 ⟨n1 1, n1 (-2)⟩ ∧ OnCurve1 G2x := by
  unfold OnCurve1 OnCurve2
  decide +kernel

theorem witness_G1Points :
    regOfFile fileF sP 0 = some (n1 1) ∧ regOfFile fileF sP 1 = some (n1 2) ∧ OnCurve1 ⟨n1 1, n1 2⟩ ∧
    regOfFile fileF sP 3 = some (n1 3) ∧ ¬ OnCurve1 ⟨n1 1, n1 3⟩ ∧ regOfFile fileP sP 0 = some G ∧
    regOfFile fileF State.reset 0 = none ∧
    regOfFile fileP State.reset 0 = none := 
  ⟨rfl, rfl, onCurve_points.1, rfl, onCurve_points.2.1, rfl, rfl, rfl⟩

theorem witness_G1GroupCommands :
    regOfFile fileP sP 0 = some G ∧ regOfFile fileP sP 1 = some O1 ∧ regOfFile fileP sP 3 = some G2x ∧
    regOfFile fileP State.reset 0 = none := by decide +kernel

theorem witness_G1ScalarMultiple :
    regOfFile fileP sP 0 = some G ∧ regOfFile fileP sP 1 = some inf1 ∧ regOfFile fileK sP 0 = some 0 ∧
    regOfFile fileK sD 3 = some 1 ∧ regOfFile fileK State.reset 0 = none ∧
    regOfFile fileP State.reset 0 = none := by decide +kernel

theorem witness_G2Points :
    regOfFile fileQ sW 0 = some Hx ∧ regOfFile fileQ sW 1 = some Hy ∧ OnCurve2 ⟨Hx, Hy⟩ ∧
    regOfFile fileQ sW 4 = some (n2 0 0) ∧ ¬ OnCurve2 ⟨n2 0 0, n2 0 0⟩ ∧ regOfFile fileW sW 0 = some H ∧
    regOfFile fileQ State.reset 0 = none ∧
    regOfFile fileW State.reset 0 = none := 
  ⟨rfl, rfl, onCurve_points.2.2.1, rfl, onCurve_points.2.2.2.2.1, rfl, rfl, rfl⟩

theorem witness_G2GroupCommands :
    regOfFile fileW sW 0 = some H ∧ regOfFile fileW sW 1 = some O2 ∧ regOfFile fileW sW 3 = some H2x ∧
    regOfFile fileW State.reset 0 = none := by decide +kernel

theorem witness_G2ScalarMultiple :
    regOfFile fileW sW 0 = some H ∧ regOfFile fileW sW 1 = some inf2 ∧ regOfFile fileK sW 0 = some 0 ∧
    regOfFile fileK sD 3 = some 1 ∧ regOfFile fileK State.reset 0 = none ∧
    regOfFile fileW State.reset 0 = none := by decide +kernel

theorem witness_LineFunctions :
    regOfFile fileW sE 0 = some H ∧ regOfFile fileW sE 2 = some inf2 ∧ regOfFile fileP sE 0 = some G ∧ H ≠ inf2 ∧
    regOfFile fileW State.reset 0 = none ∧ regOfFile fileP State.reset 0 = none := by decide +kernel

theorem witness_MillerLoop :
    regOfFile fileP sE 0 = some G ∧ regOfFile fileW sE 0 = some H ∧ regOfFile fileP sE 2 = some inf1 ∧
    regOfFile fileP State.reset 0 = none ∧ regOfFile fileW State.reset 0 = none := by decide +kernel

theorem witness_FinalExponentiation :
    regOfFile fileD sE 0 = some ⟨x6, y6⟩ ∧ regOfFile fileD sE 1 = some zero12 ∧
    regOfFile fileD State.reset 0 = none := by decide +kernel

theorem witness_PairCommand :
    regOfFile fileP sE 0 = some G ∧ regOfFile fileW sE 0 = some H ∧ regOfFile fileP sE 2 = some inf1 ∧
    regOfFile fileW sE 2 = some inf2 ∧ regOfFile fileP State.reset 0 = none ∧
    regOfFile fileW State.reset 0 = none := by decide +kernel

/-- Eight pairs (G, H). -/
def sE8 : State := withRegs fileW (withRegs fileP s0 (List.replicate 8 G)) (List.replicate 8 H)

theorem sE8_pairs : PairsAre sE8 8 (List.replicate 8 (G, H)) :=
  (Laws.pairsAre_iff (by decide)).2 (by decide +kernel)

theorem sE_pairs : PairsAre sE 2 scenario4 := (Laws.pairsAre_iff (by decide)).2 (scenario4_read 0)

/-- A pair of points off their curves, which no command makes (10_state.md R44), with a Miller value of 0. -/
def zeroPair : List (G1pt × G2pt) := [(⟨n1 1, n1 0⟩, ⟨n2 1 0, n2 0 0⟩)]

def sZ : State := withRegs fileW (withRegs fileP s0 [⟨n1 1, n1 0⟩]) [⟨n2 1 0, n2 0 0⟩]

theorem sZ_pairs : PairsAre sZ 1 zeroPair := (Laws.pairsAre_iff (by decide)).2 (by decide +kernel)

theorem zeroPair_product : millerProduct fp12One zeroPair = fp12Zero := by decide +kernel

theorem zeroPair_finalExp : FinalExp (pairsProduct zeroPair) zero12 := by
  rw [Laws.finalExp_iff, Laws.pairsProduct_eq, zeroPair_product, Laws.finalExp_eq, if_pos rfl, Laws.zero12_eq]

/-- `InvalidPairing`, on that pair. -/
theorem test_pchke_fails : record (exec (.pchke 1) sZ) = some (.invalidPairing, 0, 0x76000001) := by
  show record (execPchke 1 sZ) = _
  rw [execPchke, if_pos (by decide), withPairs,
    show readPairs sZ (pairRegs (BitVec.toNat 1)) = some zeroPair by decide +kernel]
  simp only [Laws.pairingCheck_eq, zeroPair_product, ne_eq, not_true_eq_false, decide_false, Bool.false_eq_true, if_false]
  decide +kernel

theorem scenario4_finalExp : FinalExp (pairsProduct scenario4) one12 := by
  rw [Laws.finalExp_iff, Laws.pairsProduct_eq, Laws.finalExp_eq, if_neg (by decide +kernel), Laws.one12_eq]

theorem witness_PairingChecks :
    (8 < (9 : BitVec 16).toNat ∧ (8 : BitVec 16).toNat ≤ 8 ∧ (0 : BitVec 16).toNat ≤ 8) ∧
    PairsAre s0 0 [] ∧ PairsAre sE8 8 (List.replicate 8 (G, H)) ∧
    (PairsAre sE 2 scenario4 ∧ FinalExp (pairsProduct scenario4) one12) ∧
    (PairsAre sZ 1 zeroPair ∧ FinalExp (pairsProduct zeroPair) zero12 ∧ zero12 ≠ one12) ∧
    (∃ i : RegIdx, i.val < 4 ∧ (sE.P[i] = none ∨ sE.W[i] = none)) :=
  ⟨by decide, (Laws.pairsAre_iff (by decide)).2 (by decide +kernel), sE8_pairs, ⟨sE_pairs, scenario4_finalExp⟩,
    ⟨sZ_pairs, zeroPair_finalExp, by decide +kernel⟩, ⟨3, by decide, .inl rfl⟩⟩

/-- Writing a valid point keeps all points valid. -/
theorem pointsValid_P {s : State} (h : PointsValid s) {i : RegIdx} {A : G1pt} (hA : A = inf1 ∨ OnCurve1 A) :
    PointsValid (writeReg fileP s i A) := by
  refine ⟨fun j B hB => ?_, h.2⟩
  rw [show (writeReg fileP s i A).P = s.P.set i (some A) from rfl, Fin.getElem_fin, Vector.getElem_set] at hB
  split at hB
  · cases hB
    exact hA
  · exact h.1 j B hB

theorem pointsValid_W {s : State} (h : PointsValid s) {i : RegIdx} {A : G2pt} (hA : A = inf2 ∨ OnCurve2 A) :
    PointsValid (writeReg fileW s i A) := by
  refine ⟨h.1, fun j B hB => ?_⟩
  rw [show (writeReg fileW s i A).W = s.W.set i (some A) from rfl, Fin.getElem_fin, Vector.getElem_set] at hB
  split at hB
  · cases hB
    exact hA
  · exact h.2 j B hB

theorem pointsValid_s0 : PointsValid s0 := by
  constructor
  · intro i A h
    rw [show s0.P[i] = none from Vector.getElem_replicate i.isLt] at h
    cases h
  · intro i A h
    rw [show s0.W[i] = none from Vector.getElem_replicate i.isLt] at h
    cases h

/-- (G, H), (-G, H), (O, O), without the D registers. -/
def sE' : State := withRegs fileW (withRegs fileP s0 [G, ⟨n1 1, n1 (-2)⟩, O1]) [H, H, O2]

theorem pointsValid_sE' : PointsValid sE' :=
  pointsValid_W (pointsValid_W (pointsValid_W (pointsValid_P (pointsValid_P (pointsValid_P pointsValid_s0
    (.inr onCurve_points.1)) (.inr onCurve_points.2.2.2.2.2.1)) (.inl rfl)) (.inr onCurve_points.2.2.1))
    (.inr onCurve_points.2.2.1)) (.inl rfl)

theorem witness_PairingOnValidPoints :
    PointsValid sE' ∧ sE'.P[(0 : RegIdx)] = some G ∧ sE'.W[(0 : RegIdx)] = some H ∧
    (sE'.P[(2 : RegIdx)] = some inf1 ∧ sE'.W[(2 : RegIdx)] = some inf2) ∧
    ((2 : BitVec 16).toNat ≤ 8 ∧ PairsAre sE' 2 scenario4) ∧ PairsAre sE' 0 [] :=
  ⟨pointsValid_sE', rfl, rfl, ⟨rfl, rfl⟩, ⟨by decide, (Laws.pairsAre_iff (by decide)).2 (by decide +kernel)⟩,
    (Laws.pairsAre_iff (by decide)).2 (by decide +kernel)⟩

theorem witness_EncodesStoreFields :
    regOfFile fileP sP 0 = some G ∧ regOfFile fileP State.reset 0 = none ∧ 4096 < ((4033 : Addr).toNat + 64) ∧
    ((4032 : Addr).toNat + 64) ≤ 4096 ∧ regOfFile fileW sW 0 = some H ∧ regOfFile fileW State.reset 0 = none ∧
    4096 < ((3969 : Addr).toNat + 128) ∧ ((3968 : Addr).toNat + 128) ≤ 4096 ∧ regOfFile fileD sD 0 = some ⟨x6, y6⟩ ∧
    regOfFile fileD State.reset 0 = none ∧ 4096 < ((3713 : Addr).toNat + 384) ∧ ((3712 : Addr).toNat + 384) ≤ 4096 ∧
    regOfFile fileF sF 4 = some (n1 2) ∧ regOfFile fileF State.reset 0 = none ∧ 4096 < ((4065 : Addr).toNat + 32) ∧
    ((4064 : Addr).toNat + 32) ≤ 4096 ∧ Memory.wf sP.dmem = true := by decide +kernel

/-- 32-byte fields at 0x100: the last of the fields of each decode spells p. -/
def badLast (n : Nat) : Dmem := cellsAt (0x100 + 32 * n) (pHead ++ [0x47])

theorem witness_DecodesValidate :
    ((63 : BitVec 9).toNat ≠ 64 ∧ (64 : BitVec 9).toNat = 64 ∧ (127 : BitVec 9).toNat ≠ 128 ∧ (128 : BitVec 9).toNat = 128 ∧
      (383 : BitVec 9).toNat ≠ 384 ∧ (384 : BitVec 9).toNat = 384) ∧
    (4096 < ((4033 : Addr).toNat + 64) ∧ ((4032 : Addr).toNat + 64) ≤ 4096 ∧
      4096 < ((3969 : Addr).toNat + 128) ∧ ((3968 : Addr).toNat + 128) ≤ 4096 ∧
      4096 < ((3713 : Addr).toNat + 384) ∧ ((3712 : Addr).toNat + 384) ≤ 4096) ∧
    FirstBadField (badLast 1) 0x100 1 ∧ FirstBadField (badLast 3) 0x100 3 ∧ FirstBadField (badLast 11) 0x100 11 ∧
    FirstBadField (badLast 0) 0x100 0 ∧ FieldsCanonical [] 0x100 12 := by
  unfold FirstBadField FieldsCanonical
  decide +kernel

theorem witness_DecodesValidate_points :
    OnCurve1 ⟨modP (fieldAt (mem s0 (small 1 ++ small 2)).dmem 0x100), modP (fieldAt (mem s0 (small 1 ++ small 2)).dmem 0x120)⟩ ∧
    ¬ OnCurve1 ⟨modP (fieldAt (mem s0 (small 1)).dmem 0x100), modP (fieldAt (mem s0 (small 1)).dmem 0x120)⟩ ∧
    OnCurve2 ⟨field2At (mem s0 encH).dmem 0x100, field2At (mem s0 encH).dmem 0x140⟩ ∧
    ¬ OnCurve2 ⟨field2At (mem s0 (small 1)).dmem 0x100, field2At (mem s0 (small 1)).dmem 0x140⟩ := by
  unfold OnCurve1 OnCurve2
  decide +kernel

theorem witness_FieldAndIntegerLoads :
    4096 < ((4065 : Addr).toNat + 32) ∧ ((4064 : Addr).toNat + 32) ≤ 4096 ∧ primeP ≤ intAt (badLast 0) 0x100 32 ∧
    intAt (mem s0 (pHead ++ [0x46])).dmem 0x100 32 < primeP ∧ 384 < (385 : BitVec 9).toNat ∧
    (384 : BitVec 9).toNat ≤ 384 ∧ 4096 < ((3713 : Addr).toNat + (384 : BitVec 9).toNat) ∧
    ((3712 : Addr).toNat + (384 : BitVec 9).toNat) ≤ 4096 := by decide +kernel

theorem witness_CodecRoundTrips :
    (Memory.wf sP.dmem = true ∧ sP.P[(0 : RegIdx)] = some G ∧ OnCurve1 G ∧ ((4032 : Addr).toNat + 64) ≤ 4096) ∧
    (Memory.wf sW.dmem = true ∧ sW.W[(0 : RegIdx)] = some H ∧ OnCurve2 H ∧ ((3968 : Addr).toNat + 128) ≤ 4096) ∧
    (Memory.wf sD.dmem = true ∧ sD.D[(0 : RegIdx)] = some ⟨x6, y6⟩ ∧ ((3712 : Addr).toNat + 384) ≤ 4096) ∧
    (Memory.wf sF.dmem = true ∧ sF.F[(0 : RegIdx)] = some (n1 5) ∧ ((4064 : Addr).toNat + 32) ≤ 4096) :=
  ⟨⟨rfl, rfl, onCurve_points.1, by decide⟩, ⟨rfl, rfl, onCurve_points.2.2.1, by decide⟩, ⟨rfl, rfl, by decide⟩,
    ⟨rfl, rfl, by decide⟩⟩

theorem witness_CodecRoundTrips_back :
    s0.run = .run ∧ (∀ i s, exec i s = .next (after (exec i s))) ∧ Memory.wf (mem s0 (small 1 ++ small 2)).dmem = true ∧
    (after (exec (.g1Dec 7 0x100 64) (mem s0 (small 1 ++ small 2)))).run = .run ∧ Memory.wf (mem s0 encH).dmem = true ∧
    (after (exec (.g2Dec 7 0x100 128) (mem s0 encH))).run = .run ∧
    (after (exec (.gtDec 7 3712 384) s0)).run = .run ∧ (after (exec (.fLd 7 4064) s0)).run = .run :=
  ⟨rfl, exec_after, by decide +kernel⟩

theorem witness_GroupLaws : OnCurve1 G ∧ O1 = inf1 ∧ OnCurve2 N2 ∧ O2 = inf2 :=
  ⟨onCurve_points.1, rfl, onCurve_points.2.2.2.1, rfl⟩

theorem inv_states : Safety.Inv State.reset ∧ Safety.Inv s0 ∧ Safety.Inv p5End ∧ Safety.Inv (lastWord 0x12088040) := by
  refine ⟨⟨rfl, rfl, ?_⟩, ⟨rfl, rfl, ?_⟩, ⟨rfl, rfl, ?_⟩, ⟨rfl, by decide +kernel, ?_⟩⟩
  all_goals
    unfold FaultRecord
    decide +kernel

theorem witness_InvariantKeptByStep :
    Safety.Inv (lastWord 0x12088040) ∧ step (lastWord 0x12088040) =
      .next { lastWord 0x12088040 with run := .fault, cause := .illegalInstruction, epc := 1023, info := 0x12088040 } ∧
    Safety.Inv p5End ∧ step p5End = .next p5End := ⟨inv_states.2.2.2, rfl, inv_states.2.2.1, rfl⟩

theorem witness_InvariantKeptByHost :
    Safety.Inv p5End ∧ hostStep (.writeReg .ctrl 2) p5End = .next { p5End with run := .idle } ∧
    Safety.Inv State.reset ∧ hostStep (.writeReg .ctrl 1) State.reset = .next s0 ∧
    hostStep (.writeDmem 4095 1) State.reset = .next { State.reset with dmem := [(4095, 1)] } ∧
    hostStep (.reset [] []) s0 = .next State.reset := ⟨inv_states.2.2.1, rfl, inv_states.1, rfl, rfl, rfl⟩

theorem witness_PointsStayValid :
    PointsValid sE' ∧ move .core { sE' with pc := 1024 } = .next { sE' with
      pc := 1024, run := .fault, cause := .imemFetchFault, epc := 1024, info := 1024 } ∧
    move (.host (.writeReg .ctrl 4)) sE' = .next { sE' with ie := true } ∧
    move .core (sE'.withFetchWord 32 0x591C0000) =
      .next (advance (writeReg fileP (sE'.withFetchWord 32 0x591C0000) 7 G)) := ⟨pointsValid_sE', rfl, rfl, rfl⟩


end Sys2Proof.Tests
end

section
/-! Proofs of the family 10_state.md, first part: what the host's operations and a command leave of the register files, and
that stored points stay on their curves (10_state.md R44). -/

namespace Sys2Proof.Proofs

open Sys2Proof.Machine Sys2Proof.Safety Sys2Proof.Laws

/-! ### Closure of the curves (45_g1.md R213, 46_g2.md R233)

A stored point that is infinity or on its curve stands for a point of the group, so closure is closure of the group. -/

/-- Infinity or on the curve, the clause of `PointsValid` for one G1 point. -/
def Valid1 (A : G1pt) : Prop := A = inf1 ∨ OnCurve1 A

/-- Infinity or on the twist, the clause of `PointsValid` for one G2 point. -/
def Valid2 (A : G2pt) : Prop := A = inf2 ∨ OnCurve2 A

theorem valid1_infinity : Valid1 g1Infinity := .inl inf1_eq.symm

theorem valid1_generator : Valid1 g1Generator := .inr (g1OnCurve_iff.1 (by decide +kernel))

theorem valid1_neg {A : G1pt} (hA : Valid1 A) : Valid1 (g1Neg A) := by
  have := fact_prime
  obtain ⟨P, hP⟩ := rep1_exists hA
  exact rep1_valid (rep1_neg hP)

theorem valid1_dbl {A : G1pt} (hA : Valid1 A) : Valid1 (g1Dbl A) := by
  have := fact_prime
  obtain ⟨P, hP⟩ := rep1_exists hA
  exact rep1_valid (rep1_dbl hP)

theorem valid1_add {A B : G1pt} (hA : Valid1 A) (hB : Valid1 B) : Valid1 (g1Add A B) := by
  have := fact_prime
  obtain ⟨P, hP⟩ := rep1_exists hA
  obtain ⟨Q, hQ⟩ := rep1_exists hB
  exact rep1_valid (rep1_add hP hQ)

theorem valid1_smul {A : G1pt} (hA : Valid1 A) (k : Nat) : Valid1 (g1Smul A k) := by
  have := fact_prime
  obtain ⟨P, hP⟩ := rep1_exists hA
  exact rep1_valid (rep1_smul hP k)

theorem valid2_infinity : Valid2 g2Infinity := .inl inf2_eq.symm

theorem onCurve2_generator : OnCurve2 g2Generator := g2OnCurve_iff.1 (by decide +kernel)

theorem valid2_generator : Valid2 g2Generator := .inr onCurve2_generator

theorem valid2_neg {A : G2pt} (hA : Valid2 A) : Valid2 (g2Neg A) := by
  have := fact_prime
  have := fact2
  obtain ⟨P, hP⟩ := rep2_exists hA
  exact rep2_valid (rep2_neg hP)

theorem valid2_dbl {A : G2pt} (hA : Valid2 A) : Valid2 (g2Dbl A) := by
  classical
  have := fact_prime
  have := fact2
  obtain ⟨P, hP⟩ := rep2_exists hA
  exact rep2_valid (rep2_dbl hP)

theorem valid2_add {A B : G2pt} (hA : Valid2 A) (hB : Valid2 B) : Valid2 (g2Add A B) := by
  classical
  have := fact_prime
  have := fact2
  obtain ⟨P, hP⟩ := rep2_exists hA
  obtain ⟨Q, hQ⟩ := rep2_exists hB
  exact rep2_valid (rep2_add hP hQ)

theorem valid2_smul {A : G2pt} (hA : Valid2 A) (k : Nat) : Valid2 (g2Smul A k) := by
  classical
  have := fact_prime
  have := fact2
  obtain ⟨P, hP⟩ := rep2_exists hA
  exact rep2_valid (rep2_smul hP k)

/-! ### Values in a register file -/

/-- Every valid register of the file holds a value with the property. -/
def AllIn {α : Type} (V : α → Prop) (file : RegFile α) : Prop := ∀ i : RegIdx, ∀ v, file[i] = some v → V v

theorem pointsValid_iff {s : State} : PointsValid s ↔ AllIn Valid1 s.P ∧ AllIn Valid2 s.W := Iff.rfl

theorem allIn_set {α : Type} {V : α → Prop} {file : RegFile α} (h : AllIn V file) (r : RegIdx) {v : α} (hv : V v) :
    AllIn V (file.set r.val (some v) r.isLt) := by
  intro i x hx
  by_cases e : r = i
  · subst e
    rw [regFile_set_same] at hx
    cases hx
    exact hv
  · rw [regFile_set_other _ _ e] at hx
    exact h i x hx

theorem allIn_empty {α : Type} (V : α → Prop) : AllIn V (Vector.replicate Config.NREG none) := by
  intro i v h
  rw [show (Vector.replicate Config.NREG (none : Option α))[i] = none from Vector.getElem_replicate _] at h
  cases h

/-! ### What a command writes to a register file, with the value

`Laws.Effect` says which register a command writes; here the value written is pinned by a property. -/

section WritesIn

variable {α β γ : Type} {V : γ → Prop} {dst : File γ} {s : State}

/-- The answer is a raised fault, or one register of `dst` is written with a value that has the property. -/
def WritesIn (V : γ → Prop) (dst : File γ) (s : State) (r : Result) : Prop :=
  (∃ c v, r = raiseFault c v s) ∨ ∃ rd v, V v ∧ r = finishReg dst rd v s

theorem writesIn_raise (c : Cause) (v : BitVec 32) : WritesIn V dst s (raiseFault c v s) := .inl ⟨c, v, rfl⟩

theorem writesIn_finishReg {rd : RegIdx} {v : γ} (hv : V v) : WritesIn V dst s (finishReg dst rd v s) :=
  .inr ⟨rd, v, hv, rfl⟩

theorem writesIn_ite {c : Prop} [Decidable c] {k : Result} {cause : Cause} {v : BitVec 32} (hk : c → WritesIn V dst s k) :
    WritesIn V dst s (if c then k else raiseFault cause v s) := by
  split
  · exact hk ‹_›
  · exact writesIn_raise _ _

theorem writesIn_withReg {src : File α} {w : Word} {r : RegIdx} {k : α → Result}
    (hk : ∀ v, readReg src s r = some v → WritesIn V dst s (k v)) : WritesIn V dst s (withReg src w r s k) := by
  cases hr : readReg src s r with
  | some v =>
    rw [withReg_some hr]
    exact hk v hr
  | none =>
    rw [withReg_none hr]
    exact writesIn_raise _ _

theorem writesIn_op1 {src : File α} {w : Word} {rd ra : RegIdx} {f : α → γ}
    (hf : ∀ a, readReg src s ra = some a → V (f a)) : WritesIn V dst s (op1 src dst w rd ra f s) :=
  writesIn_withReg fun a ha => writesIn_finishReg (hf a ha)

theorem writesIn_op2 {srcA : File α} {srcB : File β} {w : Word} {rd ra rb : RegIdx} {f : α → β → γ}
    (hf : ∀ a b, readReg srcA s ra = some a → readReg srcB s rb = some b → V (f a b)) :
    WritesIn V dst s (op2 srcA srcB dst w rd ra rb f s) :=
  writesIn_withReg fun a ha => writesIn_withReg fun b hb => writesIn_finishReg (hf a b ha hb)

theorem writesIn_opNew {src : File α} {w : Word} {rd ra rb : RegIdx} {c : α → α → Bool} {mk : α → α → γ}
    (hc : ∀ x y, c x y = true → V (mk x y)) : WritesIn V dst s (opNew src dst w rd ra rb c mk s) :=
  writesIn_withReg fun x _ => writesIn_withReg fun y _ => writesIn_ite fun h => writesIn_finishReg (hc x y h)

theorem writesIn_withLength {len : BitVec 9} {n : Nat} {k : Result} (hk : WritesIn V dst s k) :
    WritesIn V dst s (withLength len n s k) := writesIn_ite fun _ => hk

theorem writesIn_withAccess {addr : Addr} {n : Nat} {k : Result} (hk : WritesIn V dst s k) :
    WritesIn V dst s (withAccess addr n s k) := by
  unfold withAccess
  split
  · exact writesIn_raise _ _
  · exact hk

theorem writesIn_withField {a : Nat} {k : Fp → Result} (hk : ∀ v, WritesIn V dst s (k v)) :
    WritesIn V dst s (withField a s k) := by
  unfold withField
  split
  · exact hk _
  · exact writesIn_raise _ _

theorem writesIn_withField2 {a : Nat} {k : Fp2 → Result} (hk : ∀ v, WritesIn V dst s (k v)) :
    WritesIn V dst s (withField2 a s k) := writesIn_withField fun _ => writesIn_withField fun _ => hk _

end WritesIn

/-! ### Commands that write a point register -/

theorem valid1_of_decodeTest {A : G1pt} (h : (g1IsInf A || g1OnCurve A) = true) : Valid1 A :=
  (Bool.or_eq_true_iff.1 h).imp g1IsInf_iff.1 g1OnCurve_iff.1

theorem valid2_of_decodeTest {A : G2pt} (h : (g2IsInf A || g2OnCurve A) = true) : Valid2 A :=
  (Bool.or_eq_true_iff.1 h).imp g2IsInf_iff.1 g2OnCurve_iff.1

/-- The nine commands that write a `P` register write a valid point where the stored points are valid (10_state.md R25,
R44). -/
theorem exec_writes_valid1 {i : Instr} {r : RegIdx} {s : State} (hd : destOf i = .reg .P r) (hP : AllIn Valid1 s.P) :
    WritesIn Valid1 fileP s (exec i s) := by
  cases i
  case g1New => exact writesIn_opNew fun _ _ h => .inr (g1OnCurve_iff.1 h)
  case g1Inf => exact writesIn_finishReg valid1_infinity
  case g1Gen => exact writesIn_finishReg valid1_generator
  case g1Add ra rb => exact writesIn_op2 fun _ _ hA hB => valid1_add (hP ra _ hA) (hP rb _ hB)
  case g1Dbl ra => exact writesIn_op1 fun _ hA => valid1_dbl (hP ra _ hA)
  case g1Neg ra => exact writesIn_op1 fun _ hA => valid1_neg (hP ra _ hA)
  case g1Smul ra rb => exact writesIn_op2 fun _ k hA _ => valid1_smul (hP ra _ hA) k.toNat
  case g1Mov ra => exact writesIn_op1 fun _ hA => hP ra _ hA
  case g1Dec =>
    exact writesIn_withLength <| writesIn_withAccess <| writesIn_withField fun _ => writesIn_withField fun _ =>
      writesIn_ite fun h => writesIn_finishReg (valid1_of_decodeTest h)
  all_goals cases hd

/-- The nine commands that write a `W` register write a valid point where the stored points are valid (10_state.md R26,
R44). -/
theorem exec_writes_valid2 {i : Instr} {r : RegIdx} {s : State} (hd : destOf i = .reg .W r) (hW : AllIn Valid2 s.W) :
    WritesIn Valid2 fileW s (exec i s) := by
  cases i
  case g2New => exact writesIn_opNew fun _ _ h => .inr (g2OnCurve_iff.1 h)
  case g2Inf => exact writesIn_finishReg valid2_infinity
  case g2Gen => exact writesIn_finishReg valid2_generator
  case g2Add ra rb => exact writesIn_op2 fun _ _ hA hB => valid2_add (hW ra _ hA) (hW rb _ hB)
  case g2Dbl ra => exact writesIn_op1 fun _ hA => valid2_dbl (hW ra _ hA)
  case g2Neg ra => exact writesIn_op1 fun _ hA => valid2_neg (hW ra _ hA)
  case g2Smul ra rb => exact writesIn_op2 fun _ k hA _ => valid2_smul (hW ra _ hA) k.toNat
  case g2Mov ra => exact writesIn_op1 fun _ hA => hW ra _ hA
  case g2Dec =>
    exact writesIn_withLength <| writesIn_withAccess <| writesIn_withField2 fun _ => writesIn_withField2 fun _ =>
      writesIn_ite fun h => writesIn_finishReg (valid2_of_decodeTest h)
  all_goals cases hd

/-! ### The invariant -/

theorem pointsValid_writesIn_P {s t : State} (hs : PointsValid s) (h : WritesIn Valid1 fileP s (.next t)) :
    PointsValid t := by
  rcases h with ⟨c, v, e⟩ | ⟨rd, v, hv, e⟩
  · cases e
    exact hs
  · cases e
    exact ⟨allIn_set hs.1 rd hv, hs.2⟩

theorem pointsValid_writesIn_W {s t : State} (hs : PointsValid s) (h : WritesIn Valid2 fileW s (.next t)) :
    PointsValid t := by
  rcases h with ⟨c, v, e⟩ | ⟨rd, v, hv, e⟩
  · cases e
    exact hs
  · cases e
    exact ⟨hs.1, allIn_set hs.2 rd hv⟩

/-- Only a command with a point register for its destination can make an invalid point, and those do not. -/
theorem exec_pointsValid {i : Instr} {s t : State} (hs : PointsValid s) (h : exec i s = .next t) : PointsValid t := by
  cases exec_effect h with
  | reg f fl r v hf hd =>
    cases hf with
    | F | Q | S | D | K => exact hs
    | P => exact pointsValid_writesIn_P hs (h ▸ exec_writes_valid1 hd hs.1)
    | W => exact pointsValid_writesIn_W hs (h ▸ exec_writes_valid2 hd hs.2)
  | fault | flag | store | nop | jump | halt => exact hs

theorem step_pointsValid {s t : State} (hs : PointsValid s) (h : step s = .next t) : PointsValid t := by
  rcases step_cases h with ⟨-, rfl⟩ | ⟨-, -, rfl⟩ | ⟨-, -, -, rfl⟩ | ⟨-, -, i, -, hi⟩
  · exact hs
  · exact hs
  · exact hs
  · exact exec_pointsValid hs hi

theorem pointsValid_resetWith (m : Imem) (d : Dmem) : PointsValid (State.resetWith m d) :=
  ⟨allIn_empty Valid1, allIn_empty Valid2⟩

theorem writeCtrl_files (v : BitVec 32) (s : State) (f : FileName) : fileSame f s (writeCtrl v s) := by
  rcases writeCtrl_cases v s with ⟨e, -⟩ | ⟨e, -⟩ | ⟨e, -⟩ <;> rw [e] <;> cases f <;> rfl

/-- A host operation is a reset, or leaves the seven register files as they are (60_exceptions.md R295). -/
theorem hostStep_files {op : HostOp} {s t : State} (h : hostStep op s = .next t) :
    (∃ im dm, op = .reset im dm ∧ ∃ m d, t = State.resetWith m d) ∨ ∀ f, fileSame f s t := by
  rcases hostStep_cases h with rfl | ⟨_, _, -, -, -, rfl⟩ | ⟨_, _, -, -, -, rfl⟩ | ⟨_, -, -, rfl⟩ | ⟨v, -, rfl⟩ |
    ⟨im, dm, rfl, rfl⟩
  · exact .inr fun f => by cases f <;> rfl
  · exact .inr fun f => by cases f <;> rfl
  · exact .inr fun f => by cases f <;> rfl
  · exact .inr fun f => by cases f <;> rfl
  · exact .inr (writeCtrl_files v s)
  · exact .inl ⟨im, dm, rfl, _, _, rfl⟩

theorem hostStep_pointsValid {op : HostOp} {s t : State} (hs : PointsValid s) (h : hostStep op s = .next t) :
    PointsValid t := by
  rcases hostStep_files h with ⟨_, _, -, m, d, rfl⟩ | hf
  · exact pointsValid_resetWith m d
  · have hP : t.P = s.P := hf .P
    have hW : t.W = s.W := hf .W
    rw [pointsValid_iff, hP, hW]
    exact hs

/-- Settles O59: a step keeps stored points valid by the closure of the two groups and the tests of the commands that make
points; a host operation leaves the registers or resets them. -/
theorem pointsStayValid : Obligations.PointsStayValid := by
  intro m s t hs h
  cases m with
  | core => exact step_pointsValid hs h
  | host op => exact hostStep_pointsValid hs h

end Sys2Proof.Proofs
end

section
/-! Proofs of the family 10_state.md, second part: the frame of the commands, the valid bits, the run state, the control
register, reset and the host's views. Each is read off the effects of a command (`Laws.exec_effect`), the cases of a step
(`Laws.step_cases`) and those of a host operation (`Laws.hostStep_cases`). -/

namespace Sys2Proof.Proofs

open Sys2Proof.Machine Sys2Proof.Safety Sys2Proof.Laws

/-! ### A register write: its frame, for any of the seven files -/

section WriteReg

variable {α : Type} {f : FileName} {fl : File α} (hf : Named f fl) (s : State) (r : RegIdx) (v : α)

include hf

theorem writeReg_pc : (writeReg fl s r v).pc = s.pc := by cases hf <;> rfl
theorem writeReg_T : (writeReg fl s r v).T = s.T := by cases hf <;> rfl
theorem writeReg_run : (writeReg fl s r v).run = s.run := by cases hf <;> rfl
theorem writeReg_cause : (writeReg fl s r v).cause = s.cause := by cases hf <;> rfl
theorem writeReg_epc : (writeReg fl s r v).epc = s.epc := by cases hf <;> rfl
theorem writeReg_info : (writeReg fl s r v).info = s.info := by cases hf <;> rfl
theorem writeReg_entry : (writeReg fl s r v).entry = s.entry := by cases hf <;> rfl
theorem writeReg_ie : (writeReg fl s r v).ie = s.ie := by cases hf <;> rfl
theorem writeReg_imem : (writeReg fl s r v).imem = s.imem := by cases hf <;> rfl
theorem writeReg_dmem : (writeReg fl s r v).dmem = s.dmem := by cases hf <;> rfl

theorem advance_writeReg_fileSameBut : fileSameBut f r s (advance (writeReg fl s r v)) := by
  cases hf <;> exact ⟨v, rfl⟩

theorem advance_writeReg_fileSame {f' : FileName} (h : f' ≠ f) : fileSame f' s (advance (writeReg fl s r v)) := by
  cases hf <;> cases f'
  case F.F | Q.Q | S.S | D.D | P.P | W.W | K.K => exact absurd rfl h
  all_goals rfl

end WriteReg

/-! ### The frame of a command (40_control.md R100) -/

theorem isControl_iff {i : Instr} : isControl i = true ↔ destOf i = .none := beq_iff_eq

theorem ne_halt_of_destOf {i : Instr} {d : Dest} (hd : destOf i = d) (h : d ≠ .none) : i ≠ .halt := by
  rintro rfl
  exact h hd.symm

section Effects

variable {i : Instr} {s t : State}

/-- A file is unchanged, or it is the destination's and only the destination register changed. -/
theorem effect_file (he : Effect i s t) (f : FileName) :
    fileSame f s t ∨ ∃ r, destOf i = .reg f r ∧ fileSameBut f r s t := by
  cases he with
  | reg f' fl r v hf hd =>
    by_cases e : f = f'
    · subst e
      exact .inr ⟨r, hd, advance_writeReg_fileSameBut hf s r v⟩
    · exact .inl (advance_writeReg_fileSame hf s r v e)
  | fault | flag | store | nop | jump | halt => left; cases f <;> rfl

theorem effect_fileSame (he : Effect i s t) {f : FileName} (h : ∀ r, destOf i ≠ .reg f r) : fileSame f s t :=
  (effect_file he f).resolve_right fun ⟨r, hd, _⟩ => h r hd

/-- A command that does not fault has written its destination register. -/
theorem effect_fileSameBut (he : Effect i s t) (ht : t.run ≠ .fault) {f : FileName} {r : RegIdx}
    (hd : destOf i = .reg f r) : fileSameBut f r s t := by
  cases he with
  | fault => exact absurd rfl ht
  | reg f' fl r' v hf hd' =>
    cases hd.symm.trans hd'
    exact advance_writeReg_fileSameBut hf s r v
  | flag _ hd' | store _ _ hd' | jump _ hd' => cases hd.symm.trans hd'
  | nop hi | halt hi => subst hi; cases hd

theorem effect_T (he : Effect i s t) (h : destOf i ≠ .flag) : t.T = s.T := by
  cases he with
  | reg f fl r v hf => exact writeReg_T hf s r v
  | flag b hd => exact absurd hd h
  | fault | store | nop | jump | halt => rfl

/-- Bytes outside the destination read as before. -/
theorem effect_readByte (he : Effect i s t) (hm : Memory.wf s.dmem = true) {a : Nat}
    (ha : ∀ addr n, destOf i = .mem addr n → a < addr.toNat ∨ addr.toNat + n ≤ a) :
    readByte t.dmem a = readByte s.dmem a := by
  cases he with
  | reg f fl r v hf => rw [advance_dmem, writeReg_dmem hf]
  | store addr bs hd hb =>
    have := ha addr _ hd
    rw [advance_dmem, readByte_writeBytes hm bs hb, dif_neg (by omega)]
  | fault | flag | nop | jump | halt => rfl

/-- No command writes what belongs to the host. -/
theorem effect_hostFields (he : Effect i s t) : t.imem = s.imem ∧ t.entry = s.entry ∧ t.ie = s.ie := by
  cases he with
  | reg f fl r v hf => exact ⟨writeReg_imem hf s r v, writeReg_entry hf s r v, writeReg_ie hf s r v⟩
  | fault | flag | store | nop | jump | halt => exact ⟨rfl, rfl, rfl⟩

/-- Only a fault writes the fault record (60_exceptions.md R290). -/
theorem effect_faultRecord (he : Effect i s t) (ht : t.run ≠ .fault) :
    t.cause = s.cause ∧ t.epc = s.epc ∧ t.info = s.info := by
  cases he with
  | fault => exact absurd rfl ht
  | reg f fl r v hf => exact ⟨writeReg_cause hf s r v, writeReg_epc hf s r v, writeReg_info hf s r v⟩
  | flag | store | nop | jump | halt => exact ⟨rfl, rfl, rfl⟩

/-- Only `HALT` and a fault change the run state (10_state.md R31). -/
theorem effect_run (he : Effect i s t) :
    (i ≠ .halt ∧ t.run = s.run) ∨ (i = .halt ∧ t.run = .halt) ∨ (t.run = .fault ∧ t.cause ≠ .noFault) := by
  cases he with
  | fault c v hc => exact .inr (.inr ⟨rfl, hc.1⟩)
  | halt hi => exact .inr (.inl ⟨hi, rfl⟩)
  | reg f fl r v hf hd => exact .inl ⟨ne_halt_of_destOf hd nofun, writeReg_run hf s r v⟩
  | flag b hd => exact .inl ⟨ne_halt_of_destOf hd nofun, rfl⟩
  | store addr bs hd => exact .inl ⟨ne_halt_of_destOf hd nofun, rfl⟩
  | nop hi => exact .inl ⟨hi ▸ nofun, rfl⟩
  | jump target hd h1 => exact .inl ⟨h1, rfl⟩

/-- A command that completes and is no branch and no `HALT` goes on to the next word (10_state.md R29). -/
theorem effect_pc (he : Effect i s t) (ht : t.run ≠ .fault) (h : isControl i = false ∨ i = .nop) : t.pc = s.pc + 1 := by
  cases he with
  | fault => exact absurd rfl ht
  | reg f fl r v hf => rw [advance_pc, writeReg_pc hf]
  | flag | store | nop => rfl
  | jump target hd h1 h2 =>
    rw [isControl_iff.2 hd] at h
    simp [h2] at h
  | halt hi =>
    subst hi
    simp [isControl, destOf] at h

end Effects

/-- Settles O13: each clause is the frame of the effects a command can have. -/
theorem completingCommandsWriteOnlyTheirDestination : Obligations.CompletingCommandsWriteOnlyTheirDestination := by
  intro i s t hs hm h ht
  have he := exec_effect h
  obtain ⟨himem, hentry, hie⟩ := effect_hostFields he
  obtain ⟨hcause, hepc, hinfo⟩ := effect_faultRecord he ht
  refine ⟨fun f => effect_fileSame he, fun f r => effect_fileSameBut he ht, effect_T he, fun a => effect_readByte he hm,
    himem, hentry, hie, hcause, hepc, hinfo, ?_, effect_pc he ht⟩
  rcases effect_run he with ⟨hi, hr⟩ | ⟨hi, hr⟩ | ⟨hr, -⟩
  · rw [if_neg hi, hr, hs]
  · rw [if_pos hi, hr]
  · exact absurd hr ht

/-! ### Valid bits (10_state.md R27) -/

theorem validBit_of_fileSame {f : FileName} {s t : State} (h : fileSame f s t) (r : RegIdx) :
    validBit t (f, r) = validBit s (f, r) := by
  cases f <;> exact congrArg (fun file => (file[r]).isSome) h

theorem validBit_of_fileSameBut {f : FileName} {r : RegIdx} {s t : State} (h : fileSameBut f r s t) {j : RegIdx}
    (hj : validBit s (f, j) = true) : validBit t (f, j) = true := by
  cases f <;>
  · obtain ⟨v, e⟩ := h
    simp only [validBit, e]
    exact regFile_set_valid _ r j v hj

theorem validBit_resetWith (m : Imem) (d : Dmem) (x : FileName × RegIdx) : validBit (State.resetWith m d) x = false := by
  obtain ⟨f, r⟩ := x
  cases f <;> simp [validBit]

theorem step_validBit {s t : State} (h : step s = .next t) {x : FileName × RegIdx} (hx : validBit s x = true) :
    validBit t x = true := by
  rcases step_cases h with ⟨-, rfl⟩ | ⟨-, -, rfl⟩ | ⟨-, -, -, rfl⟩ | ⟨-, -, i, -, hi⟩
  · exact hx
  · exact hx
  · exact hx
  · obtain ⟨f, j⟩ := x
    rcases effect_file (exec_effect hi) f with hsame | ⟨r, -, hbut⟩
    · rw [validBit_of_fileSame hsame]
      exact hx
    · exact validBit_of_fileSameBut hbut hx

/-- Settles O14: a step keeps valid bits, a host operation leaves the registers or is the reset that empties them. -/
theorem validBitsAreNeverCleared : Obligations.ValidBitsAreNeverCleared := by
  rintro m s t ⟨f, j⟩ h
  refine ⟨fun hm hx => ?_, ?_⟩
  · cases m with
    | core => exact step_validBit h hx
    | host op =>
      rcases hostStep_files h with ⟨im, dm, rfl, -⟩ | hfiles
      · exact absurd rfl (hm im dm)
      · rw [validBit_of_fileSame (hfiles f)]
        exact hx
  · rintro ⟨im, dm, rfl⟩
    cases h
    exact validBit_resetWith _ _ _

/-! ### The run state (10_state.md R31) -/

/-- The transitions a step of the core makes. -/
theorem step_run {s t : State} (h : step s = .next t) :
    t.run = s.run ∨ (s.run = .run ∧ t.run = .halt ∧ decode (readWord s.imem s.pc.toNat) = .ok .halt) ∨
    (s.run = .run ∧ t.run = .fault ∧ t.cause ≠ .noFault) := by
  rcases step_cases h with ⟨-, rfl⟩ | ⟨hs, -, rfl⟩ | ⟨hs, -, -, rfl⟩ | ⟨hs, -, i, hdec, hi⟩
  · exact .inl rfl
  · exact .inr (.inr ⟨hs, rfl, by simp⟩)
  · exact .inr (.inr ⟨hs, rfl, by simp⟩)
  · rcases effect_run (exec_effect hi) with ⟨-, hr⟩ | ⟨rfl, hr⟩ | ⟨hr, hc⟩
    · exact .inl hr
    · exact .inr (.inl ⟨hs, hr, hdec⟩)
    · exact .inr (.inr ⟨hs, hr, hc⟩)

/-- The transitions a host operation other than a reset makes. -/
theorem hostStep_run {op : HostOp} {s t : State} (h : hostStep op s = .next t) (hop : ∀ im dm, op ≠ .reset im dm) :
    t.run = s.run ∨
    ((s.run = .idle ∨ s.run = .halt) ∧ t.run = .run ∧
      ∃ v : BitVec 32, op = .writeReg .ctrl v ∧ v.getLsbD 0 = true ∧ v.getLsbD 1 = false) ∨
    ((s.run = .halt ∨ s.run = .fault) ∧ t.run = .idle ∧
      ∃ v : BitVec 32, op = .writeReg .ctrl v ∧ v.getLsbD 1 = true) := by
  rcases hostStep_cases h with rfl | ⟨_, _, -, -, -, rfl⟩ | ⟨_, _, -, -, -, rfl⟩ | ⟨_, -, -, rfl⟩ | ⟨v, hv, rfl⟩ |
    ⟨im, dm, hr, -⟩
  · exact .inl rfl
  · exact .inl rfl
  · exact .inl rfl
  · exact .inl rfl
  · rcases writeCtrl_cases v s with ⟨e, -⟩ | ⟨e, hclr, hs⟩ | ⟨e, hclr, hgo, hs⟩
    · exact .inl (by rw [e])
    · exact .inr (.inr ⟨hs, by rw [e, acknowledge_run], v, hv, hclr⟩)
    · exact .inr (.inl ⟨hs, by rw [e, launch_run], v, hv, hgo, hclr⟩)
  · exact absurd hr (hop im dm)

/-- Settles O15: the transitions of the core and those of the host, put together. -/
theorem runStateTransitions : Obligations.RunStateTransitions := by
  refine ⟨⟨rfl, rfl, rfl, rfl⟩, fun im dm s t h => ?_, fun m s t h hm => ?_⟩
  · cases h
    rfl
  · cases m with
    | core =>
      rcases step_run h with hr | ⟨hs, ht, hd⟩ | ⟨hs, ht, hc⟩
      · exact .inl hr
      · exact .inr (.inr (.inl ⟨hs, ht, rfl, hd⟩))
      · exact .inr (.inr (.inr (.inl ⟨hs, ht, rfl, hc⟩)))
    | host op =>
      have hop : ∀ im dm, op ≠ .reset im dm := fun im dm e => hm im dm (congrArg Move.host e)
      rcases hostStep_run h hop with hr | ⟨hs, ht, v, rfl, hgo, hclr⟩ | ⟨hs, ht, v, rfl, hclr⟩
      · exact .inl hr
      · exact .inr (.inl ⟨hs, ht, v, rfl, hgo, hclr⟩)
      · exact .inr (.inr (.inr (.inr ⟨hs, ht, v, rfl, hclr⟩)))

/-! ### The host's views (10_state.md R33 to R38)

A view is a field of the state in the low bits of a word whose other bits are 0. -/

theorem zero_append_toNat {m n : Nat} (x : BitVec n) : ((0 : BitVec m) ++ x).toNat = x.toNat := by
  rw [append_toNat]
  simp

theorem statusView_toNat (s : State) : (statusView s).toNat = (runCode s.run).toNat + 4 * s.T.toNat := by
  rw [statusView, append_toNat, zero_append_toNat, BitVec.toNat_ofBool]
  omega

theorem ctrlView_toNat (s : State) : (ctrlView s).toNat = 4 * s.ie.toNat := by
  rw [ctrlView, append_toNat, zero_append_toNat, BitVec.toNat_ofBool]
  exact Nat.mul_comm _ 4

theorem causeCode_le (c : Cause) : (causeCode c).toNat ≤ 7 := by cases c <;> decide

/-- Settles O18: the views as numbers, and reads and ignored writes by the arms of the host port. -/
theorem hostRegisterViews : Obligations.HostRegisterViews := by
  intro s
  refine ⟨statusView_toNat s, zero_append_toNat _, causeCode_le s.cause, zero_append_toNat _, rfl, zero_append_toNat _,
    ctrlView_toNat s, fun r => rfl, fun r hr => ?_, fun r v hr => ?_⟩
  · cases r
    case entry => exact absurd rfl hr
    all_goals rfl
  · rcases hr with rfl | rfl | rfl | rfl <;> rfl

/-! ### A write of `CTRL` (10_state.md R38) -/

theorem writeCtrl_ie (v : BitVec 32) (s : State) : (writeCtrl v s).ie = v.getLsbD 2 := by
  rcases writeCtrl_cases v s with ⟨e, -⟩ | ⟨e, -⟩ | ⟨e, -⟩ <;> rw [e] <;> rfl

/-- With CLR set. -/
theorem writeCtrl_clr {v : BitVec 32} {s : State} (h : v.getLsbD 1 = true) :
    writeCtrl v s = { s with ie := v.getLsbD 2, run := if s.run = .run then .run else .idle } := by
  rw [writeCtrl, if_pos h, writeClr]
  cases s.run <;> simp [acknowledge]

/-- With GO and without CLR, where GO is accepted. -/
theorem writeCtrl_go {v : BitVec 32} {s : State} (h1 : v.getLsbD 1 = false) (h0 : v.getLsbD 0 = true)
    (hs : s.run = .idle ∨ s.run = .halt) : writeCtrl v s = launch { s with ie := v.getLsbD 2 } := by
  rw [writeCtrl, if_neg (ne_true_of_eq_false h1), if_pos h0, writeGo]
  rcases hs with hs | hs <;> simp [hs]

/-- With GO and without CLR, where GO is ignored. -/
theorem writeCtrl_go_ignored {v : BitVec 32} {s : State} (h1 : v.getLsbD 1 = false) (h0 : v.getLsbD 0 = true)
    (hs : s.run = .run ∨ s.run = .fault) : writeCtrl v s = { s with ie := v.getLsbD 2 } := by
  rw [writeCtrl, if_neg (ne_true_of_eq_false h1), if_pos h0, writeGo]
  rcases hs with hs | hs <;> simp [hs]

/-- With neither GO nor CLR. -/
theorem writeCtrl_none {v : BitVec 32} {s : State} (h1 : v.getLsbD 1 = false) (h0 : v.getLsbD 0 = false) :
    writeCtrl v s = { s with ie := v.getLsbD 2 } := by
  rw [writeCtrl, if_neg (ne_true_of_eq_false h1), if_neg (ne_true_of_eq_false h0)]

/-- Settles O19: one equation for each of the four combinations of CLR, GO and the run state. -/
theorem ctrlWrite : Obligations.CtrlWrite := by
  intro s v
  refine ⟨writeCtrl v s, rfl, writeCtrl_ie v s, ?_, writeCtrl_clr, writeCtrl_go, writeCtrl_go_ignored, writeCtrl_none⟩
  rw [← writeCtrl_ie v s]
  exact ctrlView_toNat _

/-! ### Reset (70_reset_and_hazards.md R311) and the constants (00_scope.md R5) -/

theorem hostRegRead_resetWith (r : HostReg) (m : Imem) (d : Dmem) : hostRegRead r (State.resetWith m d) = 0 := by
  have hfree : hostRegRead r (State.resetWith m d) = hostRegRead r State.reset := by cases r <;> rfl
  rw [hfree]
  cases r <;> decide

theorem readWord_resetContents {im : List (Nat × Word)} {i : Nat} {w : Word} (hi : i < 1024) (h : im.lookup i = some w) :
    readWord (cellsOfList Config.imemFill Config.IMEM_WORDS im) i = w := by
  rw [readWord, cellsRead_cellsOfList im hi, h]

theorem readByte_resetContents {dm : List (Nat × Byte)} {a : Nat} {b : Byte} (ha : a < 4096) (h : dm.lookup a = some b) :
    readByte (cellsOfList Config.dmemFill Config.DMEM_BYTES dm) a = b := by
  rw [readByte, cellsRead_cellsOfList dm ha, h]

/-- A pair of numerals is the Fp2 value of their residues. -/
theorem fp2OfNat_eq_modP (a b : Nat) : fp2OfNat a b = ⟨modP a, modP b⟩ := by
  rw [fp2OfNat, modP_natCast, modP_natCast]

/-- B2 · (9 + u) = 3. -/
theorem coeffB2_mul_xi2 : mul2 coeffB2 xi2 = scale2 3 one2 := by
  rw [← to2_eq, to2_mul2, to2_scale_three, to2_one2, mul_one, to2_xi2, ← to2_xi, ← to2_mul, coeffB2_eq, to2_three]

theorem hardExp_mul_orderR : hardExp * orderR = primeP ^ 12 - 1 := Nat.div_mul_cancel (by decide +kernel)

/-- Settles O17: the fields by the reset state, the memories by the contents brought along, the constants by their
numerals. -/
theorem resetLeaves : Obligations.ResetLeaves := by
  intro s im dm
  refine ⟨_, rfl, rfl, rfl, rfl, fun r => hostRegRead_resetWith r _ _, rfl, rfl, validBit_resetWith _ _,
    fun i w hi h => readWord_resetContents hi h, fun a b ha h => readByte_resetContents ha h,
    by decide, by decide, rfl, by decide, (modP_natCast 3).symm, fp2OfNat_eq_modP 9 1, fp2OfNat_eq_modP _ _,
    coeffB2_mul_xi2, ?_, ?_, onCurve2_generator, hardExp_mul_orderR⟩
  · rw [g1Generator, ← modP_natCast, ← modP_natCast]
    rfl
  · rw [g2Generator, fp2OfNat_eq_modP, fp2OfNat_eq_modP]
    rfl

end Sys2Proof.Proofs
end

section
/-! Proofs of the family 20_memory.md: who may touch what (R69). The core touches nothing while it does not run; the host
is kept out of IMEM, DMEM and ENTRY while the core runs, and out of what is no memory in every state. Each guard of the host
port gets one equation per outcome. -/

namespace Sys2Proof.Proofs

open Sys2Proof.Machine

/-- A core that does not run leaves the state as it is (log 4). -/
theorem step_of_stopped {s : State} (h : s.run ≠ .run) : step s = .next s := by
  unfold step
  split
  case h_1 hr => exact absurd hr h
  all_goals rfl

/-- Settles O9: by the run state; outside RUN every arm of the step is the one that does nothing. -/
theorem stoppedCoreTouchesNothing : Obligations.StoppedCoreTouchesNothing := fun _ h => step_of_stopped h

/-! ### The guards of the host port -/

/-- In RUN the guard refuses, whatever it guards (log 6). -/
theorem withStopped_of_run {s : State} (h : s.run = .run) (k : Result) : withStopped s k = .refused .hostExclusion := by
  rw [withStopped, h]

theorem withImemIndex_of_lt {i : Nat} (h : i < 1024) (k : Result) : withImemIndex i k = k := if_pos h

theorem withImemIndex_of_ge {i : Nat} (h : 1024 ≤ i) (k : Result) : withImemIndex i k = .fault (.hostNoSuchWord i) :=
  if_neg (Nat.not_lt_of_le h)

theorem withDmemAddress_of_lt {a : Nat} (h : a < 4096) (k : Result) : withDmemAddress a k = k := if_pos h

theorem withDmemAddress_of_ge {a : Nat} (h : 4096 ≤ a) (k : Result) : withDmemAddress a k = .fault (.hostNoSuchByte a) :=
  if_neg (Nat.not_lt_of_le h)

/-- An IMEM access inside the bounds reaches the guard on the run state, which refuses it in RUN. -/
theorem imemAccess_of_run {s : State} (hr : s.run = .run) {i : Nat} (hi : i < 1024) (k : Result) :
    withImemIndex i (withStopped s k) = .refused .hostExclusion :=
  (withImemIndex_of_lt hi _).trans (withStopped_of_run hr k)

/-- A DMEM access inside the bounds reaches the guard on the run state, which refuses it in RUN. -/
theorem dmemAccess_of_run {s : State} (hr : s.run = .run) {a : Nat} (ha : a < 4096) (k : Result) :
    withDmemAddress a (withStopped s k) = .refused .hostExclusion :=
  (withDmemAddress_of_lt ha _).trans (withStopped_of_run hr k)

/-- Settles O22: in RUN by the guard on the run state, behind the bounds where the access is to a memory; outside the bounds
by the guard on the index, which is asked first. -/
theorem hostExclusion : Obligations.HostExclusion := by
  refine ⟨fun s hr => ⟨fun i w hi => ?_, fun a b ha => ?_, fun v => ?_, ?_⟩,
    fun s => ⟨fun i w hi => ?_, fun a b ha => ?_⟩⟩
  · exact ⟨imemAccess_of_run hr hi _, imemAccess_of_run hr hi _⟩
  · exact ⟨dmemAccess_of_run hr ha _, dmemAccess_of_run hr ha _⟩
  · exact withStopped_of_run hr _
  · exact withStopped_of_run hr _
  · exact ⟨withImemIndex_of_ge hi _, withImemIndex_of_ge hi _⟩
  · exact ⟨withDmemAddress_of_ge ha _, withDmemAddress_of_ge ha _⟩

end Sys2Proof.Proofs
end

section
/-! Proofs of the family 30_encoding.md: the decoder, the encoder and the printed opcode table are one map. `Spells` says
which word stands for which command by the layout of a row, and the decoder accepts exactly what a row spells
(`decode_ok_iff`). The encoder agrees with that from both sides: row by row (`opcodeTable_rowSound`) and command by command
(`exists_row_spells`). The printed table of R87 is computed from the decoder's rows (`tableRows_eq`), and by its layout a row
reads a word exactly when mask and extra condition hold (`rowMatches_printedRow`). -/

namespace Sys2Proof.Proofs

open Sys2Proof.Machine Sys2Proof.Safety

/-! ### Words and commands by a layout (R81 to R86) -/

/-- By a layout under the opcode byte `op`, the word stands for the command. -/
inductive Spells (op : BitVec 8) : Layout → Word → Instr → Prop
  | none {i} : Spells op (.none i) (wordR op 0 0 0 0) i
  | rd {mk d} : Spells op (.rd mk) (wordR op (idx6 d) 0 0 0) (mk d)
  | ra {mk a} : Spells op (.ra mk) (wordR op 0 (idx6 a) 0 0) (mk a)
  | rdRa {mk d a} : Spells op (.rdRa mk) (wordR op (idx6 d) (idx6 a) 0 0) (mk d a)
  | raRb {mk a b} : Spells op (.raRb mk) (wordR op 0 (idx6 a) (idx6 b) 0) (mk a b)
  | rdRaRb {mk d a b} : Spells op (.rdRaRb mk) (wordR op (idx6 d) (idx6 a) (idx6 b) 0) (mk d a b)
  | rdRaRbRc {mk d a b c} :
    Spells op (.rdRaRbRc mk) (wordR op (idx6 d) (idx6 a) (idx6 b) (idx6 c)) (mk d a b c)
  | rdRaSel {n mk d a} {sel : BitVec 6} (h : sel.toNat < n) :
    Spells op (.rdRaSel n mk) (wordR op (idx6 d) (idx6 a) sel 0) (mk d a sel)
  | target {mk t} : Spells op (.target mk) (wordI op 0 t) (mk t)
  | rdImm {mk d v} : Spells op (.rdImm mk) (wordI op (idx6 d) v) (mk d v)
  | count {mk} {n : BitVec 16} (h : n.toNat ≤ Config.NPAIR_MAX) : Spells op (.count mk) (wordI op 0 n) (mk n)
  | mem {mk r a} : Spells op (.mem mk) (wordM op (idx3 r) a 0) (mk r a)
  | memLen {most mk r a} {len : BitVec 9} (h : len.toNat ≤ most) :
    Spells op (.memLen most mk) (wordM op (idx3 r) a len) (mk r a len)

theorem Spells.opField_eq {op : BitVec 8} {l : Layout} {w : Word} {i : Instr} (h : Spells op l w i) : opField w = op := by
  cases h <;> simp

theorem Spells.readLayout_ok {op : BitVec 8} {l : Layout} {w : Word} {i : Instr} (h : Spells op l w i) :
    readLayout w l = .ok i := by
  cases h <;> simp [readLayout, *]

theorem Spells.of_word_eq {op : BitVec 8} {l : Layout} {w w' : Word} {i : Instr} (hw : w = w') (h : Spells op l w' i) :
    Spells op l w i := hw ▸ h

theorem spells_of_readLayout_ok {l : Layout} {w : Word} {i : Instr} (h : readLayout w l = .ok i) :
    Spells (opField w) l w i := by
  cases l with
  | none c =>
    obtain ⟨rfl, hw⟩ := readLayout_none_ok h
    exact .of_word_eq hw .none
  | rd mk =>
    obtain ⟨d, rfl, hw⟩ := readLayout_rd_ok h
    exact .of_word_eq hw .rd
  | ra mk =>
    obtain ⟨a, rfl, hw⟩ := readLayout_ra_ok h
    exact .of_word_eq hw .ra
  | rdRa mk =>
    obtain ⟨d, a, rfl, hw⟩ := readLayout_rdRa_ok h
    exact .of_word_eq hw .rdRa
  | raRb mk =>
    obtain ⟨a, b, rfl, hw⟩ := readLayout_raRb_ok h
    exact .of_word_eq hw .raRb
  | rdRaRb mk =>
    obtain ⟨d, a, b, rfl, hw⟩ := readLayout_rdRaRb_ok h
    exact .of_word_eq hw .rdRaRb
  | rdRaRbRc mk =>
    obtain ⟨d, a, b, c, rfl, hw⟩ := readLayout_rdRaRbRc_ok h
    exact .of_word_eq hw .rdRaRbRc
  | rdRaSel n mk =>
    obtain ⟨d, a, sel, hsel, rfl, hw⟩ := readLayout_rdRaSel_ok h
    exact .of_word_eq hw (.rdRaSel hsel)
  | target mk =>
    obtain ⟨t, rfl, hw⟩ := readLayout_target_ok h
    exact .of_word_eq hw .target
  | rdImm mk =>
    obtain ⟨d, v, rfl, hw⟩ := readLayout_rdImm_ok h
    exact .of_word_eq hw .rdImm
  | count mk =>
    obtain ⟨n, hn, rfl, hw⟩ := readLayout_count_ok h
    exact .of_word_eq hw (.count hn)
  | mem mk =>
    obtain ⟨r, a, rfl, hw⟩ := readLayout_mem_ok h
    exact .of_word_eq hw .mem
  | memLen most mk =>
    obtain ⟨r, a, len, hlen, rfl, hw⟩ := readLayout_memLen_ok h
    exact .of_word_eq hw (.memLen hlen)

/-! ### The rows of the decoder -/

theorem findRow_of_mem {op : BitVec 8} {l : Layout} {rows : List (BitVec 8 × Layout)} (hd : (rows.map Prod.fst).Nodup)
    (h : (op, l) ∈ rows) : findRow op rows = some l := by
  induction rows with
  | nil => cases h
  | cons row rows ih =>
    obtain ⟨hnot, hd⟩ := List.nodup_cons.1 hd
    rcases List.mem_cons.1 h with rfl | h
    · simp [findRow]
    · have hne : row.1 ≠ op := fun e => hnot (e ▸ List.mem_map_of_mem h)
      rw [findRow, if_neg hne]
      exact ih hd h

theorem opcodes_nodup : (opcodeTable.map Prod.fst).Nodup := by decide

/-- The decoder accepts a word as a command exactly when a row spells it so. -/
theorem decode_ok_iff {w : Word} {i : Instr} :
    decode w = .ok i ↔ ∃ op l, (op, l) ∈ opcodeTable ∧ Spells op l w i := by
  constructor
  · intro h
    obtain ⟨l, hl, h⟩ := decode_ok h
    exact ⟨_, l, hl, spells_of_readLayout_ok h⟩
  · rintro ⟨op, l, hl, h⟩
    rw [decode_of_row (findRow_of_mem opcodes_nodup hl) h.opField_eq, h.readLayout_ok]

/-! ### The encoder agrees with every row, and has a row for every command -/

theorem exists_row_spells {i : Instr} (h : WellFormed i) :
    ∃ op l, findRow op opcodeTable = some l ∧ Spells op l (encode i) i := by
  cases i
  case nop | halt => exact ⟨_, _, rfl, .none⟩
  case jmp | bt | bf => exact ⟨_, _, rfl, .target⟩
  case kLi | fLi => exact ⟨_, _, rfl, .rdImm⟩
  case dOne | g1Inf | g1Gen | g2Inf | g2Gen => exact ⟨_, _, rfl, .rd⟩
  case fIsZ | qIsZ | sIsZ | dIsZ | dIsOne | g1IsInf | g2IsInf => exact ⟨_, _, rfl, .ra⟩
  case fEq | qEq | sEq | dEq | g1Eq | g2Eq => exact ⟨_, _, rfl, .raRb⟩
  case kMov | fSqr | fNeg | fInv | fMov | qSqr | qNeg | qInv | qMov | qMnr | sSqr | sNeg | sInv | sMov | sMulV | dSqr | dNeg
    | dInv | dMov | dConj | g1Dbl | g1Neg | g1Mov | g1GetX | g1GetY | g2Dbl | g2Neg | g2Mov | g2GetX | g2GetY | fexp =>
    exact ⟨_, _, rfl, .rdRa⟩
  case fAdd | fSub | fMul | qAdd | qSub | qMul | qPack | sAdd | sSub | sMul | dAdd | dSub | dMul | dPack | dExp | g1New
    | g1Add | g1Smul | g2New | g2Add | g2Smul | lineDbl | mloop | pair => exact ⟨_, _, rfl, .rdRaRb⟩
  case sPack | lineAdd => exact ⟨_, _, rfl, .rdRaRbRc⟩
  case qGet | sGet | dGet => exact ⟨_, _, rfl, .rdRaSel (of_decide_eq_true h)⟩
  case pchk | pchke => exact ⟨_, _, rfl, .count (of_decide_eq_true h)⟩
  case g1Enc | g2Enc | gtEnc | fLd | fSt => exact ⟨_, _, rfl, .mem⟩
  case g1Dec len | g2Dec len | gtDec len => exact ⟨_, _, rfl, .memLen (Nat.le_of_lt_succ len.isLt)⟩
  case kLd => exact ⟨_, _, rfl, .memLen (of_decide_eq_true h)⟩

/-- The command of a row with every operand 0. -/
def firstCommand : Layout → Instr
  | .none i => i
  | .rd mk => mk 0
  | .ra mk => mk 0
  | .rdRa mk => mk 0 0
  | .raRb mk => mk 0 0
  | .rdRaRb mk => mk 0 0 0
  | .rdRaRbRc mk => mk 0 0 0 0
  | .rdRaSel _ mk => mk 0 0 0
  | .target mk => mk 0
  | .rdImm mk => mk 0 0
  | .count mk => mk 0
  | .mem mk => mk 0 0
  | .memLen _ mk => mk 0 0 0

/-- Row by row, a spelled word is the encoding of its command, which is well-formed and has the row's mnemonic. -/
def RowSound (row : BitVec 8 × Layout) : Prop :=
  ∀ w i, Spells row.1 row.2 w i → encode i = w ∧ WellFormed i ∧ nameOf i = nameOf (firstCommand row.2)

theorem opcodeTable_rowSound : ∀ row ∈ opcodeTable, RowSound row := by
  simp only [opcodeTable, opsControl, opsFp, opsFp2, opsFp6, opsFp12, opsG1, opsG2, opsPairing, opsCodec, List.cons_append,
    List.nil_append, List.forall_mem_cons, List.not_mem_nil, false_imp_iff, implies_true, and_true]
  and_intros
  all_goals
    intro w i h
    cases h
    exact ⟨rfl, by simp [WellFormed, Instr.wellFormed, *], rfl⟩

/-! ### The printed table (R87) is the decoder's -/

/-- The mask of a layout: the opcode byte, the unused fields and the high bits of used ones. -/
def maskOf : Layout → Word
  | .none _ => wordR 0xFF 0x3F 0x3F 0x3F 0x3F
  | .rd _ => wordR 0xFF 0x38 0x3F 0x3F 0x3F
  | .ra _ => wordR 0xFF 0x3F 0x38 0x3F 0x3F
  | .rdRa _ => wordR 0xFF 0x38 0x38 0x3F 0x3F
  | .raRb _ => wordR 0xFF 0x3F 0x38 0x38 0x3F
  | .rdRaRb _ => wordR 0xFF 0x38 0x38 0x38 0x3F
  | .rdRaRbRc _ => wordR 0xFF 0x38 0x38 0x38 0x38
  | .rdRaSel n _ => wordR 0xFF 0x38 0x38 (if n = 2 then 0x3E else 0x3C) 0x3F
  | .target _ | .count _ => wordR 0xFF 0x3F 0x30 0 0
  | .rdImm _ => wordR 0xFF 0x38 0x30 0 0
  | .mem _ => wordM 0xFF 0 0 0x1FF
  | .memLen _ _ => wordM 0xFF 0 0 0

/-- The extra condition of a layout: the bound that its mask does not express. -/
def extraOf : Layout → Extra
  | .rdRaSel n _ => if n = 2 then .none else .rbAtMost (n - 1)
  | .count _ => .immAtMost Config.NPAIR_MAX
  | .memLen most _ => if most = 511 then .none else .lenAtMost most
  | _ => .none

/-- The printed row of a row of the decoder. -/
def printedRow (row : BitVec 8 × Layout) : TableRow :=
  ⟨nameOf (firstCommand row.2), wordR row.1 0 0 0 0, maskOf row.2, extraOf row.2⟩

theorem tableRows_eq : tableRows = opcodeTable.map printedRow := by decide

/-! ### What a mask says of a field -/

theorem reg_mask_iff {x : BitVec 6} : x &&& 0x38#6 = 0#6 ↔ ∃ r, x = idx6 r := by revert x; decide
theorem sel2_mask_iff {x : BitVec 6} : x &&& 0x3E#6 = 0#6 ↔ x.toNat < 2 := by revert x; decide
theorem sel3_mask_iff {x : BitVec 6} : (x &&& 0x3C#6 = 0#6 ∧ x.toNat ≤ 2) ↔ x.toNat < 3 := by revert x; decide
theorem unused_mask_iff {x : BitVec 6} : x &&& 0x3F#6 = 0#6 ↔ x = 0#6 := by revert x; decide
theorem len_mask_iff {x : BitVec 9} : x &&& 0x1FF#9 = 0#9 ↔ x = 0#9 := by
  rw [show 0x1FF#9 = BitVec.allOnes 9 from rfl, BitVec.and_allOnes]
theorem opcode_and_mask (x : BitVec 8) : x &&& 0xFF#8 = x := BitVec.and_allOnes

theorem zeroField_eq (w : Word) : zeroField w = (raField w).extractLsb' 4 2 := by
  apply BitVec.eq_of_toNat_eq
  simp only [zeroField, raField, BitVec.extractLsb'_toNat, Nat.shiftRight_eq_div_pow]
  omega

theorem zero_mask_iff {w : Word} : raField w &&& 0x30#6 = 0#6 ↔ zeroField w = 0#2 := by
  rw [zeroField_eq]
  generalize raField w = x
  revert x
  decide

/-- A match is a condition on each field of format R. -/
theorem and_wordR_iff {w : Word} {op : BitVec 8} {md ma mb mc : BitVec 6} :
    w &&& wordR 0xFF#8 md ma mb mc = wordR op 0#6 0#6 0#6 0#6 ↔
      opField w = op ∧ rdField w &&& md = 0#6 ∧ raField w &&& ma = 0#6 ∧ rbField w &&& mb = 0#6 ∧ rcField w &&& mc = 0#6 := by
  conv_lhs => rw [← wordR_fields w, wordR_and, wordR_inj, opcode_and_mask]

theorem wordM_zero (op : BitVec 8) : wordM op 0#3 0#12 0#9 = wordR op 0#6 0#6 0#6 0#6 := by
  apply BitVec.eq_of_toNat_eq
  simp [wordR_toNat, wordM_toNat]

/-- A match is a condition on the length of format M. -/
theorem and_wordM_iff {w : Word} {op : BitVec 8} {ml : BitVec 9} :
    w &&& wordM 0xFF#8 0#3 0#12 ml = wordR op 0#6 0#6 0#6 0#6 ↔ opField w = op ∧ lenField w &&& ml = 0#9 := by
  conv_lhs => rw [← wordM_fields w, wordM_and, ← wordM_zero, wordM_inj, opcode_and_mask]
  simp

theorem extraHolds_rbAtMost {n : Nat} {w : Word} : extraHolds (.rbAtMost n) w = true ↔ (rbField w).toNat ≤ n := by
  simp [extraHolds, rbField, Nat.shiftRight_eq_div_pow]

theorem extraHolds_immAtMost {n : Nat} {w : Word} : extraHolds (.immAtMost n) w = true ↔ (immField w).toNat ≤ n := by
  simp [extraHolds, immField]

theorem extraHolds_lenAtMost {n : Nat} {w : Word} : extraHolds (.lenAtMost n) w = true ↔ (lenField w).toNat ≤ n := by
  simp [extraHolds, lenField]

theorem rowMatches_iff {r : TableRow} {w : Word} :
    rowMatches r w = true ↔ w &&& r.mask = r.value ∧ extraHolds r.extra w = true := by
  simp [rowMatches]

/-! ### When a word reads by a layout -/

/-- The decoder accepts. -/
def Accepts (e : Except Reject Instr) : Prop := ∃ i, e = .ok i

@[simp] theorem accepts_ok (i : Instr) : Accepts (.ok i) := ⟨i, rfl⟩
@[simp] theorem accepts_error (e : Reject) : ¬ Accepts (.error e) := nofun

@[simp] theorem accepts_unused {n : Nat} {x : BitVec n} {k : Except Reject Instr} :
    Accepts (unused x k) ↔ x = 0#n ∧ Accepts k := by
  by_cases hx : x = 0#n <;> simp [unused, hx]

@[simp] theorem accepts_withIdx {x : BitVec 6} {k : RegIdx → Except Reject Instr} :
    Accepts (withIdx x k) ↔ ∃ r, x = idx6 r ∧ Accepts (k r) := by
  constructor
  · rintro ⟨i, h⟩
    obtain ⟨r, hx, h⟩ := withIdx_ok h
    exact ⟨r, hx, i, h⟩
  · rintro ⟨r, rfl, h⟩
    rwa [withIdx_idx6]

@[simp] theorem accepts_ite {c : Prop} [Decidable c] {k : Except Reject Instr} {e : Reject} :
    Accepts (if c then k else .error e) ↔ c ∧ Accepts k := by
  split <;> simp [*]

/-- The selector counts of the map are those whose masks R87 prints. -/
def selectorsPrinted : Layout → Bool
  | .rdRaSel n _ => n == 2 || n == 3
  | _ => true

theorem opcodeTable_selectorsPrinted : ∀ row ∈ opcodeTable, selectorsPrinted row.2 = true := by decide

theorem rowMatches_printedRow {op : BitVec 8} {l : Layout} {w : Word} (hl : selectorsPrinted l = true) :
    rowMatches (printedRow (op, l)) w = true ↔ opField w = op ∧ Accepts (readLayout w l) := by
  rw [rowMatches_iff, printedRow]
  cases l with
  | none | rd | ra | rdRa | raRb | rdRaRb | rdRaRbRc =>
    simp [maskOf, extraOf, extraHolds, readLayout, and_wordR_iff, reg_mask_iff, unused_mask_iff]
  | target | rdImm =>
    simp [maskOf, extraOf, extraHolds, readLayout, and_wordR_iff, reg_mask_iff, unused_mask_iff, zero_mask_iff]
  | count =>
    simp [maskOf, extraOf, extraHolds_immAtMost, readLayout, and_wordR_iff, unused_mask_iff, zero_mask_iff, and_assoc]
  | mem => simp [maskOf, extraOf, extraHolds, readLayout, and_wordM_iff, len_mask_iff]
  | memLen most =>
    by_cases h : most = 511
    · have hlen : (lenField w).toNat ≤ 511 := Nat.le_of_lt_succ (lenField w).isLt
      simp [maskOf, extraOf, extraHolds, readLayout, and_wordM_iff, h, hlen]
    · simp [maskOf, extraOf, extraHolds_lenAtMost, readLayout, and_wordM_iff, h]
  | rdRaSel n =>
    have hn : n = 2 ∨ n = 3 := by simpa [selectorsPrinted] using hl
    rcases hn with rfl | rfl
    · simp [maskOf, extraOf, extraHolds, readLayout, and_wordR_iff, reg_mask_iff, unused_mask_iff, sel2_mask_iff]
    · simp [maskOf, extraOf, extraHolds_rbAtMost, readLayout, and_wordR_iff, reg_mask_iff, unused_mask_iff,
        ← sel3_mask_iff, and_assoc, and_comm, and_left_comm]

/-! ### The decoder accepts exactly the printed table (R87) -/

theorem exists_decode_of_rowMatches {r : TableRow} {w : Word} (hr : r ∈ tableRows) (h : rowMatches r w = true) :
    opField w = opField r.value ∧ ∃ i, decode w = .ok i ∧ nameOf i = r.mnemonic := by
  rw [tableRows_eq] at hr
  obtain ⟨⟨op, l⟩, hrow, rfl⟩ := List.mem_map.1 hr
  obtain ⟨rfl, i, hi⟩ := (rowMatches_printedRow (opcodeTable_selectorsPrinted _ hrow)).1 h
  have hs := spells_of_readLayout_ok hi
  obtain ⟨-, -, hname⟩ := opcodeTable_rowSound _ hrow w i hs
  exact ⟨(opField_wordR ..).symm, i, decode_ok_iff.2 ⟨_, _, hrow, hs⟩, hname⟩

theorem exists_rowMatches_of_decode {w : Word} {i : Instr} (h : decode w = .ok i) :
    ∃ r ∈ tableRows, rowMatches r w = true ∧ nameOf i = r.mnemonic := by
  obtain ⟨op, l, hrow, hs⟩ := decode_ok_iff.1 h
  obtain ⟨-, -, hname⟩ := opcodeTable_rowSound _ hrow w i hs
  refine ⟨printedRow (op, l), ?_, ?_, hname⟩
  · rw [tableRows_eq]
    exact List.mem_map_of_mem hrow
  · exact (rowMatches_printedRow (opcodeTable_selectorsPrinted _ hrow)).2 ⟨hs.opField_eq, i, hs.readLayout_ok⟩

theorem mnemonics_nodup : (tableRows.map TableRow.mnemonic).Nodup := by decide

theorem tableRow_eq_of_mnemonic_eq {r r' : TableRow} (hr : r ∈ tableRows) (hr' : r' ∈ tableRows)
    (h : r.mnemonic = r'.mnemonic) : r = r' :=
  List.inj_on_of_nodup_map mnemonics_nodup hr hr' h

theorem printedOpcodes_nodup : (tableRows.map fun r => opField r.value).Nodup := by decide

theorem tableRow_eq_of_opField_eq {r r' : TableRow} (hr : r ∈ tableRows) (hr' : r' ∈ tableRows)
    (h : opField r.value = opField r'.value) : r = r' :=
  List.inj_on_of_nodup_map printedOpcodes_nodup hr hr' h

/-! ### Words that are no command (R88) -/

theorem exists_error_of_not_ok {w : Word} (h : ∀ i, decode w ≠ .ok i) : ∃ e, decode w = .error e := by
  cases hd : decode w with
  | ok i => exact absurd hd (h i)
  | error e => exact ⟨e, rfl⟩

theorem decode_error_of_no_match {w : Word} (h : ∀ r ∈ tableRows, rowMatches r w = false) : ∃ e, decode w = .error e := by
  refine exists_error_of_not_ok fun i hi => ?_
  obtain ⟨r, hr, hm, -⟩ := exists_rowMatches_of_decode hi
  rw [h r hr] at hm
  cases hm

/-- The row of its opcode is the only one a word can match. -/
theorem decode_error_of_off_row {w : Word} {r : TableRow} (hr : r ∈ tableRows) (hop : opField w = opField r.value)
    (h : rowMatches r w = false) : ∃ e, decode w = .error e := by
  refine exists_error_of_not_ok fun i hi => ?_
  obtain ⟨r', hr', hm, -⟩ := exists_rowMatches_of_decode hi
  obtain ⟨hop', -⟩ := exists_decode_of_rowMatches hr' hm
  rw [tableRow_eq_of_opField_eq hr' hr (hop'.symm.trans hop), h] at hm
  cases hm

theorem opcodes_assigned : ∀ row ∈ opcodeTable, unassignedOpcode row.1.toNat = false := by decide

theorem decode_unassigned {w : Word} (h : unassignedOpcode (opField w).toNat = true) :
    decode w = .error .unknownOpcode := by
  cases hf : findRow (opField w) opcodeTable with
  | none => rw [decode, hf]
  | some l =>
    rw [opcodes_assigned _ (findRow_mem hf)] at h
    cases h

theorem step_of_decode_error {s : State} {e : Reject} (hs : s.run = .run) (hp : s.pc.toNat < 1024)
    (hd : decode (readWord s.imem s.pc.toNat) = .error e) :
    step s = .next (faultState .illegalInstruction (readWord s.imem s.pc.toNat) s) := by
  rw [step, hs]
  show runStep s = _
  rw [runStep, withCommand, if_pos hp, hd]
  rfl

/-! ### The obligations -/

/-- Settles O2: a row spells every well-formed command with its encoding, and the decoder accepts what a row spells. -/
theorem decodeEncodeRoundTrip : Obligations.DecodeEncodeRoundTrip := by
  intro i hi
  obtain ⟨op, l, hrow, hs⟩ := exists_row_spells hi
  exact decode_ok_iff.2 ⟨op, l, findRow_mem hrow, hs⟩

/-- Settles O3: the decoder accepts only what a row spells, and a row spells a command with no word but its encoding. -/
theorem encodeDecodeRoundTrip : Obligations.EncodeDecodeRoundTrip := by
  intro w i h
  obtain ⟨op, l, hrow, hs⟩ := decode_ok_iff.1 h
  obtain ⟨hw, hwf, -⟩ := opcodeTable_rowSound _ hrow w i hs
  exact ⟨hwf, hw⟩

/-- Settles O4: a match gives a command and a command gives a match; the mnemonic says which row it is. -/
theorem decodeAcceptsExactlyTheTable : Obligations.DecodeAcceptsExactlyTheTable := by
  refine ⟨fun w r hr => ⟨fun h => (exists_decode_of_rowMatches hr h).2, ?_⟩, fun w i h => ?_, fun w r r' hr hr' h h' => ?_⟩
  · rintro ⟨i, hi, hname⟩
    obtain ⟨r', hr', hm, hname'⟩ := exists_rowMatches_of_decode hi
    rwa [tableRow_eq_of_mnemonic_eq hr hr' (hname.symm.trans hname')]
  · obtain ⟨r, hr, hm, -⟩ := exists_rowMatches_of_decode h
    exact ⟨r, hr, hm⟩
  · obtain ⟨hop, -⟩ := exists_decode_of_rowMatches hr h
    obtain ⟨hop', -⟩ := exists_decode_of_rowMatches hr' h'
    exact tableRow_eq_of_opField_eq hr hr' (hop.symm.trans hop')

/-- Settles O5: a word that decodes matches a row, and only the row of its opcode; the examples by evaluation. -/
theorem illegalWordsAreRejected : Obligations.IllegalWordsAreRejected := by
  refine ⟨fun w h => ?_, fun w r hr hop h => decode_error_of_off_row hr hop h, fun w h => decode_unassigned h, by decide⟩
  obtain ⟨e, he⟩ := decode_error_of_no_match h
  refine ⟨⟨e, he⟩, fun s hs hp hw => ?_⟩
  subst hw
  exact step_of_decode_error hs hp he

/-- Settles O1: by evaluation of the decoder. -/
theorem sampleWordsDecode : Obligations.SampleWordsDecode := by
  unfold Obligations.SampleWordsDecode
  decide

end Sys2Proof.Proofs
end

section
/-! Proofs of the family 40_control.md: one step of the sequencer (R100), the control commands (R101 to R105) and the two
integer-register commands (R106, R107). -/

namespace Sys2Proof.Proofs

open Sys2Proof.Machine Sys2Proof.Safety Sys2Proof.Laws

/-! ### The sequencer (R100) -/

/-- In RUN a step fetches, decodes and executes. -/
theorem step_of_run {s : State} (h : s.run = .run) : step s = runStep s := by
  rw [step, h]

/-- Settles O6: inside IMEM a word that is a command passes both tests of the fetch. -/
theorem stepRunsTheDecodedCommand : Obligations.StepRunsTheDecodedCommand := by
  intro s i hs hp hd
  rw [step_of_run hs, runStep, withCommand, if_pos hp, hd]

/-! ### The control commands (R101 to R105) -/

/-- The word of a jump or a branch: format I with `rd` zero. -/
theorem wordI_zero_formatI {opc : BitVec 8} {op : Nat} (hop : opc.toNat = op) (target : BitVec 16) :
    (wordI opc 0 target).toNat = formatI op 0 target.toNat :=
  word_formatI hop 0 target

theorem irq_of_halt {s : State} (h : s.run = .halt) : irq s = s.ie := by
  simp [irq, h]

/-- R105: the branch on a clear flag. -/
theorem exec_bf (target : BitVec 16) (s : State) :
    exec (.bf target) s = .next { s with pc := if s.T = false then target else s.pc + 1 } := by
  refine (branchIf_eq (!s.T) target s).trans ?_
  simp only [Bool.not_eq_true']

/-- Settles O23: the words by their formats, the effects by the meanings; a step in HALT is one of a stopped core. -/
theorem controlCommands : Obligations.ControlCommands := by
  intro s target
  have hstop : ({ s with run := .halt } : State).run ≠ .run := nofun
  exact ⟨⟨rfl, rfl⟩,
    ⟨rfl, rfl, step_of_stopped hstop, irq_of_halt rfl⟩,
    ⟨wordI_zero_formatI rfl target, rfl⟩,
    ⟨wordI_zero_formatI rfl target, branchIf_eq s.T target s⟩,
    ⟨wordI_zero_formatI rfl target, exec_bf target s⟩⟩

/-! ### The integer-register commands (R106, R107) -/

/-- Zero extension to the width of a K register keeps the integer. -/
theorem setWidth_KBITS_toNat (imm : BitVec 16) : (imm.setWidth Config.KBITS).toNat = imm.toNat :=
  BitVec.toNat_setWidth_of_le (by decide)

/-- Settles O24: `K.LI` and `K.MOV` are instances of the operand shapes of an immediate and of one source. -/
theorem integerRegisterCommands : Obligations.IntegerRegisterCommands :=
  ⟨ruleImm_of (opc := 0x08) (fun imm => imm.setWidth Config.KBITS) keepsPc_K rfl (fun _ _ => rfl) (fun _ _ _ => rfl)
      setWidth_KBITS_toNat,
    ruleUnary_of (opc := 0x09) id keepsPc_K rfl (fun _ _ => rfl) (fun _ _ _ => rfl) fun _ => rfl⟩

end Sys2Proof.Proofs
end

section
/-! Proofs of the family 41_fp.md: the base-field commands (R121 to R130). Each command is an instance of an operand shape;
what is left is that the function it computes is the exact integer result reduced by `mod p` (R120), which is an identity of
`ZMod p`. -/

namespace Sys2Proof.Proofs

open Sys2Proof.Machine Sys2Proof.Safety Sys2Proof.Laws

/-! ### The operations as reduced integers (R120) -/

theorem fpAdd_eq_modP (a b : Fp) : fpAdd a b = modP (a.val + b.val) := by
  rw [← to1_eq, to1_add, to1_modP, Int.cast_add, cast_val, cast_val]

theorem fpSub_eq_modP (a b : Fp) : fpSub a b = modP (a.val - b.val) := by
  rw [← to1_eq, to1_sub, to1_modP, Int.cast_sub, cast_val, cast_val]

theorem fpMul_eq_modP (a b : Fp) : fpMul a b = modP (a.val * b.val) := by
  rw [← to1_eq, to1_mul, to1_modP, Int.cast_mul, cast_val, cast_val]

theorem fpSqr_eq_modP (a : Fp) : fpSqr a = modP (a.val * a.val) := fpMul_eq_modP a a

theorem fpNeg_eq_modP (a : Fp) : fpNeg a = modP (0 - a.val) := by
  rw [← to1_eq, to1_neg, to1_modP, Int.cast_sub, Int.cast_zero, zero_sub, cast_val]

theorem fpPow_eq_modP (a : Fp) (e : Nat) : fpPow a e = modP ((a.val : Int) ^ e) := by
  rw [← to1_eq, to1_pow, to1_modP, Int.cast_pow, cast_val]

/-- An integer below p is its own representative. -/
theorem fpOfNat_val_of_lt {n : Nat} (h : n < primeP) : (fpOfNat n).val = n := Nat.mod_eq_of_lt h

/-- Settles O25: the five commands are instances of the shapes of one and of two sources, and each computes its exact
integer result modulo p. -/
theorem fpArithmetic : Obligations.FpArithmetic :=
  ⟨ruleBinary_of (opc := 0x10) fpAdd keepsPc_F rfl (fun _ _ _ => rfl) (fun _ _ _ _ => rfl) fpAdd_eq_modP,
    ruleBinary_of (opc := 0x11) fpSub keepsPc_F rfl (fun _ _ _ => rfl) (fun _ _ _ _ => rfl) fpSub_eq_modP,
    ruleBinary_of (opc := 0x12) fpMul keepsPc_F rfl (fun _ _ _ => rfl) (fun _ _ _ _ => rfl) fpMul_eq_modP,
    ruleUnary_of (opc := 0x13) fpSqr keepsPc_F rfl (fun _ _ => rfl) (fun _ _ _ => rfl) fpSqr_eq_modP,
    ruleUnary_of (opc := 0x14) fpNeg keepsPc_F rfl (fun _ _ => rfl) (fun _ _ _ => rfl) fpNeg_eq_modP⟩

/-! ### The inverse (R126) -/

theorem fpInv_modP_zero {a : Fp} (h : a = modP 0) : fpInv a = modP 0 := by
  rw [h, modP_zero, fpInv_zero]

/-- Because p is prime (Fermat). -/
theorem modP_mul_fpInv {a : Fp} (h : a ≠ modP 0) : modP (a.val * (fpInv a).val) = modP 1 := by
  rw [← fpMul_eq_modP, ← to1_eq, to1_mul, to1_mul_inv (modP_zero ▸ h), to1_modP, Int.cast_one]

/-- Settles O26: the power by the scan of R7, its value at 0, and the inverse elsewhere. -/
theorem fpInverse : Obligations.FpInverse :=
  ruleUnary_of (opc := 0x15) fpInv keepsPc_F rfl (fun _ _ => rfl) (fun _ _ _ => rfl) fun a =>
    ⟨fpPow_eq_modP a (primeP - 2), fpInv_modP_zero, modP_mul_fpInv⟩

/-! ### Tests, moves and literals (R127 to R130) -/

/-- Registers are equal exactly when their canonical integers are. -/
theorem decide_eq_val_beq (a b : Fp) : decide (a = b) = (a.val == b.val) := by
  rw [Bool.eq_iff_iff, decide_eq_true_iff, beq_iff_eq, Fin.ext_iff]

theorem decide_eq_zero_val_beq (a : Fp) : decide (a = fpOfNat 0) = (a.val == 0) := by
  rw [decide_eq_val_beq, fpOfNat_val_of_lt primeP_pos]

theorem imm_lt_primeP (imm : BitVec 16) : imm.toNat < primeP := imm.isLt.trans (by decide)

/-- Settles O27: two tests, a copy and an immediate, which is below p and so its own representative. -/
theorem fpTestsMovesAndLiterals : Obligations.FpTestsMovesAndLiterals :=
  ⟨ruleTest2_of (opc := 0x16) _ rfl (fun _ _ => rfl) (fun _ _ _ => rfl) decide_eq_val_beq,
    ruleTest1_of (opc := 0x17) _ rfl (fun _ => rfl) (fun _ _ => rfl) decide_eq_zero_val_beq,
    ruleUnary_of (opc := 0x18) id keepsPc_F rfl (fun _ _ => rfl) (fun _ _ _ => rfl) fun _ => rfl,
    ruleImm_of (opc := 0x19) (fun imm => fpOfNat imm.toNat) keepsPc_F rfl (fun _ _ => rfl) (fun _ _ _ => rfl)
      fun imm => fpOfNat_val_of_lt (imm_lt_primeP imm)⟩

end Sys2Proof.Proofs
end

section
/-! Proofs of the family 42_fp2.md: the commands of the quadratic extension (R141 to R152). Each command is an instance of an
operand shape; what is left is a fact about the function it computes: component by component, an exact integer result reduced
modulo p, or an identity of the field F2 of Laws/Tower.lean. -/

namespace Sys2Proof.Proofs

open Sys2Proof.Machine Sys2Proof.Safety Sys2Proof.Laws

/-! ### The operations against the schoolbook forms (R141 to R145, R150) -/

theorem fp2Add_eq_modP (x y : Fp2) : fp2Add x y = ⟨modP (x.a.val + y.a.val), modP (x.b.val + y.b.val)⟩ := by
  rw [fp2Add, fpAdd_eq_modP, fpAdd_eq_modP]

theorem fp2Sub_eq_modP (x y : Fp2) : fp2Sub x y = ⟨modP (x.a.val - y.a.val), modP (x.b.val - y.b.val)⟩ := by
  rw [fp2Sub, fpSub_eq_modP, fpSub_eq_modP]

theorem fp2Neg_eq_modP (x : Fp2) : fp2Neg x = ⟨modP (0 - x.a.val), modP (0 - x.b.val)⟩ := by
  rw [fp2Neg, fpNeg_eq_modP, fpNeg_eq_modP]

/-- The Karatsuba identity of R143. -/
theorem fp2Mul_eq_mul2 (x y : Fp2) : fp2Mul x y = mul2 x y := (mul2_eq x y).symm

theorem fp2Sqr_eq_modP (x : Fp2) :
    fp2Sqr x = ⟨modP (x.a.val * x.a.val - x.b.val * x.b.val), modP (2 * (x.a.val * x.b.val))⟩ := by
  rw [← to2_eq]
  ext <;> simp [to2, fp2Sqr]

theorem fp2Mnr_eq_modP (x : Fp2) :
    fp2Mnr x = ⟨modP (9 * x.a.val - x.b.val), modP (x.a.val + 9 * x.b.val)⟩ := by
  rw [← to2_eq]
  ext <;> simp [to2, fp2Mnr]

theorem fp2Mnr_eq_mul2 (x : Fp2) : fp2Mnr x = mul2 x xi2 := by
  rw [← to2_eq, to2_mnr, to2_mul2, to2_xi2, mul_comm]

/-- Settles O28: the six commands are instances of the shapes of one and of two sources, and each computes its schoolbook
form. -/
theorem fp2Arithmetic : Obligations.Fp2Arithmetic :=
  ⟨ruleBinary_of (opc := 0x20) fp2Add keepsPc_Q rfl (fun _ _ _ => rfl) (fun _ _ _ _ => rfl) fp2Add_eq_modP,
    ruleBinary_of (opc := 0x21) fp2Sub keepsPc_Q rfl (fun _ _ _ => rfl) (fun _ _ _ _ => rfl) fp2Sub_eq_modP,
    ruleBinary_of (opc := 0x22) fp2Mul keepsPc_Q rfl (fun _ _ _ => rfl) (fun _ _ _ _ => rfl) fp2Mul_eq_mul2,
    ruleUnary_of (opc := 0x23) fp2Sqr keepsPc_Q rfl (fun _ _ => rfl) (fun _ _ _ => rfl) fp2Sqr_eq_modP,
    ruleUnary_of (opc := 0x24) fp2Neg keepsPc_Q rfl (fun _ _ => rfl) (fun _ _ _ => rfl) fp2Neg_eq_modP,
    ruleUnary_of (opc := 0x29) fp2Mnr keepsPc_Q rfl (fun _ _ => rfl) (fun _ _ _ => rfl) fun x =>
      ⟨fp2Mnr_eq_modP x, fp2Mnr_eq_mul2 x⟩⟩

/-! ### The inverse (R146, R153) -/

/-- The inverse of the norm a² + b², 0 where that is 0. -/
theorem fpInv_norm_eq_modP (x : Fp2) : fpInv (fpAdd (fpSqr x.a) (fpSqr x.b)) =
    modP (((x.a.val : Int) * x.a.val + x.b.val * x.b.val) ^ (primeP - 2)) := by
  rw [← to1_eq, fpInv]
  simp

theorem fp2ConjScale_eq_modP (x : Fp2) (n : Fp) :
    fp2ConjScale x n = ⟨modP (x.a.val * n.val), modP (-x.b.val * n.val)⟩ := by
  rw [← to2_eq]
  ext <;> simp [to2, fp2ConjScale]

theorem fp2Inv_of_zero2 {x : Fp2} (h : x = zero2) : fp2Inv x = zero2 := by
  rw [h, zero2_eq, fp2Inv_zero]

/-- Because a² + b² is 0 at (0, 0) only (R153). -/
theorem mul2_fp2Inv {x : Fp2} (h : x ≠ zero2) : mul2 x (fp2Inv x) = one2 := by
  rw [← to2_eq, to2_mul2, to2_mul_inv (zero2_eq ▸ h), to2_one2]

/-- Settles O29: the conjugate scaled by the inverse of the norm, its value at (0, 0), and the inverse elsewhere. -/
theorem fp2Inverse : Obligations.Fp2Inverse :=
  ruleUnary_of (opc := 0x25) fp2Inv keepsPc_Q rfl (fun _ _ => rfl) (fun _ _ _ => rfl) fun x =>
    ⟨⟨_, fpInv_norm_eq_modP x, fp2ConjScale_eq_modP x _⟩, fp2Inv_of_zero2, mul2_fp2Inv⟩

/-! ### The shape of a command with a selector -/

section Select

variable {α γ : Type} {op count : Nat} {opc : BitVec 8} {mk : RegIdx → RegIdx → BitVec 6 → Instr}

theorem word_formatR_sel (hop : opc.toNat = op) (rd ra : RegIdx) (sel : BitVec 6) :
    (wordR opc (idx6 rd) (idx6 ra) sel 0).toNat = formatR op rd ra sel.toNat 0 := by
  rw [wordR_toNat, idx6_toNat, idx6_toNat, hop]
  rfl

/-- A selector that names no component is no legal word (R88). -/
theorem decode_selectorOutOfRange (hrow : findRow opc opcodeTable = some (.rdRaSel count mk)) (rd ra : RegIdx)
    {sel : BitVec 6} (h : count ≤ sel.toNat) :
    decode (wordR opc (idx6 rd) (idx6 ra) sel 0) = .error .selectorOutOfRange := by
  rw [decode_of_row hrow (opField_wordR ..)]
  simp [readLayout, Nat.not_lt.2 h]

theorem ruleSelect_of {src : File α} {dst : File γ} {part : α → Nat → Option γ} (f : BitVec 6 → α → γ) (hk : KeepsPc dst)
    (hop : opc.toNat = op) (hrow : findRow opc opcodeTable = some (.rdRaSel count mk))
    (he : ∀ rd ra sel, encode (mk rd ra sel) = wordR opc (idx6 rd) (idx6 ra) sel 0)
    (hx : ∀ rd ra sel s, sel.toNat < count →
      exec (mk rd ra sel) s = op1 src dst (encode (mk rd ra sel)) rd ra (f sel) s)
    (hp : ∀ a sel, sel.toNat < count → part a sel.toNat = some (f sel a)) : RuleSelect op count src dst mk part := by
  refine fun rd ra sel => ⟨he rd ra sel ▸ word_formatR_sel hop rd ra sel, fun hsel s =>
    ⟨fun a ha => ⟨f sel a, hp a sel hsel, ?_⟩, fun ha => ?_⟩, fun hsel => ?_⟩
  · rw [hx _ _ _ _ hsel, op1_some ha, finishReg_eq_wroteReg hk]
  · rw [hx _ _ _ _ hsel, op1_none ha]
    rfl
  · rw [he, decode_selectorOutOfRange hrow rd ra hsel]

end Select

/-! ### Tests, moves and parts (R147 to R149, R151, R152) -/

/-- Registers are equal exactly when both components are. -/
theorem decide_eq_fp2_val_beq (x y : Fp2) : decide (x = y) = (x.a.val == y.a.val && x.b.val == y.b.val) := by
  rw [← decide_eq_val_beq, ← decide_eq_val_beq, ← Bool.decide_and, decide_eq_decide, Fp2.mk.injEq]

theorem decide_eq_fp2Zero_val_beq (x : Fp2) : decide (x = fp2Zero) = (x.a.val == 0 && x.b.val == 0) := by
  rw [decide_eq_fp2_val_beq, fp2Zero, fp2OfNat, fpOfNat_val_of_lt primeP_pos]

/-- The component a selector names (R152). -/
def fp2Part (sel : BitVec 6) (x : Fp2) : Fp := if sel = 0 then x.a else x.b

theorem exec_qGet {sel : BitVec 6} (h : sel.toNat < 2) (rd ra : RegIdx) (s : State) :
    exec (.qGet rd ra sel) s = op1 fileQ fileF (encode (.qGet rd ra sel)) rd ra (fp2Part sel) s := if_pos h

/-- A selector below 2 is 0 or 1. -/
theorem sel_cases_of_lt_two {sel : BitVec 6} (h : sel.toNat < 2) : sel = 0 ∨ sel = 1 := by
  revert sel
  decide

/-- Settles O30: two tests and a copy, a pair of two base-field sources, and a component by its selector. -/
theorem fp2TestsMovesAndParts : Obligations.Fp2TestsMovesAndParts := by
  refine ⟨ruleTest2_of (opc := 0x26) _ rfl (fun _ _ => rfl) (fun _ _ _ => rfl) decide_eq_fp2_val_beq,
    ruleTest1_of (opc := 0x27) _ rfl (fun _ => rfl) (fun _ _ => rfl) decide_eq_fp2Zero_val_beq,
    ruleUnary_of (opc := 0x28) id keepsPc_Q rfl (fun _ _ => rfl) (fun _ _ _ => rfl) fun _ => rfl,
    ruleBinary_of (opc := 0x2A) Fp2.mk keepsPc_Q rfl (fun _ _ _ => rfl) (fun _ _ _ _ => rfl) fun _ _ => ⟨rfl, rfl⟩,
    ruleSelect_of (opc := 0x2B) fp2Part keepsPc_F rfl rfl (fun _ _ _ => rfl) (fun rd ra _ s h => exec_qGet h rd ra s) ?_⟩
  intro x sel h
  obtain rfl | rfl := sel_cases_of_lt_two h <;> rfl

end Sys2Proof.Proofs
end

section
/-! Proofs of the family 43_fp6.md: the commands of the sextic extension (R161 to R172). Each command is an instance of an
operand shape; what is left is a fact about the function it computes, an identity of the fields F2 and F6 of Laws/Tower.lean
or a comparison component by component. -/

namespace Sys2Proof.Proofs

open Sys2Proof.Machine Sys2Proof.Safety Sys2Proof.Laws

/-! ### The operations against the schoolbook forms (R161 to R165, R170) -/

theorem fp6Add_eq_add6 (x y : Fp6) : fp6Add x y = add6 x y := (add6_eq x y).symm

theorem fp6Sub_eq_sub6 (x y : Fp6) : fp6Sub x y = sub6 x y := (sub6_eq x y).symm

theorem fp6Neg_eq_neg6 (x : Fp6) : fp6Neg x = neg6 x := (neg6_eq x).symm

/-- The interpolated product of R163. -/
theorem fp6Mul_eq_mul6 (x y : Fp6) : fp6Mul x y = mul6 x y := (mul6_eq x y).symm

theorem fp6Sqr_eq_mul6 (x : Fp6) : fp6Sqr x = mul6 x x := fp6Mul_eq_mul6 x x

theorem fp2Mnr_eq_xi2_mul2 (x : Fp2) : fp2Mnr x = mul2 xi2 x := by
  rw [← to2_eq, to2_mnr, to2_mul2, to2_xi2]

/-- The rotation of the components (R170). -/
theorem fp6MulV_eq_rotated (x : Fp6) : fp6MulV x = ⟨mul2 xi2 x.c2, x.c0, x.c1⟩ := by
  rw [fp6MulV, fp2Mnr_eq_xi2_mul2]

/-- The rotation is the product with v, because v³ = 9 + u. -/
theorem fp6MulV_eq_mul6_v6 (x : Fp6) : fp6MulV x = mul6 x v6 := by
  rw [← to6_eq, to6_mulV, to6_mul6, to6_v6, mul_comm]

/-- Settles O31: the six commands are instances of the shapes of one and of two sources, and each computes its schoolbook
form. -/
theorem fp6Arithmetic : Obligations.Fp6Arithmetic :=
  ⟨ruleBinary_of (opc := 0x30) fp6Add keepsPc_S rfl (fun _ _ _ => rfl) (fun _ _ _ _ => rfl) fp6Add_eq_add6,
    ruleBinary_of (opc := 0x31) fp6Sub keepsPc_S rfl (fun _ _ _ => rfl) (fun _ _ _ _ => rfl) fp6Sub_eq_sub6,
    ruleBinary_of (opc := 0x32) fp6Mul keepsPc_S rfl (fun _ _ _ => rfl) (fun _ _ _ _ => rfl) fp6Mul_eq_mul6,
    ruleUnary_of (opc := 0x33) fp6Sqr keepsPc_S rfl (fun _ _ => rfl) (fun _ _ _ => rfl) fp6Sqr_eq_mul6,
    ruleUnary_of (opc := 0x34) fp6Neg keepsPc_S rfl (fun _ _ => rfl) (fun _ _ _ => rfl) fp6Neg_eq_neg6,
    ruleUnary_of (opc := 0x39) fp6MulV keepsPc_S rfl (fun _ _ => rfl) (fun _ _ _ => rfl) fun x =>
      ⟨fp6MulV_eq_rotated x, fp6MulV_eq_mul6_v6 x⟩⟩

/-! ### The inverse (R166) -/

theorem fp6CofA_eq_sub2 (x : Fp6) : fp6CofA x = sub2 (mul2 x.c0 x.c0) (mul2 xi2 (mul2 x.c1 x.c2)) := by
  rw [← to2_eq]
  simp [fp6CofA]

theorem fp6CofB_eq_sub2 (x : Fp6) : fp6CofB x = sub2 (mul2 xi2 (mul2 x.c2 x.c2)) (mul2 x.c0 x.c1) := by
  rw [← to2_eq]
  simp [fp6CofB]

theorem fp6CofC_eq_sub2 (x : Fp6) : fp6CofC x = sub2 (mul2 x.c1 x.c1) (mul2 x.c0 x.c2) := by
  rw [← to2_eq]
  simp [fp6CofC]

theorem fp6Norm_eq_add2 (x : Fp6) : fp6Norm x =
    add2 (mul2 x.c0 (fp6CofA x)) (mul2 xi2 (add2 (mul2 x.c2 (fp6CofB x)) (mul2 x.c1 (fp6CofC x)))) := by
  rw [← to2_eq]
  simp [fp6Norm]

theorem fp6CofScale_eq_mul2 (x : Fp6) (n : Fp2) :
    fp6CofScale x n = ⟨mul2 (fp6CofA x) n, mul2 (fp6CofB x) n, mul2 (fp6CofC x) n⟩ := by
  rw [mul2_eq, mul2_eq, mul2_eq]
  rfl

/-- The inverse in Fp2, in the two cases of R146. -/
theorem fp2Inv_cases (x : Fp2) : if x = zero2 then fp2Inv x = zero2 else mul2 x (fp2Inv x) = one2 := by
  split
  case isTrue h => exact fp2Inv_of_zero2 h
  case isFalse h => exact mul2_fp2Inv h

theorem fp6Inv_of_zero6 {x : Fp6} (h : x = zero6) : fp6Inv x = zero6 := by
  rw [h, zero6_eq, fp6Inv_zero]

/-- Because the norm is 0 at `Fp6_0` only: 9 + u is no cube. -/
theorem mul6_fp6Inv {x : Fp6} (h : x ≠ zero6) : mul6 x (fp6Inv x) = one6 := by
  rw [← to6_eq, to6_mul6, to6_mul_inv (zero6_eq ▸ h), to6_one6]

/-- Two right inverses of one value are equal: F6 is commutative. -/
theorem mul6_right_inverse_unique {x y z : Fp6} (hy : mul6 x y = one6) (hz : mul6 x z = one6) : y = z := by
  rw [← to6_eq, to6_mul6, to6_one6] at hy hz
  exact to6_eq.1 (left_inv_eq_right_inv (by rw [mul_comm, hy]) hz)

/-- Settles O32: the cofactors scaled by the inverse of the norm, the value at `Fp6_0`, and the one inverse elsewhere. -/
theorem fp6Inverse : Obligations.Fp6Inverse :=
  ruleUnary_of (opc := 0x35) fp6Inv keepsPc_S rfl (fun _ _ => rfl) (fun _ _ _ => rfl) fun x =>
    ⟨⟨_, _, _, _, fp2Inv (fp6Norm x), fp6CofA_eq_sub2 x, fp6CofB_eq_sub2 x, fp6CofC_eq_sub2 x, fp6Norm_eq_add2 x,
        fp2Inv_cases _, fp6CofScale_eq_mul2 x _⟩,
      fp6Inv_of_zero6, fun h => ⟨mul6_fp6Inv h, fun _ hy => mul6_right_inverse_unique hy (mul6_fp6Inv h)⟩⟩

/-! ### Tests, moves and parts (R167 to R169, R171, R172) -/

/-- Registers are equal exactly when all three components are. -/
theorem decide_eq_fp6_beq (x y : Fp6) : decide (x = y) = (x.c0 == y.c0 && x.c1 == y.c1 && x.c2 == y.c2) := by
  rw [Bool.eq_iff_iff, decide_eq_true_iff, Fp6.mk.injEq]
  simp only [Bool.and_eq_true, beq_iff_eq, and_assoc]

theorem decide_eq_fp6Zero_beq (x : Fp6) : decide (x = fp6Zero) = (x == zero6) := by
  rw [zero6_eq]
  rfl

/-- The component a selector names (R172). -/
def fp6Part (sel : BitVec 6) (x : Fp6) : Fp2 := if sel = 0 then x.c0 else if sel = 1 then x.c1 else x.c2

theorem exec_sGet {sel : BitVec 6} (h : sel.toNat < 3) (rd ra : RegIdx) (s : State) :
    exec (.sGet rd ra sel) s = op1 fileS fileQ (encode (.sGet rd ra sel)) rd ra (fp6Part sel) s := if_pos h

/-- A selector below 3 is 0, 1 or 2. -/
theorem sel_cases_of_lt_three {sel : BitVec 6} (h : sel.toNat < 3) : sel = 0 ∨ sel = 1 ∨ sel = 2 := by
  revert sel
  decide

/-- Settles O33: two tests and a copy, a triple of three Fp2 sources, and a component by its selector. -/
theorem fp6TestsMovesAndParts : Obligations.Fp6TestsMovesAndParts := by
  refine ⟨ruleTest2_of (opc := 0x36) _ rfl (fun _ _ => rfl) (fun _ _ _ => rfl) decide_eq_fp6_beq,
    ruleTest1_of (opc := 0x37) _ rfl (fun _ => rfl) (fun _ _ => rfl) decide_eq_fp6Zero_beq,
    ruleUnary_of (opc := 0x38) id keepsPc_S rfl (fun _ _ => rfl) (fun _ _ _ => rfl) fun _ => rfl,
    ruleTernary_of (opc := 0x3A) Fp6.mk keepsPc_S rfl (fun _ _ _ _ => rfl) (fun _ _ _ _ _ => rfl) fun _ _ _ => rfl,
    ruleSelect_of (opc := 0x3B) fp6Part keepsPc_Q rfl rfl (fun _ _ _ => rfl) (fun rd ra _ s h => exec_sGet h rd ra s) ?_⟩
  intro x sel h
  obtain rfl | rfl | rfl := sel_cases_of_lt_three h <;> rfl

end Sys2Proof.Proofs
end

section
/-! Proofs of the family 44_fp12.md: the commands of the dodecic extension (R181 to R195). Each command is an instance of an
operand shape; what is left is a fact about the function it computes, an identity of the fields F6 and F12 of Laws/Tower.lean
or a comparison coefficient by coefficient. -/

namespace Sys2Proof.Proofs

open Sys2Proof.Machine Sys2Proof.Safety Sys2Proof.Laws

/-! ### The operations against the schoolbook forms (R181 to R185, R190) -/

theorem fp12Add_eq_add12 (x y : Fp12) : fp12Add x y = add12 x y := (add12_eq x y).symm

theorem fp12Sub_eq_sub12 (x y : Fp12) : fp12Sub x y = sub12 x y := (sub12_eq x y).symm

theorem fp12Neg_eq_neg12 (x : Fp12) : fp12Neg x = neg12 x := (neg12_eq x).symm

/-- The Karatsuba identity of R183. -/
theorem fp12Mul_eq_mul12 (x y : Fp12) : fp12Mul x y = mul12 x y := (mul12_eq x y).symm

theorem fp12Sqr_eq_mul12 (x : Fp12) : fp12Sqr x = mul12 x x := fp12Mul_eq_mul12 x x

theorem fp12Conj_eq_conj12 (x : Fp12) : fp12Conj x = conj12 x := (conj12_eq x).symm

/-- Conjugation is the star of the commutative ring F12, hence multiplicative (R190). -/
theorem conj12_mul12 (x y : Fp12) : conj12 (mul12 x y) = mul12 (conj12 x) (conj12 y) := by
  rw [← to12_eq, to12_conj12, to12_mul12, to12_mul12, to12_conj12, to12_conj12, star_mul']

theorem conj12_conj12 (x : Fp12) : conj12 (conj12 x) = x := by
  rw [← to12_eq, to12_conj12, to12_conj12, star_star]

/-- Settles O34: the six commands are instances of the shapes of one and of two sources, each computes its schoolbook form,
and conjugation is the star of F12. -/
theorem fp12Arithmetic : Obligations.Fp12Arithmetic :=
  ⟨ruleBinary_of (opc := 0x40) fp12Add keepsPc_D rfl (fun _ _ _ => rfl) (fun _ _ _ _ => rfl) fp12Add_eq_add12,
    ruleBinary_of (opc := 0x41) fp12Sub keepsPc_D rfl (fun _ _ _ => rfl) (fun _ _ _ _ => rfl) fp12Sub_eq_sub12,
    ruleBinary_of (opc := 0x42) fp12Mul keepsPc_D rfl (fun _ _ _ => rfl) (fun _ _ _ _ => rfl) fp12Mul_eq_mul12,
    ruleUnary_of (opc := 0x43) fp12Sqr keepsPc_D rfl (fun _ _ => rfl) (fun _ _ _ => rfl) fp12Sqr_eq_mul12,
    ruleUnary_of (opc := 0x44) fp12Neg keepsPc_D rfl (fun _ _ => rfl) (fun _ _ _ => rfl) fp12Neg_eq_neg12,
    ruleUnary_of (opc := 0x49) fp12Conj keepsPc_D rfl (fun _ _ => rfl) (fun _ _ _ => rfl) fp12Conj_eq_conj12,
    conj12_mul12, conj12_conj12⟩

/-! ### The inverse (R186) -/

theorem fp12Norm_eq_sub6 (x : Fp12) : fp12Norm x = sub6 (mul6 x.c0 x.c0) (mul6 v6 (mul6 x.c1 x.c1)) := by
  rw [← to6_eq]
  simp [fp12Norm]

theorem fp12ConjScale_eq_mul6 (x : Fp12) (n : Fp6) :
    fp12ConjScale x n = ⟨mul6 x.c0 n, mul6 (neg6 x.c1) n⟩ := by
  rw [mul6_eq, mul6_eq, neg6_eq]
  rfl

/-- The inverse in Fp6, in the two cases of R166. -/
theorem fp6Inv_cases (x : Fp6) : if x = zero6 then fp6Inv x = zero6 else mul6 x (fp6Inv x) = one6 := by
  split
  case isTrue h => exact fp6Inv_of_zero6 h
  case isFalse h => exact mul6_fp6Inv h

/-- The norm is 0 at `Fp12_0` only: v is no square. -/
theorem fp12Norm_ne_zero6 {x : Fp12} (h : x ≠ zero12) : fp12Norm x ≠ zero6 := by
  intro h0
  refine norm12_ne_zero (zero12_eq ▸ h) ?_
  rw [h0, to6_zero6]

theorem fp12Inv_of_zero12 {x : Fp12} (h : x = zero12) : fp12Inv x = zero12 := by
  rw [h, zero12_eq, fp12Inv_zero]

theorem mul12_fp12Inv {x : Fp12} (h : x ≠ zero12) : mul12 x (fp12Inv x) = one12 := by
  rw [← to12_eq, to12_mul12, to12_mul_inv (zero12_eq ▸ h), to12_one12]

/-- Settles O35: the conjugate scaled by the inverse of the norm, its value at `Fp12_0`, and the inverse elsewhere. -/
theorem fp12Inverse : Obligations.Fp12Inverse :=
  ruleUnary_of (opc := 0x45) fp12Inv keepsPc_D rfl (fun _ _ => rfl) (fun _ _ _ => rfl) fun x =>
    ⟨⟨_, fp6Inv (fp12Norm x), fp12Norm_eq_sub6 x, fp6Inv_cases _, fp12Norm_ne_zero6, fp12ConjScale_eq_mul6 x _⟩,
      fp12Inv_of_zero12, mul12_fp12Inv⟩

/-! ### The power (R195) -/

/-- The loop of R195 over the schoolbook product computes the power, whatever the order of the scan: F12 is commutative. -/
theorem doubleAndAdd_mul12_eq_pow12 (x : Fp12) (e : Nat) :
    doubleAndAdd mul12 (fun y => mul12 y y) one12 x e = pow12 x e := by
  rw [doubleAndAdd_eq, ← to12_eq, to12_pow12]
  exact scanBits_pow to12 to12_mul12 (fun y => to12_mul12 y y) _ _ to12_one12 e

/-- Settles O37: the command's scan is the power, and so is the loop of R195. -/
theorem fp12Power : Obligations.Fp12Power :=
  ruleBinary_of (opc := 0x4E) (fun x e => fp12Exp x e.toNat) keepsPc_D rfl (fun _ _ _ => rfl) (fun _ _ _ _ => rfl) fun x e =>
    ⟨(pow12_eq x _).symm, by rw [doubleAndAdd_mul12_eq_pow12, pow12_eq]⟩

/-! ### Tests, moves and parts (R187 to R189, R191 to R194) -/

/-- Registers are equal exactly when all six Fp2 coefficients are. -/
theorem decide_eq_fp12_beq (x y : Fp12) : decide (x = y) =
    (x.c0.c0 == y.c0.c0 && x.c0.c1 == y.c0.c1 && x.c0.c2 == y.c0.c2 &&
      x.c1.c0 == y.c1.c0 && x.c1.c1 == y.c1.c1 && x.c1.c2 == y.c1.c2) := by
  have hsplit : decide (x = y) = (decide (x.c0 = y.c0) && decide (x.c1 = y.c1)) := by
    rw [← Bool.decide_and, decide_eq_decide, Fp12.mk.injEq]
  rw [hsplit, decide_eq_fp6_beq, decide_eq_fp6_beq, ← Bool.and_assoc, ← Bool.and_assoc]

theorem decide_eq_fp12Zero_beq (x : Fp12) : decide (x = fp12Zero) = (x == zero12) := by
  rw [zero12_eq]
  rfl

theorem decide_eq_fp12One_beq (x : Fp12) : decide (x = fp12One) = (x == one12) := by
  rw [one12_eq]
  rfl

/-- The component a selector names (R192). -/
def fp12Part (sel : BitVec 6) (x : Fp12) : Fp6 := if sel = 0 then x.c0 else x.c1

theorem exec_dGet {sel : BitVec 6} (h : sel.toNat < 2) (rd ra : RegIdx) (s : State) :
    exec (.dGet rd ra sel) s = op1 fileD fileS (encode (.dGet rd ra sel)) rd ra (fp12Part sel) s := if_pos h

theorem exec_dOne (rd : RegIdx) (s : State) : exec (.dOne rd) s = finishReg fileD rd one12 s := by
  rw [one12_eq]
  rfl

/-- Settles O36: three tests and a copy, a pair of two Fp6 sources, a component by its selector, and the identity. -/
theorem fp12TestsMovesAndParts : Obligations.Fp12TestsMovesAndParts := by
  refine ⟨ruleTest2_of (opc := 0x46) _ rfl (fun _ _ => rfl) (fun _ _ _ => rfl) decide_eq_fp12_beq,
    ruleTest1_of (opc := 0x47) _ rfl (fun _ => rfl) (fun _ _ => rfl) decide_eq_fp12Zero_beq,
    ruleUnary_of (opc := 0x48) id keepsPc_D rfl (fun _ _ => rfl) (fun _ _ _ => rfl) fun _ => rfl,
    ruleBinary_of (opc := 0x4A) Fp12.mk keepsPc_D rfl (fun _ _ _ => rfl) (fun _ _ _ _ => rfl) fun _ _ => rfl,
    ruleSelect_of (opc := 0x4B) fp12Part keepsPc_S rfl rfl (fun _ _ _ => rfl) (fun rd ra _ s h => exec_dGet h rd ra s) ?_,
    ruleConst_of (opc := 0x4C) keepsPc_D rfl (fun _ => rfl) exec_dOne,
    ruleTest1_of (opc := 0x4D) _ rfl (fun _ => rfl) (fun _ _ => rfl) decide_eq_fp12One_beq⟩
  intro x sel h
  obtain rfl | rfl := sel_cases_of_lt_two h <;> rfl

end Sys2Proof.Proofs
end

section
/-! Proofs of the family 45_g1.md: the commands of the curve group G1 (R201 to R212) and the laws of both curve groups (R213
and 46_g2.md R233). Each command is an instance of an operand shape; the laws hold because the stored points stand for the
points of a commutative group (`Rep1`, `Rep2`). -/

namespace Sys2Proof.Proofs

open Sys2Proof.Machine Sys2Proof.Safety Sys2Proof.Laws

/-! ### Points, tests, moves and parts (R201 to R203, R208 to R212) -/

/-- The sentinel is not on the curve, because 0 ≠ 3. -/
theorem not_onCurve1_inf1 : ¬ OnCurve1 inf1 := by
  rw [inf1_eq, ← g1OnCurve_iff]
  decide

theorem exec_g1Inf (rd : RegIdx) (s : State) : exec (.g1Inf rd) s = finishReg fileP rd ⟨modP 0, modP 0⟩ s := by
  rw [modP_zero]
  rfl

theorem exec_g1Gen (rd : RegIdx) (s : State) : exec (.g1Gen rd) s = finishReg fileP rd ⟨modP 1, modP 2⟩ s := by
  rw [modP_one, show modP 2 = fpOfNat 2 from modP_natCast 2]
  rfl

/-- Points are equal exactly when both coordinates are. -/
theorem decide_eq_g1pt_beq (A B : G1pt) : decide (A = B) = (A.X == B.X && A.Y == B.Y) := by
  rw [Bool.eq_iff_iff, decide_eq_true_iff, G1pt.mk.injEq, Bool.and_eq_true, beq_iff_eq, beq_iff_eq]

theorem g1IsInf_eq_val_beq (A : G1pt) : g1IsInf A = (A.X.val == 0 && A.Y.val == 0) := by
  rw [← decide_eq_zero_val_beq, ← decide_eq_zero_val_beq]
  exact decide_eq_g1pt_beq A g1Infinity

/-- Settles O38: a point from two coordinates with the curve test, two constants, two tests, a copy and two parts. -/
theorem g1Points : Obligations.G1Points :=
  ⟨ruleNew_of (opc := 0x50) (fun x y => g1OnCurve ⟨x, y⟩) keepsPc_P rfl (fun _ _ _ => rfl) (fun _ _ _ _ => rfl)
      fun _ _ => g1OnCurve_iff,
    not_onCurve1_inf1,
    ruleConst_of (opc := 0x51) keepsPc_P rfl (fun _ => rfl) exec_g1Inf,
    ruleConst_of (opc := 0x52) keepsPc_P rfl (fun _ => rfl) exec_g1Gen,
    ruleTest2_of (opc := 0x57) _ rfl (fun _ _ => rfl) (fun _ _ _ => rfl) decide_eq_g1pt_beq,
    ruleTest1_of (opc := 0x58) g1IsInf rfl (fun _ => rfl) (fun _ _ => rfl) g1IsInf_eq_val_beq,
    ruleUnary_of (opc := 0x59) id keepsPc_P rfl (fun _ _ => rfl) (fun _ _ _ => rfl) fun _ => rfl,
    ruleUnary_of (opc := 0x5A) G1pt.X keepsPc_F rfl (fun _ _ => rfl) (fun _ _ _ => rfl) fun _ => rfl,
    ruleUnary_of (opc := 0x5B) G1pt.Y keepsPc_F rfl (fun _ _ => rfl) (fun _ _ _ => rfl) fun _ => rfl⟩

/-! ### Addition, doubling, negation (R204 to R206) -/

theorem double1_g1Dbl (A : G1pt) : Double1 A (g1Dbl A) := ⟨g1Tangent A, tangent1_iff.2 rfl, third1_iff.2 rfl⟩

/-- The chord slope is the true quotient, as R204 words it. -/
theorem modP_g1Chord_mul {A B : G1pt} (h : A.X ≠ B.X) :
    modP ((g1Chord A B).val * ((B.X.val : Int) - A.X.val)) = modP ((B.Y.val : Int) - A.Y.val) := by
  have := fact_prime
  rw [← to1_eq, to1_modP, to1_modP, Int.cast_mul, Int.cast_sub, Int.cast_sub]
  simp only [cast_val]
  exact chord1_mul h

/-- The addition takes the cases of R204 in their order, whether or not the points lie on the curve. -/
theorem sum1_g1Add (A B : G1pt) : Sum1 A B (g1Add A B) := by
  unfold Sum1 g1Add
  simp only [g1IsInf_iff]
  split
  · rfl
  · split
    · rfl
    · split
      · split
        · exact double1_g1Dbl A
        · exact inf1_eq.symm
      · exact ⟨g1Chord A B, modP_g1Chord_mul ‹_›, third1_iff.2 rfl⟩

/-- Settles O39: the three commands are instances of the shapes of one and of two sources, and each computes its formula. -/
theorem g1GroupCommands : Obligations.G1GroupCommands :=
  ⟨ruleBinary_of (opc := 0x53) g1Add keepsPc_P rfl (fun _ _ _ => rfl) (fun _ _ _ _ => rfl) sum1_g1Add,
    ruleUnary_of (opc := 0x54) g1Dbl keepsPc_P rfl (fun _ _ => rfl) (fun _ _ _ => rfl) double1_g1Dbl,
    ruleUnary_of (opc := 0x55) g1Neg keepsPc_P rfl (fun _ _ => rfl) (fun _ _ _ => rfl) fun A => ⟨rfl, fpNeg_eq_modP A.Y⟩⟩

/-! ### Points that stand for the elements of a group (R213 and 46_g2.md R233)

Both curves meet `GroupOf`, so each law is proved once, as a law of commutative groups. -/

/-- Under the relation `R` the operations on points are those of the commutative group `M`. -/
structure GroupOf {α M : Type} [AddCommGroup M] (R : α → M → Prop) (inf : α) (add : α → α → α) (neg dbl : α → α)
    (smul : α → Nat → α) : Prop where
  unique : ∀ {a b m}, R a m → R b m → a = b
  inf : R inf 0
  add : ∀ {a b m n}, R a m → R b n → R (add a b) (m + n)
  neg : ∀ {a m}, R a m → R (neg a) (-m)
  dbl : ∀ {a m}, R a m → R (dbl a) (m + m)
  smul : ∀ {a m}, R a m → ∀ k, R (smul a k) (k • m)

namespace GroupOf

variable {α M : Type} [AddCommGroup M] {R : α → M → Prop} {inf : α} {add : α → α → α} {neg dbl : α → α}
  {smul : α → Nat → α} {a : α} {m : M}

theorem eq_of_rep (g : GroupOf R inf add neg dbl smul) {b : α} {n : M} (ha : R a m) (hb : R b n) (h : m = n) : a = b :=
  g.unique ha (h ▸ hb)

theorem add_inf (g : GroupOf R inf add neg dbl smul) (ha : R a m) : add a inf = a :=
  g.eq_of_rep (g.add ha g.inf) ha (add_zero m)

theorem inf_add (g : GroupOf R inf add neg dbl smul) (ha : R a m) : add inf a = a :=
  g.eq_of_rep (g.add g.inf ha) ha (zero_add m)

theorem add_neg (g : GroupOf R inf add neg dbl smul) (ha : R a m) : add a (neg a) = inf :=
  g.eq_of_rep (g.add ha (g.neg ha)) g.inf (add_neg_cancel m)

theorem neg_add (g : GroupOf R inf add neg dbl smul) (ha : R a m) : add (neg a) a = inf :=
  g.eq_of_rep (g.add (g.neg ha) ha) g.inf (neg_add_cancel m)

theorem add_self (g : GroupOf R inf add neg dbl smul) (ha : R a m) : add a a = dbl a :=
  g.eq_of_rep (g.add ha ha) (g.dbl ha) rfl

theorem smul_add (g : GroupOf R inf add neg dbl smul) (ha : R a m) (k l : Nat) :
    smul a (k + l) = add (smul a k) (smul a l) :=
  g.eq_of_rep (g.smul ha _) (g.add (g.smul ha k) (g.smul ha l)) (add_nsmul m k l)

theorem smul_one (g : GroupOf R inf add neg dbl smul) (ha : R a m) : smul a 1 = a :=
  g.eq_of_rep (g.smul ha 1) ha (one_nsmul m)

theorem smul_succ (g : GroupOf R inf add neg dbl smul) (ha : R a m) (k : Nat) : smul a (k + 1) = add (smul a k) a := by
  rw [g.smul_add ha, g.smul_one ha]

theorem smul_inf (g : GroupOf R inf add neg dbl smul) (k : Nat) : smul inf k = inf :=
  g.eq_of_rep (g.smul g.inf k) g.inf (nsmul_zero k)

/-- Where `k` times a point is its negation, one more gives infinity. -/
theorem smul_succ_of_eq_neg (g : GroupOf R inf add neg dbl smul) (ha : R a m) {k : Nat} (h : smul a k = neg a) :
    smul a (k + 1) = inf := by
  rw [g.smul_succ ha, h, g.neg_add ha]

theorem laws (g : GroupOf R inf add neg dbl smul) (ha : R a m) :
    add a inf = a ∧ add inf a = a ∧ add a (neg a) = inf ∧ add a a = dbl a ∧
      ∀ k l : Nat, smul a (k + l) = add (smul a k) (smul a l) :=
  ⟨g.add_inf ha, g.inf_add ha, g.add_neg ha, g.add_self ha, g.smul_add ha⟩

end GroupOf

theorem groupOf1 [Fact (Nat.Prime primeP)] : GroupOf Rep1 inf1 g1Add g1Neg g1Dbl g1Smul :=
  ⟨rep1_unique, inf1_eq ▸ rep1_infinity, rep1_add, rep1_neg, rep1_dbl, rep1_smul⟩

section

variable [Fact (Nat.Prime primeP)] [Fact (∀ r : ZMod primeP, r ^ 2 ≠ -1 + 0 * r)]

theorem groupOf2 : GroupOf Rep2 inf2 g2Add g2Neg g2Dbl g2Smul :=
  ⟨rep2_unique, inf2_eq ▸ rep2_infinity, rep2_add, rep2_neg, rep2_dbl, rep2_smul⟩

end

/-- Settles O54: a valid point stands for an element of the group of its curve, whose laws these are. -/
theorem groupLaws : Obligations.GroupLaws := by
  have := fact_prime
  have := fact2
  refine ⟨fun A hA => ?_, fun A hA => ?_⟩
  · obtain ⟨P, hP⟩ := rep1_exists hA
    exact groupOf1.laws hP
  · obtain ⟨P, hP⟩ := rep2_exists hA
    exact groupOf2.laws hP

/-! ### The scalar multiple (R207) -/

theorem g1Smul_eq_doubleAndAdd (A : G1pt) (k : Nat) : g1Smul A k = doubleAndAdd g1Add g1Dbl inf1 A k := by
  rw [doubleAndAdd_eq, inf1_eq]
  rfl

theorem g1Smul_zero (A : G1pt) : g1Smul A 0 = inf1 := inf1_eq.symm

/-- One round of the loop adds the point to infinity, so the point need not be on the curve. -/
theorem g1Smul_one (A : G1pt) : g1Smul A 1 = A := by
  have h : g1Smul A 1 = g1Add g1Infinity A := rfl
  rw [h, g1Add, if_pos (g1IsInf_iff.2 inf1_eq.symm)]

theorem g1Smul_inf1 (k : Nat) : g1Smul inf1 k = inf1 := by
  have := fact_prime
  exact groupOf1.smul_inf k

/-- Settles O40: the command's scan is the loop of R207, with its values at the scalars 0 and 1 and at infinity. -/
theorem g1ScalarMultiple : Obligations.G1ScalarMultiple :=
  ruleBinary_of (opc := 0x56) (fun A k => g1Smul A k.toNat) keepsPc_P rfl (fun _ _ _ => rfl) (fun _ _ _ _ => rfl)
    fun A k => ⟨g1Smul_eq_doubleAndAdd A k.toNat, fun h => by rw [h, g1Smul_zero], fun h => by rw [h, g1Smul_one],
      fun h => by rw [h, g1Smul_inf1]⟩

/-! ### The order of the generators (R207, 46_g2.md R227)

Only the multiples by r − 1 are computed; r times a generator follows by the laws of the group. -/

theorem g1Smul_generator_pred : g1Smul g1Generator (orderR - 1) = g1Neg g1Generator := by decide +kernel

theorem g2Smul_generator_pred : g2Smul g2Generator (orderR - 1) = g2Neg g2Generator := by decide +kernel

theorem orderR_eq_pred_add_one : orderR = orderR - 1 + 1 := by decide

theorem g1Smul_generator_orderR : g1Smul g1Generator orderR = inf1 := by
  have := fact_prime
  obtain ⟨P, hP⟩ := rep1_exists valid1_generator
  rw [orderR_eq_pred_add_one]
  exact groupOf1.smul_succ_of_eq_neg hP g1Smul_generator_pred

theorem g2Smul_generator_orderR : g2Smul g2Generator orderR = inf2 := by
  have := fact_prime
  have := fact2
  obtain ⟨P, hP⟩ := rep2_exists valid2_generator
  rw [orderR_eq_pred_add_one]
  exact groupOf2.smul_succ_of_eq_neg hP g2Smul_generator_pred

/-- Five times a valid point is four additions. -/
theorem g1Smul_five {A : G1pt} (hA : Valid1 A) : g1Smul A 5 = g1Add (g1Add (g1Add (g1Add A A) A) A) A := by
  have := fact_prime
  obtain ⟨P, hP⟩ := rep1_exists hA
  have hsucc := groupOf1.smul_succ hP
  rw [hsucc 4, hsucc 3, hsucc 2, hsucc 1, g1Smul_one]

/-- Settles O55: the multiples by r − 1 are computed, the others follow by the laws of the group. -/
theorem generatorOrders : Obligations.GeneratorOrders :=
  ⟨g1Smul_generator_orderR, g2Smul_generator_orderR, g1Smul_generator_pred, g2Smul_generator_pred,
    g1Smul_five valid1_generator⟩

end Sys2Proof.Proofs
end

section
/-! Proofs of the family 46_g2.md: the commands of the curve group G2 (R221 to R232). Each command is an instance of an
operand shape; what is left is a fact about the function it computes, over Fp2 as R224 to R227 word it. -/

namespace Sys2Proof.Proofs

open Sys2Proof.Machine Sys2Proof.Safety Sys2Proof.Laws

/-! ### Points, tests, moves and parts (R221 to R223, R228 to R232) -/

/-- The sentinel is not on the twist, because b′ ≠ 0. -/
theorem not_onCurve2_inf2 : ¬ OnCurve2 inf2 := by
  rw [inf2_eq, ← g2OnCurve_iff]
  decide +kernel

theorem exec_g2Inf (rd : RegIdx) (s : State) : exec (.g2Inf rd) s = finishReg fileW rd inf2 s := by
  rw [inf2_eq]
  rfl

/-- R223 by its four numerals. -/
theorem g2Generator_eq_modP : g2Generator =
    ⟨⟨modP 0x1800deef121f1e76426a00665e5c4479674322d4f75edadd46debd5cd992f6ed,
      modP 0x198e9393920d483a7260bfb731fb5d25f1aa493335a9e71297e485b7aef312c2⟩,
     ⟨modP 0x12c85ea5db8c6deb4aab71808dcb408fe3d1e7690c43d37b4ce6cc0166fa7daa,
      modP 0x090689d0585ff075ec9e99ad690c3395bc4b313370b38ef355acdadcd122975b⟩⟩ := by
  rw [g2Generator, fp2OfNat_eq_modP, fp2OfNat_eq_modP]
  rfl

/-- Points are equal exactly when both coordinates are. -/
theorem decide_eq_g2pt_beq (A B : G2pt) : decide (A = B) = (A.X == B.X && A.Y == B.Y) := by
  rw [Bool.eq_iff_iff, decide_eq_true_iff, G2pt.mk.injEq, Bool.and_eq_true, beq_iff_eq, beq_iff_eq]

theorem g2IsInf_eq_zero2_beq (A : G2pt) : g2IsInf A = (A.X == zero2 && A.Y == zero2) := by
  rw [g2IsInf, ← inf2_eq]
  exact decide_eq_g2pt_beq A inf2

/-- Settles O41: a point from two coordinates with the twist test, two constants, two tests, a copy and two parts. -/
theorem g2Points : Obligations.G2Points :=
  ⟨ruleNew_of (opc := 0x60) (fun x y => g2OnCurve ⟨x, y⟩) keepsPc_W rfl (fun _ _ _ => rfl) (fun _ _ _ _ => rfl)
      fun _ _ => g2OnCurve_iff,
    not_onCurve2_inf2,
    ruleConst_of (opc := 0x61) keepsPc_W rfl (fun _ => rfl) exec_g2Inf,
    ruleConst_of (opc := 0x62) keepsPc_W rfl (fun _ => rfl) fun _ _ => g2Generator_eq_modP ▸ rfl,
    onCurve2_generator,
    ruleTest2_of (opc := 0x67) _ rfl (fun _ _ => rfl) (fun _ _ _ => rfl) decide_eq_g2pt_beq,
    ruleTest1_of (opc := 0x68) g2IsInf rfl (fun _ => rfl) (fun _ _ => rfl) g2IsInf_eq_zero2_beq,
    ruleUnary_of (opc := 0x69) id keepsPc_W rfl (fun _ _ => rfl) (fun _ _ _ => rfl) fun _ => rfl,
    ruleUnary_of (opc := 0x6A) G2pt.X keepsPc_Q rfl (fun _ _ => rfl) (fun _ _ _ => rfl) fun _ => rfl,
    ruleUnary_of (opc := 0x6B) G2pt.Y keepsPc_Q rfl (fun _ _ => rfl) (fun _ _ _ => rfl) fun _ => rfl⟩

/-! ### Addition, doubling, negation (R224 to R226) -/

theorem double2_g2Dbl (A : G2pt) : Double2 A (g2Dbl A) := by
  have := fact_prime
  have := fact2
  exact ⟨g2Tangent A, tangent2_iff.2 rfl, third2_iff.2 rfl⟩

/-- The addition takes the cases of R224 in their order, whether or not the points lie on the twist. -/
theorem sum2_g2Add (A B : G2pt) : Sum2 A B (g2Add A B) := by
  unfold Sum2 g2Add
  simp only [g2IsInf_iff]
  split
  · rfl
  · split
    · rfl
    · split
      · split
        · exact double2_g2Dbl A
        · exact inf2_eq.symm
      · exact ⟨g2Chord A B, chord2_iff.2 rfl, third2_iff.2 rfl⟩

theorem g2Neg_eq_neg2 (A : G2pt) : g2Neg A = ⟨A.X, neg2 A.Y⟩ := by
  rw [g2Neg, neg2_eq]

/-- Settles O42: the three commands are instances of the shapes of one and of two sources, and each computes its formula. -/
theorem g2GroupCommands : Obligations.G2GroupCommands :=
  ⟨ruleBinary_of (opc := 0x63) g2Add keepsPc_W rfl (fun _ _ _ => rfl) (fun _ _ _ _ => rfl) sum2_g2Add,
    ruleUnary_of (opc := 0x64) g2Dbl keepsPc_W rfl (fun _ _ => rfl) (fun _ _ _ => rfl) double2_g2Dbl,
    ruleUnary_of (opc := 0x65) g2Neg keepsPc_W rfl (fun _ _ => rfl) (fun _ _ _ => rfl) g2Neg_eq_neg2⟩

/-! ### The scalar multiple (R227) -/

theorem g2Smul_eq_doubleAndAdd (A : G2pt) (k : Nat) : g2Smul A k = doubleAndAdd g2Add g2Dbl inf2 A k := by
  rw [doubleAndAdd_eq, inf2_eq]
  rfl

theorem g2Smul_zero (A : G2pt) : g2Smul A 0 = inf2 := inf2_eq.symm

/-- One round of the loop adds the point to infinity, so the point need not be on the twist. -/
theorem g2Smul_one (A : G2pt) : g2Smul A 1 = A := by
  have h : g2Smul A 1 = g2Add g2Infinity A := rfl
  rw [h, g2Add, if_pos (g2IsInf_iff.2 inf2_eq.symm)]

theorem g2Smul_inf2 (k : Nat) : g2Smul inf2 k = inf2 := by
  have := fact_prime
  have := fact2
  exact groupOf2.smul_inf k

/-- Settles O43: the command's scan is the loop of R227, with its values at the scalars 0 and 1 and at infinity. -/
theorem g2ScalarMultiple : Obligations.G2ScalarMultiple :=
  ruleBinary_of (opc := 0x66) (fun A k => g2Smul A k.toNat) keepsPc_W rfl (fun _ _ _ => rfl) (fun _ _ _ _ => rfl)
    fun A k => ⟨g2Smul_eq_doubleAndAdd A k.toNat, fun h => by rw [h, g2Smul_zero], fun h => by rw [h, g2Smul_one],
      fun h => by rw [h, g2Smul_inf2]⟩

end Sys2Proof.Proofs
end

section
/-! Proofs of the family 47_pairing.md, first part: the line functions, the Miller loop, the final exponentiation and `PAIR`
(R241 to R245). Each command is an instance of an operand shape; what is left is that the function it computes is the one the
spec words. -/

namespace Sys2Proof.Proofs

open Sys2Proof.Machine Sys2Proof.Safety Sys2Proof.Laws

/-! ### The line functions (R241, R242) -/

/-- The tangent at R, or one where R is infinity. -/
theorem lineDbl_spec (R : G2pt) (A : G1pt) :
    if R = inf2 then lineDbl R A = one12 else ∃ lam, Tangent2 R lam ∧ lineDbl R A = lineValue lam R A := by
  have := fact_prime
  have := fact2
  unfold lineDbl
  simp only [g2IsInf_iff]
  split
  · exact one12_eq.symm
  · exact ⟨g2Tangent R, tangent2_iff.2 rfl, (lineValue_eq _ R A).symm⟩

/-- The chord through R and B, or one where R is infinity. -/
theorem lineAdd_spec (R B : G2pt) (A : G1pt) :
    if R = inf2 then lineAdd R B A = one12 else ∃ lam, Chord2 R B lam ∧ lineAdd R B A = lineValue lam R A := by
  unfold lineAdd
  simp only [g2IsInf_iff]
  split
  · exact one12_eq.symm
  · exact ⟨g2Chord R B, chord2_iff.2 rfl, (lineValue_eq _ R A).symm⟩

/-- Settles O44: the two commands are instances of the shapes of two and of three sources, and each takes the cases of its
rule in their order. -/
theorem lineFunctions : Obligations.LineFunctions :=
  ⟨ruleBinary_of (opc := 0x70) lineDbl keepsPc_D rfl (fun _ _ _ => rfl) (fun _ _ _ _ => rfl) lineDbl_spec,
    ruleTernary_of (opc := 0x71) lineAdd keepsPc_D rfl (fun _ _ _ _ => rfl) (fun _ _ _ _ _ => rfl) lineAdd_spec⟩

/-! ### The Miller loop (R243) -/

/-- Settles O45: the command computes the loop of R243; the constants of R240 by their numerals. -/
theorem millerLoop : Obligations.MillerLoop :=
  ⟨ruleBinary_of (opc := 0x72) miller keepsPc_D rfl (fun _ _ _ => rfl) (fun _ _ _ _ => rfl) fun A B =>
      (millerValue_eq A B).symm,
    by decide, hardExp_mul_orderR⟩

/-! ### The final exponentiation (R244) -/

theorem finalExp_spec (f : Fp12) : FinalExp f (finalExp f) := finalExp_iff.2 rfl

/-- The collapse of R248 with the constants of the claims. -/
theorem finalExp_eq_ite (f : Fp12) : finalExp f = if f = zero12 then zero12 else one12 := by
  rw [zero12_eq, one12_eq, finalExp_eq]

theorem fp12One_ne_zero : fp12One ≠ fp12Zero := by decide +kernel

theorem finalExp_of_ne_zero {f : Fp12} (h : f ≠ fp12Zero) : finalExp f = one12 := by
  rw [finalExp_eq, if_neg h, one12_eq]

theorem finalExp_one12 : finalExp one12 = one12 := finalExp_of_ne_zero (one12_eq ▸ fp12One_ne_zero)

/-- Settles O46: the command computes the steps of R244, and these collapse to 0 at 0 and to one elsewhere. -/
theorem finalExponentiation : Obligations.FinalExponentiation :=
  ⟨ruleUnary_of (opc := 0x73) finalExp keepsPc_D rfl (fun _ _ => rfl) (fun _ _ _ => rfl) fun f =>
      ⟨finalExp_spec f, finalExp_eq_ite f⟩,
    rfl⟩

/-! ### `PAIR` (R245) -/

theorem pairing_spec (A : G1pt) (B : G2pt) : FinalExp (millerValue A B) (pairing A B) := by
  rw [millerValue_eq]
  exact finalExp_spec _

/-- With an input at infinity the Miller value is one, and so is its final exponentiation. -/
theorem pairing_of_infinity {A : G1pt} {B : G2pt} (h : A = inf1 ∨ B = inf2) : pairing A B = one12 := by
  rw [pairing, ← millerValue_eq, millerValue, if_pos h, finalExp_one12]

/-- Settles O47: the command computes the final exponentiation of the Miller value. -/
theorem pairCommand : Obligations.PairCommand :=
  ruleBinary_of (opc := 0x74) pairing keepsPc_D rfl (fun _ _ _ => rfl) (fun _ _ _ _ => rfl) fun A B =>
    ⟨pairing_spec A B, pairing_of_infinity⟩

end Sys2Proof.Proofs
end

section
/-! Proofs of the family 47_pairing.md, second part: the pairing checks (R246, R247) and their collapse on valid points
(R248). -/

namespace Sys2Proof.Proofs

open Sys2Proof.Machine Sys2Proof.Safety Sys2Proof.Laws

/-! ### The registers of a check -/

section WithPairs

variable {s : State} {n : Nat} {w : Word} {k : List (G1pt × G2pt) → Result}

theorem withPairs_of_pairsAre (hn : n ≤ 8) {l : List (G1pt × G2pt)} (h : PairsAre s n l) : withPairs w n s k = k l := by
  rw [withPairs, (pairsAre_iff hn).1 h]

theorem withPairs_of_invalid (hn : n ≤ 8) (h : ∃ i : RegIdx, i.val < n ∧ (s.P[i] = none ∨ s.W[i] = none)) :
    withPairs w n s k = .next (faultState .uninitRegister w s) := by
  obtain ⟨i, hi, hnone⟩ := h
  rw [withPairs, readPairs_none.2 ⟨i, (mem_pairRegs hn).2 hi, hnone⟩]
  rfl

end WithPairs

/-- A pair that a check reads is the contents of a pair of registers. -/
theorem exists_regs_of_mem {s : State} {n : Nat} {l : List (G1pt × G2pt)} (hn : n ≤ 8) (hl : PairsAre s n l)
    {x : G1pt × G2pt} (hx : x ∈ l) : ∃ i : RegIdx, s.P[i] = some x.1 ∧ s.W[i] = some x.2 := by
  obtain ⟨hlen, hregs⟩ := hl
  obtain ⟨k, hk⟩ := List.mem_iff_getElem?.1 hx
  obtain ⟨hkl, -⟩ := List.getElem?_eq_some_iff.1 hk
  have hk8 : k < 8 := by omega
  exact ⟨⟨k, hk8⟩, hregs ⟨k, hk8⟩ x.1 x.2 hk⟩

/-! ### `PCHK` and `PCHKE` (R246, R247) -/

theorem finishTest_eq_wroteT (b : Bool) (s : State) : finishTest b s = .next (wroteT b s) := rfl

section Check

variable {n : BitVec 16} {s : State} {l : List (G1pt × G2pt)} (hn : n.toNat ≤ 8)

include hn

theorem exec_pchk_eq : exec (.pchk n) s =
    withPairs (encode (.pchk n)) n.toNat s fun l => finishTest (pairingCheck l) s := if_pos hn

theorem exec_pchke_eq : exec (.pchke n) s =
    withPairs (encode (.pchke n)) n.toNat s fun l =>
      if pairingCheck l then finishTest true s else raiseFault .invalidPairing (encode (.pchke n)) s := if_pos hn

theorem exec_pchk (hl : PairsAre s n.toNat l) : exec (.pchk n) s = .next (wroteT (pairingCheck l) s) := by
  rw [exec_pchk_eq hn, withPairs_of_pairsAre hn hl, finishTest_eq_wroteT]

theorem exec_pchke_of_check (hl : PairsAre s n.toNat l) (hc : pairingCheck l = true) :
    exec (.pchke n) s = .next (wroteT true s) := by
  rw [exec_pchke_eq hn, withPairs_of_pairsAre hn hl, if_pos hc, finishTest_eq_wroteT]

theorem exec_pchke_of_not_check (hl : PairsAre s n.toNat l) (hc : pairingCheck l = false) :
    exec (.pchke n) s = .next (faultState .invalidPairing (encode (.pchke n)) s) := by
  rw [exec_pchke_eq hn, withPairs_of_pairsAre hn hl, if_neg (ne_true_of_eq_false hc)]
  rfl

end Check

/-- The check as R246 words it: one final exponentiation of the product, tested against one. -/
theorem pairingCheck_eq_beq (l : List (G1pt × G2pt)) : pairingCheck l = (finalExp (pairsProduct l) == one12) := by
  rw [pairingCheck, pairsProduct_eq, decide_eq_fp12One_beq]

/-- The check of no pairs is that of the empty product. -/
theorem finalExp_pairsProduct_of_length {l : List (G1pt × G2pt)} (h : l.length = 0) :
    finalExp (pairsProduct l) = one12 := by
  rw [List.length_eq_zero_iff.1 h]
  exact finalExp_one12

/-- A pair count past NPAIR_MAX is no legal word (R88). -/
theorem decode_pairCountOutOfRange {opc : BitVec 8} {mk : BitVec 16 → Instr}
    (hrow : findRow opc opcodeTable = some (.count mk)) {n : BitVec 16} (h : 8 < n.toNat) :
    decode (wordI opc 0 n) = .error .pairCountOutOfRange := by
  rw [decode_of_row hrow (opField_wordI ..)]
  simp [readLayout, Nat.not_le.2 h]

/-- Settles O48: the words by their format, the count by the decoder, and the two commands by what the registers hold. -/
theorem pairingChecks : Obligations.PairingChecks := by
  intro n
  refine ⟨⟨wordI_zero_formatI rfl n, wordI_zero_formatI rfl n⟩,
    fun h => ⟨decode_pairCountOutOfRange rfl h, decode_pairCountOutOfRange rfl h⟩,
    fun hn s => ⟨fun l hl => ⟨finalExp (pairsProduct l), finalExp_spec _, ?_, fun h => ?_, fun h => ?_, ?_⟩,
      fun h => ⟨?_, ?_⟩⟩⟩
  · rw [exec_pchk hn hl, pairingCheck_eq_beq]
  · exact exec_pchke_of_check hn hl ((pairingCheck_eq_beq l).trans (beq_iff_eq.2 h))
  · exact exec_pchke_of_not_check hn hl ((pairingCheck_eq_beq l).trans (beq_eq_false_iff_ne.2 h))
  · rintro rfl
    exact finalExp_pairsProduct_of_length hl.1
  · rw [exec_pchk_eq hn, withPairs_of_invalid hn h]
  · rw [exec_pchke_eq hn, withPairs_of_invalid hn h]

/-! ### Miller values of valid points are not 0

The coefficient of a line at c1.c1 is the ordinate of the G1 point, which no point of the curve has 0. A Miller value is a
product of lines, and F12 has no zero divisors. -/

theorem fp12Mul_ne_zero {x y : Fp12} (hx : x ≠ fp12Zero) (hy : y ≠ fp12Zero) : fp12Mul x y ≠ fp12Zero := by
  have := fact_prime
  have := fact2
  have := fact6
  have := fact12
  rw [Ne, ← to12_eq_zero] at hx hy ⊢
  rw [to12_mul]
  exact mul_ne_zero hx hy

/-- −3 is no cube, so no point of G1 has ordinate 0. -/
theorem ordinate_ne_zero {A : G1pt} (h : OnCurve1 A) : A.Y ≠ fpOfNat 0 := by
  have := fact_prime
  exact fun e => y_ne_zero goodCurve1 (shortCurve_equation.2 (onCurve1_iff.1 h)) (to1_eq_zero.2 e)

section Lines

variable {A : G1pt} (hA : A.Y ≠ fpOfNat 0)

include hA

theorem lineAt_ne_zero (lam : Fp2) (R : G2pt) : lineAt lam R A ≠ fp12Zero :=
  fun e => hA (congrArg (fun x => x.c1.c1.a) e)

theorem lineDbl_ne_zero (R : G2pt) : lineDbl R A ≠ fp12Zero := by
  unfold lineDbl
  split
  · exact fp12One_ne_zero
  · exact lineAt_ne_zero hA _ R

theorem lineAdd_ne_zero (R B : G2pt) : lineAdd R B A ≠ fp12Zero := by
  unfold lineAdd
  split
  · exact fp12One_ne_zero
  · exact lineAt_ne_zero hA _ R

theorem millerRounds_ne_zero (B : G2pt) (n : Nat) (R : G2pt) {f : Fp12} (hf : f ≠ fp12Zero) :
    millerRounds A B n R f ≠ fp12Zero := by
  induction n generalizing R f with
  | zero => exact hf
  | succ n ih =>
    have hdbl : fp12Mul (fp12Sqr f) (lineDbl R A) ≠ fp12Zero :=
      fp12Mul_ne_zero (fp12Mul_ne_zero hf hf) (lineDbl_ne_zero hA R)
    rw [millerRounds]
    split
    · exact ih _ (fp12Mul_ne_zero hdbl (lineAdd_ne_zero hA _ B))
    · exact ih _ hdbl

end Lines

theorem miller_ne_zero {A : G1pt} (hA : Valid1 A) (B : G2pt) : miller A B ≠ fp12Zero := by
  unfold miller
  split
  · exact fp12One_ne_zero
  · have hcurve : OnCurve1 A := hA.resolve_left fun e => ‹¬ _› ((g1IsInf_or A B).2 (.inl e))
    exact millerRounds_ne_zero (ordinate_ne_zero hcurve) B _ B fp12One_ne_zero

theorem millerProduct_ne_zero {l : List (G1pt × G2pt)} (hl : ∀ x ∈ l, Valid1 x.1) {acc : Fp12} (hacc : acc ≠ fp12Zero) :
    millerProduct acc l ≠ fp12Zero := by
  induction l generalizing acc with
  | nil => exact hacc
  | cons x l ih =>
    obtain ⟨hx, hl⟩ := List.forall_mem_cons.1 hl
    exact ih hl (fp12Mul_ne_zero hacc (miller_ne_zero hx x.2))

/-! ### The pairing on valid points (R248) -/

theorem pairing_of_valid {A : G1pt} (hA : Valid1 A) (B : G2pt) : pairing A B = one12 :=
  finalExp_of_ne_zero (miller_ne_zero hA B)

theorem pairingCheck_of_valid {l : List (G1pt × G2pt)} (hl : ∀ x ∈ l, Valid1 x.1) : pairingCheck l = true := by
  rw [pairingCheck_eq]
  exact decide_eq_true (millerProduct_ne_zero hl fp12One_ne_zero)

/-- The pairs a check reads from a state with valid points are valid. -/
theorem valid1_of_pairsAre {s : State} {n : Nat} {l : List (G1pt × G2pt)} (hs : PointsValid s) (hn : n ≤ 8)
    (hl : PairsAre s n l) : ∀ x ∈ l, Valid1 x.1 := by
  intro x hx
  obtain ⟨i, hP, -⟩ := exists_regs_of_mem hn hl hx
  exact hs.1 i x.1 hP

/-- Settles O49: on valid points no Miller value is 0, and the final exponentiation of what is not 0 is one. -/
theorem pairingOnValidPoints : Obligations.PairingOnValidPoints := by
  intro s hs
  refine ⟨fun rd ra rb A B hA hB => ?_, fun n l hn hl => ?_⟩
  · show op2 fileP fileW fileD _ rd ra rb pairing s = _
    rw [op2_some (srcA := fileP) (srcB := fileW) hA hB, pairing_of_valid (hs.1 ra A hA), finishReg_fileD]
  · have hcheck := pairingCheck_of_valid (valid1_of_pairsAre hs hn hl)
    exact ⟨hcheck ▸ exec_pchk hn hl, exec_pchke_of_check hn hl hcheck⟩

end Sys2Proof.Proofs
end

section
/-! Proofs of the family 60_exceptions.md, first part: fetch and decode faults, fault entry, the invariant of the fault record
and the rights of core and host. Each is read off the effects of a command (`Laws.exec_effect`), the cases of a step
(`Laws.step_cases`) and those of a host operation (`Laws.hostStep_cases`). -/

namespace Sys2Proof.Proofs

open Sys2Proof.Machine Sys2Proof.Safety Sys2Proof.Laws

/-! ### The faults of the sequencer (R284, R287) -/

theorem step_of_fetch_past {s : State} (hs : s.run = .run) (hp : 1024 ≤ s.pc.toNat) :
    step s = .next (faulted .imemFetchFault (s.pc.setWidth 32) s) := by
  rw [step_of_run hs, runStep, withCommand, if_neg (Nat.not_lt_of_le hp), raiseFault_eq]

theorem step_of_illegal_word {s : State} {e : Reject} (hs : s.run = .run) (hp : s.pc.toNat < 1024)
    (hd : decode (readWord s.imem s.pc.toNat) = .error e) :
    step s = .next (faulted .illegalInstruction (readWord s.imem s.pc.toNat) s) := by
  rw [step_of_run hs, runStep, withCommand, if_pos hp, hd]
  rfl

/-- Settles O7: the bounds test of the fetch fails. -/
theorem fetchPastImemFaults : Obligations.FetchPastImemFaults := fun _ hs hp => step_of_fetch_past hs hp

/-- Settles O8: the bounds test of the fetch passes and the decoder rejects the word. -/
theorem illegalWordFaults : Obligations.IllegalWordFaults := fun _ _ hs hp hd => step_of_illegal_word hs hp hd

/-! ### Every step answers (R280, R290, R295) -/

theorem exec_next (i : Instr) (s : State) : ∃ t, exec i s = .next t :=
  (exec_answers i s).imp fun _ h => h.1

/-- By the run state, then the fetch, then the decoder. -/
theorem step_next (s : State) : ∃ t, step s = .next t := by
  by_cases hs : s.run = .run
  · by_cases hp : s.pc.toNat < 1024
    · cases hd : decode (readWord s.imem s.pc.toNat) with
      | ok i =>
        rw [stepRunsTheDecodedCommand s i hs hp hd]
        exact exec_next i s
      | error e => exact ⟨_, step_of_illegal_word hs hp hd⟩
    · exact ⟨_, step_of_fetch_past hs (Nat.le_of_not_lt hp)⟩
  · exact ⟨s, step_of_stopped hs⟩

/-- Settles O10: a command answers one of its effects, and the faults of the sequencer are states too. -/
theorem everyStepAnswersANextState : Obligations.EveryStepAnswersANextState := ⟨exec_next, step_next⟩

/-! ### What a command leaves of the run state, `pc` and DMEM -/

section Effects

variable {i : Instr} {s t : State}

/-- A running core stops in FAULT only by raising a cause of a command. -/
theorem effect_of_fault (he : Effect i s t) (hs : s.run = .run) (ht : t.run = .fault) :
    ∃ c v, commandCause c ∧ t = faulted c v s := by
  have hrun : t.run ≠ s.run := by rw [hs, ht]; nofun
  cases he with
  | fault c v hc => exact ⟨c, v, hc, rfl⟩
  | reg f fl r v hf => exact absurd (writeReg_run hf s r v) hrun
  | flag | store | nop | jump => exact absurd rfl hrun
  | halt => cases ht

/-- A running core that halts keeps the index of the `HALT` (40_control.md R102). -/
theorem effect_pc_of_halt (he : Effect i s t) (hs : s.run = .run) (ht : t.run = .halt) : t.pc = s.pc := by
  have hrun : t.run ≠ s.run := by rw [hs, ht]; nofun
  cases he with
  | reg f fl r v hf => exact absurd (writeReg_run hf s r v) hrun
  | flag | store | nop | jump => exact absurd rfl hrun
  | fault | halt => rfl

/-- A store lies inside DMEM, and so keeps its canonical form. -/
theorem effect_dmem_wf (he : Effect i s t) (hm : Memory.wf s.dmem = true) : Memory.wf t.dmem = true := by
  cases he with
  | reg f fl r v hf =>
    rw [advance_dmem, writeReg_dmem hf]
    exact hm
  | store addr bs hd hb => exact writeBytes_wf hm bs hb
  | fault | flag | nop | jump | halt => exact hm

end Effects

/-! ### Fault entry (R290) -/

/-- The fault a step enters: past IMEM it is the fetch fault, with the `pc` for its INFO, and inside it is another. -/
theorem step_of_fault {s t : State} (hs : s.run = .run) (h : step s = .next t) (ht : t.run = .fault) :
    ∃ c v, c ≠ .noFault ∧ (c = .imemFetchFault ↔ 1024 ≤ s.pc.toNat) ∧
      (c = .imemFetchFault → v = s.pc.setWidth 32) ∧ t = faulted c v s := by
  rcases step_cases h with ⟨hn, -⟩ | ⟨-, hp, rfl⟩ | ⟨-, hp, -, rfl⟩ | ⟨-, hp, i, -, hi⟩
  · exact absurd hs hn
  · exact ⟨.imemFetchFault, _, nofun, ⟨fun _ => hp, fun _ => rfl⟩, fun _ => rfl, rfl⟩
  · exact ⟨.illegalInstruction, _, nofun, ⟨nofun, fun hge => absurd hp (Nat.not_lt_of_le hge)⟩, nofun, rfl⟩
  · obtain ⟨c, v, ⟨hc, hfetch⟩, rfl⟩ := effect_of_fault (exec_effect hi) hs ht
    exact ⟨c, v, hc, ⟨fun e => absurd e hfetch, fun hge => absurd hp (Nat.not_lt_of_le hge)⟩,
      fun e => absurd e hfetch, rfl⟩

theorem irq_of_fault {s : State} (h : s.run = .fault) : irq s = s.ie := by
  simp [irq, h]

/-- Settles O12: the state is the one of fault entry, and a core in FAULT is stopped. -/
theorem faultsWriteOnlyTheFaultRecord : Obligations.FaultsWriteOnlyTheFaultRecord := by
  intro s t hs h ht
  obtain ⟨c, v, hc, -, -, rfl⟩ := step_of_fault hs h ht
  exact ⟨⟨c, v, hc, rfl⟩, step_of_stopped nofun, irq_of_fault rfl⟩

/-! ### The invariant (R294) -/

/-- Fault entry leaves a coherent record. -/
theorem faultRecord_faulted {c : Cause} {v : BitVec 32} {s : State} (hc : c ≠ .noFault)
    (hfetch : c = .imemFetchFault ↔ 1024 ≤ s.pc.toNat) (hinfo : c = .imemFetchFault → v = s.pc.setWidth 32) :
    FaultRecord (faulted c v s) := by
  refine ⟨fun _ => hc, nofun, fun e => absurd e hc, fun _ => ⟨rfl, hfetch⟩, fun e => ?_, nofun⟩
  rw [faulted_info, hinfo e]
  exact BitVec.toNat_setWidth_of_le (by decide)

/-- Without a cause a record is coherent when it holds 0 and the core is not in FAULT. -/
theorem faultRecord_of_noFault {s : State} (hc : s.cause = .noFault) (h0 : s.epc = 0 ∧ s.info = 0)
    (hrun : s.run ≠ .fault) (hhalt : s.run = .halt → s.pc.toNat < 1024) : FaultRecord s :=
  ⟨fun e => absurd e hrun, fun _ => hc, fun _ => h0, fun e => absurd hc e, by rw [hc]; nofun, hhalt⟩

/-- A running core has no fault on record. -/
theorem faultRecord_clear_of_run {s : State} (h : FaultRecord s) (hs : s.run = .run) :
    s.cause = .noFault ∧ s.epc = 0 ∧ s.info = 0 := by
  obtain ⟨-, hrun, hnone, -⟩ := h
  have hc := hrun (.inl hs)
  exact ⟨hc, hnone hc⟩

/-- A step that enters no fault leaves the record alone, and halts only inside IMEM. -/
theorem step_faultRecord_of_ne_fault {s t : State} (h : FaultRecord s) (hs : s.run = .run) (hstep : step s = .next t)
    (ht : t.run ≠ .fault) : FaultRecord t := by
  obtain ⟨hc, h0⟩ := faultRecord_clear_of_run h hs
  rcases step_cases hstep with ⟨hn, -⟩ | ⟨-, -, rfl⟩ | ⟨-, -, -, rfl⟩ | ⟨-, hp, i, -, hi⟩
  · exact absurd hs hn
  · exact absurd rfl ht
  · exact absurd rfl ht
  · have he := exec_effect hi
    obtain ⟨hcause, hepc, hinfo⟩ := effect_faultRecord he ht
    refine faultRecord_of_noFault (hcause.trans hc) ?_ ht fun hhalt => ?_
    · rw [hepc, hinfo]
      exact h0
    · rw [effect_pc_of_halt he hs hhalt]
      exact hp

theorem step_faultRecord {s t : State} (h : FaultRecord s) (hstep : step s = .next t) : FaultRecord t := by
  by_cases hs : s.run = .run
  · by_cases ht : t.run = .fault
    · obtain ⟨c, v, hc, hfetch, hinfo, rfl⟩ := step_of_fault hs hstep ht
      exact faultRecord_faulted hc hfetch hinfo
    · exact step_faultRecord_of_ne_fault h hs hstep ht
  · cases (step_of_stopped hs).symm.trans hstep
    exact h

theorem step_dmem_wf {s t : State} (hm : Memory.wf s.dmem = true) (h : step s = .next t) : Memory.wf t.dmem = true := by
  rcases step_cases h with ⟨-, rfl⟩ | ⟨-, -, rfl⟩ | ⟨-, -, -, rfl⟩ | ⟨-, -, i, -, hi⟩
  · exact hm
  · exact hm
  · exact hm
  · exact effect_dmem_wf (exec_effect hi) hm

/-- No step writes what belongs to the host (R295). -/
theorem step_hostFields {s t : State} (h : step s = .next t) : t.imem = s.imem ∧ t.entry = s.entry ∧ t.ie = s.ie := by
  rcases step_cases h with ⟨-, rfl⟩ | ⟨-, -, rfl⟩ | ⟨-, -, -, rfl⟩ | ⟨-, -, i, -, hi⟩
  · exact ⟨rfl, rfl, rfl⟩
  · exact ⟨rfl, rfl, rfl⟩
  · exact ⟨rfl, rfl, rfl⟩
  · exact effect_hostFields (exec_effect hi)

/-- Settles O56: stores stay inside DMEM, no step writes IMEM, and the record is left alone or written by fault entry. -/
theorem invariantKeptByStep : Obligations.InvariantKeptByStep := by
  intro s t ⟨hd, hi, hr⟩ h
  obtain ⟨himem, -, -⟩ := step_hostFields h
  exact ⟨step_dmem_wf hd h, by rw [himem]; exact hi, step_faultRecord hr h⟩

/-! ### The rights of core and host (R295) -/

/-- The host writes `T` by a reset only, and each memory by a reset or a write to it. -/
theorem hostStep_T_and_memories {op : HostOp} {s t : State} (h : hostStep op s = .next t)
    (hop : ∀ im dm, op ≠ .reset im dm) :
    t.T = s.T ∧ ((∀ a b, op ≠ .writeDmem a b) → t.dmem = s.dmem) ∧ ((∀ i w, op ≠ .writeImem i w) → t.imem = s.imem) := by
  rcases hostStep_cases h with rfl | ⟨i, w, e, -, -, rfl⟩ | ⟨a, b, e, -, -, rfl⟩ | ⟨_, -, -, rfl⟩ | ⟨v, -, rfl⟩ |
    ⟨im, dm, e, -⟩
  · exact ⟨rfl, fun _ => rfl, fun _ => rfl⟩
  · exact ⟨rfl, fun _ => rfl, fun hw => absurd e (hw i w)⟩
  · exact ⟨rfl, fun hw => absurd e (hw a b), fun _ => rfl⟩
  · exact ⟨rfl, fun _ => rfl, fun _ => rfl⟩
  · rcases writeCtrl_cases v s with ⟨e, -⟩ | ⟨e, -⟩ | ⟨e, -⟩ <;> rw [e] <;> exact ⟨rfl, fun _ => rfl, fun _ => rfl⟩
  · exact absurd e (hop im dm)

/-- Settles O16: the core by the effects of a step, the host by the cases of its operations. -/
theorem rightsOfCoreAndHost : Obligations.RightsOfCoreAndHost := by
  refine ⟨fun s t h => step_hostFields h, fun op s t h hop => ⟨?_, hostStep_T_and_memories h hop⟩⟩
  exact (hostStep_files h).resolve_left fun ⟨im, dm, e, _⟩ => hop im dm e

/-! ### The interrupt output (R289) -/

theorem irq_iff (s : State) : irq s = true ↔ s.ie = true ∧ (s.run = .halt ∨ s.run = .fault) := by
  cases hr : s.run <;> simp [irq, hr]

/-- Settles O20: by the run state; the observation presents the level. -/
theorem irqLevel : Obligations.IrqLevel := by
  refine fun s => ⟨irq_iff s, rfl, ?_⟩
  cases h : irq s <;> simp [hostValue, h]

end Sys2Proof.Proofs
end

section
/-! Proofs of the family 60_exceptions.md, second part: `UninitRegister` (R285). The operand shapes test their sources one
after the other, in the order the claim lists them, before anything else; `TestsSources` says so of an answer, shape by shape,
and the 96 commands are instances. -/

namespace Sys2Proof.Proofs

open Sys2Proof.Machine Sys2Proof.Safety Sys2Proof.Laws

variable {α β γ δ : Type} {s : State} {w : Word} {f fa fb fc fd : FileName}

/-! ### Answers that test a list of sources -/

/-- A fault the answer enters has a cause other than `UninitRegister`. -/
def NotUninit (r : Result) : Prop := ∀ t, r = .next t → t.run = .fault → t.cause ≠ .uninitRegister

/-- The answer is the fault `UninitRegister(w)` where one of the sources is invalid, and from a running core never where all
are valid. -/
def TestsSources (s : State) (w : Word) (l : List (FileName × RegIdx)) (r : Result) : Prop :=
  ((∃ x ∈ l, validBit s x = false) → r = .next (faultState .uninitRegister w s)) ∧
  (s.run = .run → (∀ x ∈ l, validBit s x = true) → NotUninit r)

theorem notUninit_raise {c : Cause} (hc : c ≠ .uninitRegister) (v : BitVec 32) (s : State) :
    NotUninit (raiseFault c v s) := by
  rintro t ⟨⟩ -
  exact hc

theorem notUninit_of_ne_fault {t : State} (ht : t.run ≠ .fault) : NotUninit (.next t) := by
  rintro t' ⟨⟩ hf
  exact absurd hf ht

theorem ne_fault_of_run {t : State} (hs : s.run = .run) (ht : t.run = s.run) : t.run ≠ .fault := by
  rw [ht, hs]
  nofun

/-- With no source left to test. -/
theorem testsSources_nil {r : Result} (hr : s.run = .run → NotUninit r) : TestsSources s w [] r :=
  ⟨fun ⟨_, hx, _⟩ => absurd hx List.not_mem_nil, fun hs _ => hr hs⟩

/-- A running core goes on running. -/
theorem testsSources_next {t : State} (ht : t.run = s.run) : TestsSources s w [] (.next t) :=
  testsSources_nil fun hs => notUninit_of_ne_fault (ne_fault_of_run hs ht)

theorem testsSources_raise {c : Cause} {v : BitVec 32} (hc : c ≠ .uninitRegister) :
    TestsSources s w [] (raiseFault c v s) := testsSources_nil fun _ => notUninit_raise hc v s

theorem testsSources_finishReg {dst : File γ} (hd : Named fd dst) {rd : RegIdx} {v : γ} :
    TestsSources s w [] (finishReg dst rd v s) := testsSources_next (writeReg_run hd s rd v)

theorem testsSources_finishTest {b : Bool} : TestsSources s w [] (finishTest b s) := testsSources_next rfl

theorem testsSources_branchIf {b : Bool} {target : BitVec 16} : TestsSources s w [] (branchIf b target s) := by
  rw [branchIf_eq]
  exact testsSources_next rfl

theorem testsSources_ite {c : Prop} [Decidable c] {r r' : Result} (hr : TestsSources s w [] r)
    (hr' : TestsSources s w [] r') : TestsSources s w [] (if c then r else r') := by
  split
  · exact hr
  · exact hr'

theorem validBit_named {fl : File α} (hf : Named f fl) (s : State) (r : RegIdx) :
    validBit s (f, r) = (readReg fl s r).isSome := by
  cases hf <;> rfl

/-- A source in front of the ones tested later. -/
theorem testsSources_withReg {fl : File α} (hf : Named f fl) {r : RegIdx} {l : List (FileName × RegIdx)} {k : α → Result}
    (hk : ∀ v, TestsSources s w l (k v)) : TestsSources s w ((f, r) :: l) (withReg fl w r s k) := by
  rw [TestsSources, List.exists_mem_cons_iff, List.forall_mem_cons, validBit_named hf]
  cases hr : readReg fl s r with
  | none =>
    rw [withReg_none hr]
    exact ⟨fun _ => rfl, fun _ hv => absurd hv.1 nofun⟩
  | some v =>
    rw [withReg_some hr]
    exact ⟨fun hx => (hk v).1 (hx.resolve_left nofun), fun hs hv => (hk v).2 hs hv.2⟩

/-! ### The operand shapes -/

theorem testsSources_op1 {src : File α} {dst : File γ} (hf : Named f src) (hd : Named fd dst) {rd ra : RegIdx}
    {fn : α → γ} : TestsSources s w [(f, ra)] (op1 src dst w rd ra fn s) :=
  testsSources_withReg hf fun _ => testsSources_finishReg hd

theorem testsSources_op2 {srcA : File α} {srcB : File β} {dst : File γ} (ha : Named fa srcA) (hb : Named fb srcB)
    (hd : Named fd dst) {rd ra rb : RegIdx} {fn : α → β → γ} :
    TestsSources s w [(fa, ra), (fb, rb)] (op2 srcA srcB dst w rd ra rb fn s) :=
  testsSources_withReg ha fun _ => testsSources_withReg hb fun _ => testsSources_finishReg hd

theorem testsSources_op3 {srcA : File α} {srcB : File β} {srcC : File δ} {dst : File γ} (ha : Named fa srcA)
    (hb : Named fb srcB) (hc : Named fc srcC) (hd : Named fd dst) {rd ra rb rc : RegIdx} {fn : α → β → δ → γ} :
    TestsSources s w [(fa, ra), (fb, rb), (fc, rc)] (op3 srcA srcB srcC dst w rd ra rb rc fn s) :=
  testsSources_withReg ha fun _ => testsSources_withReg hb fun _ => testsSources_withReg hc fun _ =>
    testsSources_finishReg hd

theorem testsSources_opNew {src : File α} {dst : File γ} (hf : Named f src) (hd : Named fd dst) {rd ra rb : RegIdx}
    {c : α → α → Bool} {mk : α → α → γ} :
    TestsSources s w [(f, ra), (f, rb)] (opNew src dst w rd ra rb c mk s) :=
  testsSources_withReg hf fun _ => testsSources_withReg hf fun _ =>
    testsSources_ite (testsSources_finishReg hd) (testsSources_raise nofun)

theorem testsSources_test1 {src : File α} (hf : Named f src) {ra : RegIdx} {p : α → Bool} :
    TestsSources s w [(f, ra)] (test1 src w ra p s) := testsSources_withReg hf fun _ => testsSources_finishTest

theorem testsSources_test2 {src : File α} (hf : Named f src) {ra rb : RegIdx} {p : α → α → Bool} :
    TestsSources s w [(f, ra), (f, rb)] (test2 src w ra rb p s) :=
  testsSources_withReg hf fun _ => testsSources_withReg hf fun _ => testsSources_finishTest

theorem testsSources_withAccess {addr : Addr} {n : Nat} {r : Result} (hr : TestsSources s w [] r) :
    TestsSources s w [] (withAccess addr n s r) := by
  unfold withAccess
  exact testsSources_ite (testsSources_raise nofun) hr

theorem testsSources_store {src : File α} (hf : Named f src) {r : RegIdx} {addr : Addr} {n : Nat} {enc : α → List Byte} :
    TestsSources s w [(f, r)] (opStore src w r addr n enc s) :=
  testsSources_withReg hf fun _ => testsSources_withAccess (testsSources_next rfl)

theorem testsSources_withLength {len : BitVec 9} {n : Nat} {r : Result} (hr : TestsSources s w [] r) :
    TestsSources s w [] (withLength len n s r) := testsSources_ite hr (testsSources_raise nofun)

theorem testsSources_withField {a : Nat} {k : Fp → Result} (hk : ∀ v, TestsSources s w [] (k v)) :
    TestsSources s w [] (withField a s k) := by
  unfold withField
  split
  · exact hk _
  · exact testsSources_raise nofun

theorem testsSources_withField2 {a : Nat} {k : Fp2 → Result} (hk : ∀ v, TestsSources s w [] (k v)) :
    TestsSources s w [] (withField2 a s k) := testsSources_withField fun _ => testsSources_withField fun _ => hk _

theorem testsSources_withField6 {a : Nat} {k : Fp6 → Result} (hk : ∀ v, TestsSources s w [] (k v)) :
    TestsSources s w [] (withField6 a s k) :=
  testsSources_withField2 fun _ => testsSources_withField2 fun _ => testsSources_withField2 fun _ => hk _

/-- The sources of a pairing check are the registers of its pairs. -/
theorem exists_invalid_pairSource {n : Nat} : (∃ x ∈ pairSources n, validBit s x = false) ↔
    ∃ i ∈ pairRegs n, s.P[i] = none ∨ s.W[i] = none := by
  constructor
  · rintro ⟨x, hx, hv⟩
    obtain ⟨i, hi, hxi⟩ := List.mem_flatMap.1 hx
    rcases List.mem_pair.1 hxi with rfl | rfl
    · exact ⟨i, hi, .inl (Option.not_isSome_iff_eq_none.1 (ne_true_of_eq_false hv))⟩
    · exact ⟨i, hi, .inr (Option.not_isSome_iff_eq_none.1 (ne_true_of_eq_false hv))⟩
  · rintro ⟨i, hi, h | h⟩
    · exact ⟨(.P, i), List.mem_flatMap.2 ⟨i, hi, by simp⟩, by rw [validBit, h]; rfl⟩
    · exact ⟨(.W, i), List.mem_flatMap.2 ⟨i, hi, by simp⟩, by rw [validBit, h]; rfl⟩

theorem testsSources_withPairs {n : Nat} {k : List (G1pt × G2pt) → Result} (hk : ∀ l, TestsSources s w [] (k l)) :
    TestsSources s w (pairSources n) (withPairs w n s k) := by
  unfold withPairs
  cases hr : readPairs s (pairRegs n) with
  | none =>
    obtain ⟨x, hx, hv⟩ := exists_invalid_pairSource.2 (readPairs_none.1 hr)
    exact ⟨fun _ => rfl, fun _ hall => absurd (hall x hx) (by rw [hv]; nofun)⟩
  | some l =>
    refine ⟨fun hx => ?_, fun hs _ => (hk l).2 hs fun _ hx => absurd hx List.not_mem_nil⟩
    rw [readPairs_none.2 (exists_invalid_pairSource.1 hx)] at hr
    cases hr

/-! ### The 96 commands -/

/-- Where the guard on an operand holds, what it guards decides. -/
theorem testsSources_guarded {c : Prop} [Decidable c] {l : List (FileName × RegIdx)} {r r' : Result} (hc : c)
    (hr : TestsSources s w l r) : TestsSources s w l (if c then r else r') := by
  rw [if_pos hc]
  exact hr

/-- Every well-formed command tests its sources, in the order listed, before all else (40_control.md R100 step 4). -/
theorem exec_testsSources {i : Instr} (hi : WellFormed i) (s : State) :
    TestsSources s (encode i) (sourcesOf i) (exec i s) := by
  cases i
  case nop | jmp => exact testsSources_next rfl
  case halt => exact testsSources_nil fun _ => notUninit_of_ne_fault nofun
  case bt | bf => exact testsSources_branchIf
  case kLi | fLi | dOne | g1Inf | g1Gen | g2Inf | g2Gen => exact testsSources_finishReg (by constructor)
  case g1New | g2New => exact testsSources_opNew (by constructor) (by constructor)
  case fIsZ | qIsZ | sIsZ | dIsZ | dIsOne | g1IsInf | g2IsInf => exact testsSources_test1 (by constructor)
  case fEq | qEq | sEq | dEq | g1Eq | g2Eq => exact testsSources_test2 (by constructor)
  case qGet | sGet | dGet =>
    exact testsSources_guarded (of_decide_eq_true hi) (testsSources_op1 (by constructor) (by constructor))
  case pchk => exact testsSources_guarded (of_decide_eq_true hi) (testsSources_withPairs fun _ => testsSources_finishTest)
  case pchke =>
    exact testsSources_guarded (of_decide_eq_true hi) (testsSources_withPairs fun _ =>
      testsSources_ite testsSources_finishTest (testsSources_raise nofun))
  case g1Enc | g2Enc | gtEnc | fSt => exact testsSources_store (by constructor)
  case g1Dec =>
    exact testsSources_withLength <| testsSources_withAccess <| testsSources_withField fun _ =>
      testsSources_withField fun _ => testsSources_ite (testsSources_finishReg .P) (testsSources_raise nofun)
  case g2Dec =>
    exact testsSources_withLength <| testsSources_withAccess <| testsSources_withField2 fun _ =>
      testsSources_withField2 fun _ => testsSources_ite (testsSources_finishReg .W) (testsSources_raise nofun)
  case gtDec =>
    exact testsSources_withLength <| testsSources_withAccess <| testsSources_withField6 fun _ =>
      testsSources_withField6 fun _ => testsSources_finishReg .D
  case fLd => exact testsSources_withAccess <| testsSources_withField fun _ => testsSources_finishReg .F
  case kLd => exact testsSources_guarded (of_decide_eq_true hi) (testsSources_withAccess (testsSources_finishReg .K))
  case sPack | lineAdd =>
    exact testsSources_op3 (by constructor) (by constructor) (by constructor) (by constructor)
  case kMov | fSqr | fNeg | fInv | fMov | qSqr | qNeg | qInv | qMov | qMnr | sSqr | sNeg | sInv | sMov | sMulV | dSqr |
      dNeg | dInv | dMov | dConj | fexp | g1Dbl | g1Neg | g1Mov | g1GetX | g1GetY | g2Dbl | g2Neg | g2Mov | g2GetX |
      g2GetY =>
    exact testsSources_op1 (by constructor) (by constructor)
  case fAdd | fSub | fMul | qAdd | qSub | qMul | qPack | sAdd | sSub | sMul | dAdd | dSub | dMul | dPack | dExp | g1Add |
      g1Smul | g2Add | g2Smul | lineDbl | mloop | pair =>
    exact testsSources_op2 (by constructor) (by constructor) (by constructor)

/-- Settles O11: each command has one of the operand shapes, and every shape tests its sources first. -/
theorem uninitRegisterFaults : Obligations.UninitRegisterFaults := fun _ s hi => exec_testsSources hi s

end Sys2Proof.Proofs
end

section
/-! Proofs of the family 70_reset_and_hazards.md: the host's access to the memories and `ENTRY` (R315), and the invariant
under the host's operations and after reset (R311). -/

namespace Sys2Proof.Proofs

open Sys2Proof.Machine Sys2Proof.Safety Sys2Proof.Laws

/-! ### Host access to a stopped core (R315) -/

/-- Outside RUN the guard on the run state lets the access through. -/
theorem withStopped_of_ne_run {s : State} (h : s.run ≠ .run) (k : Result) : withStopped s k = k := by
  unfold withStopped
  split
  · exact absurd ‹_› h
  all_goals rfl

theorem imemAccess_of_stopped {s : State} (hs : s.run ≠ .run) {i : Nat} (hi : i < 1024) (k : Result) :
    withImemIndex i (withStopped s k) = k :=
  (withImemIndex_of_lt hi _).trans (withStopped_of_ne_run hs k)

theorem dmemAccess_of_stopped {s : State} (hs : s.run ≠ .run) {a : Nat} (ha : a < 4096) (k : Result) :
    withDmemAddress a (withStopped s k) = k :=
  (withDmemAddress_of_lt ha _).trans (withStopped_of_ne_run hs k)

/-- Settles O21: both guards pass, and the memories are plain storage. -/
theorem hostMemoryAccess : Obligations.HostMemoryAccess := by
  intro s hs hi hd
  refine ⟨fun i w h => ⟨writeWord s.imem i w, imemAccess_of_stopped hs h _, writeWord_wf hi h w, fun j => ?_⟩,
    fun a b h => ⟨writeByte s.dmem a b, dmemAccess_of_stopped hs h _, writeByte_wf hd h b, fun c => ?_⟩,
    fun i h => ⟨imemAccess_of_stopped hs h _, rfl⟩, fun a h => ⟨dmemAccess_of_stopped hs h _, rfl⟩,
    fun v => withStopped_of_ne_run hs _, withStopped_of_ne_run hs _⟩
  · exact readWord_writeWord hi i j w
  · exact readByte_writeByte hd a c b

/-! ### The invariant under the host (60_exceptions.md R293, R294) -/

/-- An accepted CLR leaves the record for the host to read: it binds less in IDLE than elsewhere. -/
theorem faultRecord_acknowledge {s : State} (h : FaultRecord s) : FaultRecord (acknowledge s) := by
  obtain ⟨-, -, hnone, hcause, hinfo, -⟩ := h
  exact ⟨nofun, fun e => e.elim nofun nofun, hnone, hcause, hinfo, nofun⟩

/-- An accepted GO clears the record. -/
theorem faultRecord_launch (s : State) : FaultRecord (launch s) := faultRecord_of_noFault rfl ⟨rfl, rfl⟩ nofun nofun

theorem faultRecord_resetWith (m : Imem) (d : Dmem) : FaultRecord (State.resetWith m d) :=
  faultRecord_of_noFault rfl ⟨rfl, rfl⟩ nofun nofun

theorem inv_resetWith {m : Imem} {d : Dmem} (hm : Imem.wf m = true) (hd : Memory.wf d = true) :
    Inv (State.resetWith m d) := ⟨hd, hm, faultRecord_resetWith m d⟩

/-- The contents a reset brings are put into canonical form. -/
theorem inv_reset {im : List (Nat × Word)} {dm : List (Nat × Byte)} {s t : State}
    (h : hostStep (.reset im dm) s = .next t) : Inv t := by
  cases h
  exact inv_resetWith (cellsOfList_wf im) (cellsOfList_wf dm)

theorem inv_writeCtrl {s : State} (h : Inv s) (v : BitVec 32) : Inv (writeCtrl v s) := by
  obtain ⟨hd, hi, hr⟩ := h
  rcases writeCtrl_cases v s with ⟨e, -⟩ | ⟨e, -⟩ | ⟨e, -⟩ <;> rw [e]
  · exact ⟨hd, hi, hr⟩
  · exact ⟨hd, hi, faultRecord_acknowledge hr⟩
  · exact ⟨hd, hi, faultRecord_launch _⟩

theorem hostStep_inv {op : HostOp} {s t : State} (hs : Inv s) (h : hostStep op s = .next t) : Inv t := by
  have ⟨hd, hi, hr⟩ := hs
  rcases hostStep_cases h with rfl | ⟨i, w, -, hlt, -, rfl⟩ | ⟨a, b, -, hlt, -, rfl⟩ | ⟨v, -, -, rfl⟩ | ⟨v, -, rfl⟩ |
    ⟨im, dm, rfl, -⟩
  · exact hs
  · exact ⟨hd, writeWord_wf hi hlt w, hr⟩
  · exact ⟨writeByte_wf hd hlt b, hi, hr⟩
  · exact hs
  · exact inv_writeCtrl hs v
  · exact inv_reset h

/-- Settles O57: by the cases of a host operation; a reset asks nothing of the state before it. -/
theorem invariantKeptByHost : Obligations.InvariantKeptByHost :=
  ⟨fun _ _ _ hs h => hostStep_inv hs h, fun _ _ _ _ h => inv_reset h⟩

/-- Settles O58: empty memories are in canonical form, and there is no point to be invalid. -/
theorem resetHasInvariant : Obligations.ResetHasInvariant :=
  ⟨inv_resetWith reset_memory_wf.2 reset_memory_wf.1, pointsValid_resetWith [] []⟩

end Sys2Proof.Proofs
end

section
/-! Proofs of the family 48_codec.md, first part: how a decode reads the fields of an encoding (R260), and the stores and loads
(R261 to R269). `FieldCodec` says of one value type which fields it is written as and what a read of them answers; the three
decodes and `F.LD` are one load (`opLoad`), with one rule per outcome. -/

namespace Sys2Proof.Proofs

open Sys2Proof.Machine Sys2Proof.Safety Sys2Proof.Laws

/-! ### Fields in memory (R260) -/

/-- The bytes from `a` on are the fields, end to end. -/
def HoldsFields (m : Dmem) (a : Nat) (l : List Fp) : Prop := readBytes m a (32 * l.length) = encFields l

theorem readBytes_eq_encFp {m : Dmem} {a : Nat} {v : Fp} : readBytes m a 32 = encFp v ↔ fieldAt m a = v.val := by
  rw [fieldAt_eq, fieldInt]
  constructor
  · intro h
    rw [h]
    exact beInt_beBytes 32 v.val (v.isLt.trans (by decide))
  · intro h
    rw [encFp, ← h]
    exact (readBytes_length m a 32 ▸ beBytes_beInt (readBytes m a 32)).symm

theorem holdsFields_nil (m : Dmem) (a : Nat) : HoldsFields m a [] := rfl

theorem holdsFields_append {m : Dmem} {a : Nat} {l l' : List Fp} :
    HoldsFields m a (l ++ l') ↔ HoldsFields m a l ∧ HoldsFields m (a + 32 * l.length) l' := by
  rw [HoldsFields, List.length_append, Nat.mul_add, readBytes_append, encFields, List.flatMap_append]
  exact List.append_eq_append_iff_of_size_eq_left (by rw [readBytes_length, ← encFields, encFields_length])

theorem holdsFields_cons {m : Dmem} {a : Nat} {v : Fp} {l : List Fp} :
    HoldsFields m a (v :: l) ↔ fieldAt m a = v.val ∧ HoldsFields m (a + 32) l := by
  have hone : HoldsFields m a [v] ↔ fieldAt m a = v.val := by
    rw [← readBytes_eq_encFp, HoldsFields, ← encFp_eq]
    rfl
  rw [← List.singleton_append, holdsFields_append, hone]
  rfl

/-- Fields that stand in memory are canonical. -/
theorem fieldsCanonical_of_holdsFields {m : Dmem} {a : Nat} {l : List Fp} (h : HoldsFields m a l) :
    FieldsCanonical m a l.length := by
  induction l generalizing a with
  | nil => exact fun k hk => absurd hk (Nat.not_lt_zero k)
  | cons v l ih =>
    obtain ⟨hv, hl⟩ := holdsFields_cons.1 h
    intro k hk
    cases k with
    | zero => exact hv ▸ v.isLt
    | succ k =>
      have := ih hl k (Nat.lt_of_succ_lt_succ hk)
      rwa [show a + 32 + 32 * k = a + 32 * (k + 1) by omega] at this

theorem fieldsCanonical_of_le {m : Dmem} {a n l : Nat} (h : FieldsCanonical m a n) (hl : l ≤ n) : FieldsCanonical m a l :=
  fun k hk => h k (Nat.lt_of_lt_of_le hk hl)

/-- Fields that were stored stand in memory. -/
theorem holdsFields_writeBytes {m : Dmem} (hm : Memory.wf m = true) (l : List Fp) {a : Nat}
    (ha : a + 32 * l.length ≤ 4096) : HoldsFields (writeBytes m a (encFields l)) a l := by
  rw [← encFields_length] at ha
  rw [HoldsFields, ← encFields_length]
  exact readBytes_writeBytes hm _ ha

/-- Storing the bytes that stand there changes nothing. -/
theorem writeBytes_readBytes {m : Dmem} (hm : Memory.wf m = true) {a n : Nat} (ha : a + n ≤ 4096) :
    writeBytes m a (readBytes m a n) = m := by
  have hfit : a + (readBytes m a n).length ≤ 4096 := by rwa [readBytes_length]
  refine cells_ext (writeBytes_wf hm _ hfit) hm fun c => ?_
  refine (readByte_writeBytes hm _ hfit c).trans ?_
  split
  · rename_i hc
    rw [readBytes_length] at hc
    rw [readBytes_get m a n (c - a) (by omega), Nat.add_sub_of_le hc.1]
    rfl
  · rfl

theorem writeBytes_of_holdsFields {m : Dmem} (hm : Memory.wf m = true) {l : List Fp} {a : Nat}
    (ha : a + 32 * l.length ≤ 4096) (h : HoldsFields m a l) : writeBytes m a (encFields l) = m := by
  rw [← h]
  exact writeBytes_readBytes hm ha

/-- Fields from an address on are canonical, or one of them is the first that is not. -/
theorem fieldsCanonical_or_firstBad (m : Dmem) (a n : Nat) :
    FieldsCanonical m a n ∨ ∃ k, k < n ∧ FirstBadField m a k := by
  induction n with
  | zero => exact .inl fun k hk => absurd hk (Nat.not_lt_zero k)
  | succ n ih =>
    rcases ih with hc | ⟨k, hk, hbad⟩
    · by_cases hn : fieldAt m (a + 32 * n) < primeP
      · exact .inl fun k hk => (Nat.lt_succ_iff_lt_or_eq.1 hk).elim (hc k) fun e => e ▸ hn
      · exact .inr ⟨n, Nat.lt_succ_self n, Nat.le_of_not_lt hn, hc⟩
    · exact .inr ⟨k, Nat.lt_succ_of_lt hk, hbad⟩

/-! ### Values made of fields -/

/-- A value type is written as `n` fields: what a read of them in the model answers, and the value the claim names. -/
structure FieldCodec {γ : Type} (n : Nat) (read : Nat → State → (γ → Result) → Result) (value : Dmem → Nat → γ)
    (fields : γ → List Fp) : Prop where
  length (v : γ) : (fields v).length = n
  good {a : Nat} {s : State} {k : γ → Result} (h : FieldsCanonical s.dmem a n) : read a s k = k (value s.dmem a)
  bad {a j : Nat} {s : State} {k : γ → Result} (h : FirstBadField s.dmem a j) (hj : j < n) :
    read a s k = .next (faulted .invalidEncoding (BitVec.ofNat 32 (a + 32 * j)) s)
  holds {m : Dmem} {a : Nat} (h : FieldsCanonical m a n) : HoldsFields m a (fields (value m a))
  value_of_holds {m : Dmem} {a : Nat} {v : γ} (h : HoldsFields m a (fields v)) : value m a = v

def fieldsOf6 (x : Fp6) : List Fp := fieldsOf2 x.c0 ++ fieldsOf2 x.c1 ++ fieldsOf2 x.c2

theorem fieldCodec_Fp : FieldCodec 1 withField (fun m a => modP (fieldAt m a)) (fun v => [v]) where
  length _ := rfl
  good h := withField_good (h 0 Nat.one_pos)
  bad h hj := by
    obtain rfl : _ = 0 := Nat.lt_one_iff.1 hj
    exact withField_bad h.1
  holds h := holdsFields_cons.2 ⟨(modP_val_of_lt (h 0 Nat.one_pos)).symm, holdsFields_nil _ _⟩
  value_of_holds h := by rw [(holdsFields_cons.1 h).1, modP_val]

/-- Two values one after the other, the fields of the first before those of the second. -/
theorem FieldCodec.pair {α β γ : Type} {n n' : Nat} {read : Nat → State → (α → Result) → Result}
    {read' : Nat → State → (β → Result) → Result} {value : Dmem → Nat → α} {value' : Dmem → Nat → β}
    {fields : α → List Fp} {fields' : β → List Fp} (c : FieldCodec n read value fields)
    (c' : FieldCodec n' read' value' fields') {mk : α → β → γ} {fst : γ → α} {snd : γ → β}
    (hfst : ∀ x y, fst (mk x y) = x) (hsnd : ∀ x y, snd (mk x y) = y) (hmk : ∀ v, mk (fst v) (snd v) = v) :
    FieldCodec (n + n') (fun a s k => read a s fun x => read' (a + 32 * n) s fun y => k (mk x y))
      (fun m a => mk (value m a) (value' m (a + 32 * n))) (fun v => fields (fst v) ++ fields' (snd v)) where
  length v := by rw [List.length_append, c.length, c'.length]
  good h := by
    rw [c.good (fieldsCanonical_of_le h (Nat.le_add_right n n')), c'.good (canonical_shift h (Nat.le_refl _))]
  bad {a j s k} h hj := by
    by_cases hn : j < n
    · exact c.bad h hn
    · have hle : n ≤ j := Nat.le_of_not_lt hn
      rw [c.good (fieldsCanonical_of_le h.2 hle), c'.bad (firstBad_shift h hle) (by omega),
        show a + 32 * n + 32 * (j - n) = a + 32 * j by omega]
  holds h := by
    rw [holdsFields_append, hfst, hsnd, c.length]
    exact ⟨c.holds (fieldsCanonical_of_le h (Nat.le_add_right n n')), c'.holds (canonical_shift h (Nat.le_refl _))⟩
  value_of_holds h := by
    rw [holdsFields_append, c.length] at h
    rw [c.value_of_holds h.1, c'.value_of_holds h.2, hmk]

theorem fieldCodec_Fp2 : FieldCodec 2 withField2 field2At fieldsOf2 :=
  fieldCodec_Fp.pair fieldCodec_Fp (mk := Fp2.mk) (fst := Fp2.a) (snd := Fp2.b) (fun _ _ => rfl) (fun _ _ => rfl)
    fun _ => rfl

theorem holdsFields_fieldsOf6 {m : Dmem} {a : Nat} {x : Fp6} : HoldsFields m a (fieldsOf6 x) ↔
    HoldsFields m a (fieldsOf2 x.c0) ∧ HoldsFields m (a + 64) (fieldsOf2 x.c1) ∧
      HoldsFields m (a + 128) (fieldsOf2 x.c2) := by
  rw [fieldsOf6, holdsFields_append, holdsFields_append, and_assoc]
  rfl

theorem fieldCodec_Fp6 : FieldCodec 6 withField6 field6At fieldsOf6 where
  length _ := rfl
  good := withField6_good
  bad := withField6_bad
  holds h := holdsFields_fieldsOf6.2 ⟨fieldCodec_Fp2.holds (fieldsCanonical_of_le h (by decide)),
    fieldCodec_Fp2.holds (canonical_shift (j := 2) h (by decide)),
    fieldCodec_Fp2.holds (canonical_shift (j := 4) h (by decide))⟩
  value_of_holds h := by
    obtain ⟨h0, h1, h2⟩ := holdsFields_fieldsOf6.1 h
    rw [field6At, fieldCodec_Fp2.value_of_holds h0, fieldCodec_Fp2.value_of_holds h1, fieldCodec_Fp2.value_of_holds h2]

/-- The two coordinates of a G1 point (R262). -/
def withG1 (a : Nat) (s : State) (k : G1pt → Result) : Result :=
  withField a s fun x => withField (a + 32) s fun y => k ⟨x, y⟩

/-- The two coordinates of a G2 point (R264). -/
def withG2 (a : Nat) (s : State) (k : G2pt → Result) : Result :=
  withField2 a s fun x => withField2 (a + 64) s fun y => k ⟨x, y⟩

/-- The two coefficients of a GT value (R266). -/
def withGt (a : Nat) (s : State) (k : Fp12 → Result) : Result :=
  withField6 a s fun x => withField6 (a + 192) s fun y => k ⟨x, y⟩

theorem fieldCodec_G1 :
    FieldCodec 2 withG1 (fun m a => ⟨modP (fieldAt m a), modP (fieldAt m (a + 32))⟩) fieldsOfG1 :=
  fieldCodec_Fp.pair fieldCodec_Fp (mk := G1pt.mk) (fst := G1pt.X) (snd := G1pt.Y) (fun _ _ => rfl) (fun _ _ => rfl)
    fun _ => rfl

theorem fieldCodec_G2 : FieldCodec 4 withG2 (fun m a => ⟨field2At m a, field2At m (a + 64)⟩) fieldsOfG2 :=
  fieldCodec_Fp2.pair fieldCodec_Fp2 (mk := G2pt.mk) (fst := G2pt.X) (snd := G2pt.Y) (fun _ _ => rfl) (fun _ _ => rfl)
    fun _ => rfl

theorem fieldCodec_Gt : FieldCodec 12 withGt (fun m a => ⟨field6At m a, field6At m (a + 192)⟩) fieldsOf12 :=
  fieldCodec_Fp6.pair fieldCodec_Fp6 (mk := Fp12.mk) (fst := Fp12.c0) (snd := Fp12.c1) (fun _ _ => rfl) (fun _ _ => rfl)
    fun _ => rfl

/-! ### The stores (R261, R263, R265, R268) -/

/-- Settles O50: each of the four commands is the store of a list of fields. -/
theorem encodesStoreFields : Obligations.EncodesStoreFields :=
  ⟨ruleStore_of (opc := 0x80) encG1 rfl (fun _ _ => rfl) (fun _ _ _ => rfl) encG1_eq fun _ => rfl,
    ruleStore_of (opc := 0x82) encG2 rfl (fun _ _ => rfl) (fun _ _ _ => rfl) encG2_eq fun _ => rfl,
    ruleStore_of (opc := 0x84) encGt rfl (fun _ _ => rfl) (fun _ _ _ => rfl) encGt_eq fun _ => rfl,
    ruleStore_of (opc := 0x87) encFp rfl (fun _ _ => rfl) (fun _ _ _ => rfl) encFp_eq fun _ => rfl⟩

/-! ### The load of a value made of fields (R262, R264, R266, R267) -/

/-- Bounds, fields, the test of the value, then one register: the tests of R270 after that of the length. -/
def opLoad {γ : Type} (read : Nat → State → (γ → Result) → Result) (test : γ → Bool) (dst : File γ) (r : RegIdx)
    (addr : Addr) (n : Nat) (s : State) : Result :=
  withAccess addr n s <| read addr.toNat s fun v =>
    if test v then finishReg dst r v s else raiseFault .invalidPoint (addr.setWidth 32) s

/-- The test of a decoded G1 point (R262). -/
def g1DecodeTest (A : G1pt) : Bool := g1IsInf A || g1OnCurve A

/-- The test of a decoded G2 point (R264). -/
def g2DecodeTest (A : G2pt) : Bool := g2IsInf A || g2OnCurve A

theorem g1DecodeTest_iff {A : G1pt} : g1DecodeTest A = true ↔ A = inf1 ∨ OnCurve1 A := by
  rw [g1DecodeTest, Bool.or_eq_true, g1IsInf_iff, g1OnCurve_iff]

theorem g2DecodeTest_iff {A : G2pt} : g2DecodeTest A = true ↔ A = inf2 ∨ OnCurve2 A := by
  rw [g2DecodeTest, Bool.or_eq_true, g2IsInf_iff, g2OnCurve_iff]

theorem exec_g1Dec (r : RegIdx) (addr : Addr) (len : BitVec 9) (s : State) :
    exec (.g1Dec r addr len) s = withLength len 64 s (opLoad withG1 g1DecodeTest fileP r addr 64 s) := rfl

theorem exec_g2Dec (r : RegIdx) (addr : Addr) (len : BitVec 9) (s : State) :
    exec (.g2Dec r addr len) s = withLength len 128 s (opLoad withG2 g2DecodeTest fileW r addr 128 s) := rfl

theorem exec_gtDec (r : RegIdx) (addr : Addr) (len : BitVec 9) (s : State) :
    exec (.gtDec r addr len) s = withLength len 384 s (opLoad withGt (fun _ => true) fileD r addr 384 s) := rfl

theorem exec_fLd (r : RegIdx) (addr : Addr) (s : State) :
    exec (.fLd r addr) s = opLoad withField (fun _ => true) fileF r addr 32 s := rfl

section Load

variable {γ : Type} {n : Nat} {read : Nat → State → (γ → Result) → Result} {value : Dmem → Nat → γ}
  {fields : γ → List Fp} {test : γ → Bool} {dst : File γ} {r : RegIdx} {addr : Addr} {s : State}

theorem opLoad_past (h : 4096 < addr.toNat + 32 * n) :
    opLoad read test dst r addr (32 * n) s = .next (faulted .dmemAccessFault (addr.setWidth 32) s) := withAccess_past h

variable (c : FieldCodec n read value fields) (hfit : addr.toNat + 32 * n ≤ 4096)

include c hfit

theorem opLoad_bad {j : Nat} (h : FirstBadField s.dmem addr.toNat j) (hj : j < n) :
    opLoad read test dst r addr (32 * n) s =
      .next (faulted .invalidEncoding (BitVec.ofNat 32 (addr.toNat + 32 * j)) s) := by
  rw [opLoad, withAccess_fits hfit, c.bad h hj]

theorem opLoad_invalid (h : FieldsCanonical s.dmem addr.toNat n) (ht : ¬ test (value s.dmem addr.toNat) = true) :
    opLoad read test dst r addr (32 * n) s = .next (faulted .invalidPoint (addr.setWidth 32) s) := by
  rw [opLoad, withAccess_fits hfit, c.good h, if_neg ht, raiseFault_eq]

theorem opLoad_good (h : FieldsCanonical s.dmem addr.toNat n) (ht : test (value s.dmem addr.toNat) = true) :
    opLoad read test dst r addr (32 * n) s = finishReg dst r (value s.dmem addr.toNat) s := by
  rw [opLoad, withAccess_fits hfit, c.good h, if_pos ht]

end Load

/-- A decode is the test of the length and then a load of fields. -/
theorem ruleDecode_of {γ : Type} {op n : Nat} {opc : BitVec 8} {dst : File γ} {mk : RegIdx → Addr → BitVec 9 → Instr}
    {read : Nat → State → (γ → Result) → Result} {value : Dmem → Nat → γ} {fields : γ → List Fp} {valid : γ → Prop}
    (test : γ → Bool) (c : FieldCodec n read value fields) (hk : KeepsPc dst) (hop : opc.toNat = op)
    (he : ∀ r addr len, encode (mk r addr len) = wordM opc (idx3 r) addr len)
    (hx : ∀ r addr len s, exec (mk r addr len) s =
      withLength len (32 * n) s (opLoad read test dst r addr (32 * n) s))
    (ht : ∀ v, test v = true ↔ valid v) : RuleDecode op (32 * n) dst mk value valid := by
  have hn : 32 * n / 32 = n := Nat.mul_div_cancel_left n (by decide)
  refine fun r addr len => ⟨he r addr len ▸ word_formatM hop r addr len, fun s =>
    ⟨fun hlen => ?_, fun hlen hpast => ?_, fun hlen hfit => ?_⟩⟩
  · rw [hx, withLength_ne hlen]
    rfl
  · rw [hx, withLength_eq hlen, opLoad_past hpast]
    rfl
  · rw [hx, withLength_eq hlen, hn]
    refine ⟨fun k hkn hbad => opLoad_bad c hfit hbad hkn,
      fun hcan => ⟨fun hv => opLoad_invalid c hfit hcan fun h => hv ((ht _).1 h), fun hv => ?_⟩⟩
    rw [opLoad_good c hfit hcan ((ht _).2 hv), finishReg_eq_wroteReg hk]

/-- Settles O51: each of the three commands is the test of the length and then a load of its fields. -/
theorem decodesValidate : Obligations.DecodesValidate :=
  ⟨ruleDecode_of (opc := 0x81) g1DecodeTest fieldCodec_G1 keepsPc_P rfl (fun _ _ _ => rfl) exec_g1Dec
      fun _ => g1DecodeTest_iff,
    ruleDecode_of (opc := 0x83) g2DecodeTest fieldCodec_G2 keepsPc_W rfl (fun _ _ _ => rfl) exec_g2Dec
      fun _ => g2DecodeTest_iff,
    ruleDecode_of (opc := 0x85) (fun _ => true) fieldCodec_Gt keepsPc_D rfl (fun _ _ _ => rfl) exec_gtDec
      fun _ => iff_of_true rfl trivial⟩

/-! ### `K.LD` (R269) -/

section KLd

variable {r : RegIdx} {addr : Addr} {len : BitVec 9} {s : State} (hlen : len.toNat ≤ 384)

include hlen

theorem exec_kLd_past (h : 4096 < addr.toNat + len.toNat) :
    exec (.kLd r addr len) s = .next (faulted .dmemAccessFault (addr.setWidth 32) s) :=
  (if_pos hlen).trans (withAccess_past h)

theorem exec_kLd_fits (h : addr.toNat + len.toNat ≤ 4096) : exec (.kLd r addr len) s =
    finishReg fileK r (BitVec.ofNat Config.KBITS (beInt (readBytes s.dmem addr.toNat len.toNat))) s :=
  (if_pos hlen).trans (withAccess_fits h)

/-- No more than KBYTES bytes fit a K register. -/
theorem kInt_toNat_eq_intAt (m : Dmem) (a : Nat) :
    (BitVec.ofNat Config.KBITS (beInt (readBytes m a len.toNat))).toNat = intAt m a len.toNat := by
  have hbytes : beInt (readBytes m a len.toNat) < 256 ^ len.toNat := by
    simpa only [readBytes_length] using beInt_lt (readBytes m a len.toNat)
  have hbits : 256 ^ len.toNat ≤ 2 ^ Config.KBITS := by
    rw [show 256 = 2 ^ 8 from rfl, ← Nat.pow_mul]
    exact Nat.pow_le_pow_right (by decide) (Nat.mul_le_mul_left 8 hlen)
  rw [BitVec.toNat_ofNat, Nat.mod_eq_of_lt (Nat.lt_of_lt_of_le hbytes hbits), intAt_eq]

end KLd

/-- A length past KBYTES is no legal word (R86, R88). -/
theorem decode_lengthOutOfRange {opc : BitVec 8} {most : Nat} {mk : RegIdx → Addr → BitVec 9 → Instr}
    (hrow : findRow opc opcodeTable = some (.memLen most mk)) {r : BitVec 3} {addr : Addr} {len : BitVec 9}
    (h : most < len.toNat) : decode (wordM opc r addr len) = .error .lengthOutOfRange := by
  rw [decode_of_row hrow (opField_wordM ..)]
  simp [readLayout, Nat.not_le.2 h]

/-- A length of 0 fits at every address and reads as 0. -/
theorem exec_kLd_zero (r : RegIdx) (addr : Addr) (s : State) : exec (.kLd r addr 0) s = finishReg fileK r 0 s :=
  exec_kLd_fits (by decide) (Nat.le_of_lt addr.isLt)

/-- Settles O52: `F.LD` is the load of one field, and `K.LD` reads no more than a K register holds. -/
theorem fieldAndIntegerLoads : Obligations.FieldAndIntegerLoads := by
  refine ⟨fun r addr => ⟨word_formatM (opc := 0x86) rfl r addr 0, fun s => ⟨fun h => ?_, fun hfit h => ?_, fun hfit h =>
      ⟨modP (intAt s.dmem addr.toNat 32), modP_val_of_lt h, ?_⟩⟩⟩,
    fun r addr len => ⟨word_formatM (opc := 0x88) rfl r addr len, decode_lengthOutOfRange rfl, fun hlen s =>
      ⟨exec_kLd_past hlen, fun hfit => ⟨_, kInt_toNat_eq_intAt hlen s.dmem addr.toNat, exec_kLd_fits hlen hfit⟩, ?_⟩⟩⟩
  · rw [exec_fLd, opLoad_past (n := 1) h]
    rfl
  · have hbad : FirstBadField s.dmem addr.toNat 0 := ⟨h, fun k hk => absurd hk (Nat.not_lt_zero k)⟩
    rw [exec_fLd, opLoad_bad fieldCodec_Fp hfit hbad Nat.one_pos, Nat.mul_zero, Nat.add_zero, BitVec.ofNat_toNat]
    rfl
  · have hcan : FieldsCanonical s.dmem addr.toNat 1 := fun k hk => by
      obtain rfl : k = 0 := Nat.lt_one_iff.1 hk
      exact h
    rw [exec_fLd, opLoad_good fieldCodec_Fp hfit hcan rfl]
    rfl
  · rintro rfl
    exact exec_kLd_zero r addr s

end Sys2Proof.Proofs
end

section
/-! Proofs of the family 48_codec.md, second part: the round trips (R271). What was stored stands in memory as fields, so a load
gives it back; a load that completes has found the fields of its value, so a store of it changes no byte. -/

namespace Sys2Proof.Proofs

open Sys2Proof.Machine Sys2Proof.Safety Sys2Proof.Laws

section RoundTrip

variable {γ : Type} {n : Nat} {read : Nat → State → (γ → Result) → Result} {value : Dmem → Nat → γ}
  {fields : γ → List Fp} {test : γ → Bool} {f : FileName} {fl : File γ} {enc : γ → List Byte} {w : Word} {addr : Addr}
  {s t : State} {i j : RegIdx} {v : γ}

/-- The state a completing store of a byte string leaves. -/
def stored (addr : Addr) (bs : List Byte) (s : State) : State :=
  advance { s with dmem := writeBytes s.dmem addr.toNat bs }

theorem opStore_fits (hfit : addr.toNat + 32 * n ≤ 4096) (hv : readReg fl s i = some v) :
    opStore fl w i addr (32 * n) enc s = .next (stored addr (enc v) s) := by
  rw [opStore, withReg_some hv, withAccess_fits hfit]
  rfl

theorem readReg_advance_writeReg (hf : Named f fl) (s : State) (i : RegIdx) (v : γ) :
    readReg fl (advance (writeReg fl s i v)) i = some v := by
  cases hf <;> exact regFile_set_same _ i v

variable (c : FieldCodec n read value fields)

include c

/-- A load that enters no fault has passed its tests and written the value of the fields. -/
theorem opLoad_of_ne_fault (h : opLoad read test fl i addr (32 * n) s = .next t) (ht : t.run ≠ .fault) :
    addr.toNat + 32 * n ≤ 4096 ∧ FieldsCanonical s.dmem addr.toNat n ∧
      t = advance (writeReg fl s i (value s.dmem addr.toNat)) := by
  by_cases hfit : addr.toNat + 32 * n ≤ 4096
  · rcases fieldsCanonical_or_firstBad s.dmem addr.toNat n with hcan | ⟨k, hk, hbad⟩
    · by_cases htest : test (value s.dmem addr.toNat) = true
      · rw [opLoad_good c hfit hcan htest] at h
        cases h
        exact ⟨hfit, hcan, rfl⟩
      · rw [opLoad_invalid c hfit hcan htest] at h
        cases h
        exact absurd rfl ht
    · rw [opLoad_bad c hfit hbad hk] at h
      cases h
      exact absurd rfl ht
  · rw [opLoad_past (Nat.lt_of_not_le hfit)] at h
    cases h
    exact absurd rfl ht

variable (henc : ∀ v, enc v = encFields (fields v))

include henc

/-- A load from where a value was stored gives the value back, if it passes the test of the load. -/
theorem opLoad_stored (hfit : addr.toNat + 32 * n ≤ 4096) (hm : Memory.wf s.dmem = true) (ht : test v = true) :
    opLoad read test fl j addr (32 * n) (stored addr (enc v) s) = finishReg fl j v (stored addr (enc v) s) := by
  have hfields : HoldsFields (stored addr (enc v) s).dmem addr.toNat (fields v) := by
    show HoldsFields (writeBytes s.dmem addr.toNat (enc v)) _ _
    rw [henc]
    exact holdsFields_writeBytes hm _ (by rwa [c.length])
  have hcan := fieldsCanonical_of_holdsFields hfields
  have hval := c.value_of_holds hfields
  rw [c.length] at hcan
  rw [opLoad_good c hfit hcan (by rwa [hval]), hval]

/-- A store, then a load from the same address: the value goes from one register to the other. -/
theorem exists_store_load {store load : State → Result} (hstore : ∀ s, store s = opStore fl w i addr (32 * n) enc s)
    (hload : ∀ s, load s = opLoad read test fl j addr (32 * n) s) (hf : Named f fl) (hfit : addr.toNat + 32 * n ≤ 4096)
    (hm : Memory.wf s.dmem = true) (hv : readReg fl s i = some v) (ht : test v = true) :
    ∃ s1 s2, store s = .next s1 ∧ load s1 = .next s2 ∧
      s2 = { fl.put s1 ((fl.get s).set j (some v)) with pc := s.pc + 2 } := by
  refine ⟨_, _, (hstore s).trans (opStore_fits hfit hv), (hload _).trans (opLoad_stored c henc hfit hm ht), ?_⟩
  have hpc : s.pc + 1 + 1 = s.pc + 2 := BitVec.add_assoc ..
  rw [← hpc]
  cases hf <;> rfl

/-- Storing back what a load has read moves `pc` and nothing else. -/
theorem store_of_load {store load : State → Result} (hstore : ∀ s, store s = opStore fl w i addr (32 * n) enc s)
    (hload : ∀ s, load s = opLoad read test fl i addr (32 * n) s) (hf : Named f fl) (hm : Memory.wf s.dmem = true)
    (h : load s = .next t) (ht : t.run = .run) : store t = .next { t with pc := t.pc + 1 } := by
  rw [hload] at h
  obtain ⟨hfit, hcan, rfl⟩ := opLoad_of_ne_fault c h (by rw [ht]; nofun)
  rw [hstore, opStore_fits hfit (readReg_advance_writeReg hf ..), stored, advance_dmem, writeReg_dmem hf, henc,
    writeBytes_of_holdsFields hm (by rwa [c.length]) (c.holds hcan), ← writeReg_dmem hf s i (value s.dmem addr.toNat)]
  rfl

end RoundTrip

/-! ### The four pairs of commands -/

section Commands

variable (r : RegIdx) (addr : Addr) (s : State)

theorem exec_g1Enc : exec (.g1Enc r addr) s = opStore fileP (encode (.g1Enc r addr)) r addr (32 * 2) encG1 s := rfl

theorem exec_g2Enc : exec (.g2Enc r addr) s = opStore fileW (encode (.g2Enc r addr)) r addr (32 * 4) encG2 s := rfl

theorem exec_gtEnc : exec (.gtEnc r addr) s = opStore fileD (encode (.gtEnc r addr)) r addr (32 * 12) encGt s := rfl

theorem exec_fSt : exec (.fSt r addr) s = opStore fileF (encode (.fSt r addr)) r addr (32 * 1) encFp s := rfl

theorem exec_g1Dec_full : exec (.g1Dec r addr 64) s = opLoad withG1 g1DecodeTest fileP r addr (32 * 2) s :=
  (exec_g1Dec r addr 64 s).trans (withLength_eq rfl)

theorem exec_g2Dec_full : exec (.g2Dec r addr 128) s = opLoad withG2 g2DecodeTest fileW r addr (32 * 4) s :=
  (exec_g2Dec r addr 128 s).trans (withLength_eq rfl)

theorem exec_gtDec_full : exec (.gtDec r addr 384) s = opLoad withGt (fun _ => true) fileD r addr (32 * 12) s :=
  (exec_gtDec r addr 384 s).trans (withLength_eq rfl)

end Commands

/-- Settles O53: the four pairs of commands are a store and a load of one `FieldCodec`. -/
theorem codecRoundTrips : Obligations.CodecRoundTrips := by
  refine ⟨fun s i j addr hm => ⟨fun A hfit hA hv => ?_, fun A hfit hA hv => ?_, fun x hfit hx => ?_, fun v hfit hv => ?_⟩,
    fun s t i addr hm _ ht => ⟨fun h => ?_, fun h => ?_, fun h => ?_, fun h => ?_⟩⟩
  · exact exists_store_load fieldCodec_G1 encG1_eq (exec_g1Enc i addr) (exec_g1Dec_full j addr) .P hfit hm hA
      (g1DecodeTest_iff.2 hv)
  · exact exists_store_load fieldCodec_G2 encG2_eq (exec_g2Enc i addr) (exec_g2Dec_full j addr) .W hfit hm hA
      (g2DecodeTest_iff.2 hv)
  · exact exists_store_load fieldCodec_Gt encGt_eq (exec_gtEnc i addr) (exec_gtDec_full j addr) .D hfit hm hx rfl
  · exact exists_store_load fieldCodec_Fp encFp_eq (exec_fSt i addr) (exec_fLd j addr) .F hfit hm hv rfl
  · exact store_of_load fieldCodec_G1 encG1_eq (exec_g1Enc i addr) (exec_g1Dec_full i addr) .P hm h ht
  · exact store_of_load fieldCodec_G2 encG2_eq (exec_g2Enc i addr) (exec_g2Dec_full i addr) .W hm h ht
  · exact store_of_load fieldCodec_Gt encGt_eq (exec_gtEnc i addr) (exec_gtDec_full i addr) .D hm h ht
  · exact store_of_load fieldCodec_Fp encFp_eq (exec_fSt i addr) (exec_fLd i addr) .F hm h ht

end Sys2Proof.Proofs
end
